-- ==== Sys2Proof/Word.lean ====
section
/-! DEFINITION. Word types of the EGVLC unit (00_scope.md R7, R8). -/

namespace Sys2Proof

/-- One byte of buffer memory (20_memory.md R66). -/
abbrev Byte := BitVec 8

/-- One 32-bit register word, and one command word (10_state.md R37, 30_encoding.md R80). -/
abbrev Word := BitVec 32

/-- A 64-bit register: POS, LENBITS, BASE, RES, OUT_WIDTH, OUT_HEIGHT (00_scope.md R7). -/
abbrev DWord := BitVec 64

end Sys2Proof
end

