-- ==== Sys2Proof/Config.lean ====
section
/-! DEFINITION. What an implementation fixes (00_scope.md R7) and the values the spec leaves open. -/

namespace Sys2Proof

/-- The implementation parameters that have a default (00_scope.md R7: "A model takes each one as an
argument, with the default shown"). They are fixed for a machine; `State` carries them and no step
changes them. -/
structure Params where
  /-- ADDR_W, the width of memory-port addresses and of BASE; legal 1..64 (D3). -/
  addrW : Nat
  /-- SL_LARGE, the entries in each H.264 scaling list of index 6 or more (D14). -/
  slLarge : Nat
  /-- SRGB_FULL_SWING, the value of OUT_VP9.FULLSWING when the colour space is sRGB (D19). -/
  srgbFullSwing : Bool
deriving DecidableEq, Repr

/-- The defaults of 00_scope.md R7: ADDR_W 64, SL_LARGE 32, SRGB_FULL_SWING 1. -/
def Params.default : Params := { addrW := 64, slLarge := 32, srgbFullSwing := true }

/-- "any value 1..64" for ADDR_W (R7); every SL_LARGE and SRGB_FULL_SWING is legal. -/
abbrev Params.legal (p : Params) : Prop := 1 ≤ p.addrW ∧ p.addrW ≤ 64

/-- REG_BASE, the platform address of the register window: OPEN (R7, D47). Host accesses carry
their offset in the window, so no definition depends on it. -/
opaque Config.regBase : Nat

/-- The bus address of the register at byte offset `off` of the window (10_state.md R35). -/
def Config.windowAddr (off : BitVec 8) : Nat := Config.regBase + off.toNat

/-- T_MAX, the bound on the cycles of a command: OPEN, and no rule depends on it (R7, D35). -/
opaque Config.tMax : Nat

/-- FREE VALUE: the byte the `serial`-th buffer read of a command returns when an agent has written
the buffer under it ("a draw, separate for each read", 20_memory.md R70). `epoch` counts the
commands this has happened to. Nothing is known of it (Log 6). -/
opaque Config.freeByte (epoch serial : Nat) : Byte

end Sys2Proof
end

