-- ==== Sys2Proof/Syntax.lean ====
section
/-! DEFINITION. The commands of the unit (30_encoding.md R81), and the assembler's lines (R86, R87)
and the host program's lines (R88) as abstract syntax. -/

namespace Sys2Proof

/-- One constructor per row of spec/opcode_table.json (30_encoding.md R81). -/
inductive Instr where
  /-- NOP (R110) -/
  | nop
  /-- CINIT: bind the cursor to the buffer (R111) -/
  | cinit
  /-- RDBITS n: read n bits; n is a natural number 0..127 (R82, R112) -/
  | rdbits (n : Nat)
  /-- CLZ: count leading zero bits (R113) -/
  | clz
  /-- UE: decode ue(v) (R114) -/
  | ue
  /-- SE: decode se(v) (R115) -/
  | se
  /-- BALIGN: byte-alignment query (R116) -/
  | balign
  /-- ALIGN: skip to the next byte boundary (R117) -/
  | align
  /-- AACCFG: AudioSpecificConfig extraction with the request mask REQ (R84, R140) -/
  | aaccfg (req : BitVec 3)
  /-- H264SPS: SPS frame-size extraction (R160) -/
  | h264sps
  /-- VP9KEY: VP9 keyframe test (R191) -/
  | vp9key
  /-- VP9PROPS: VP9 frame-property extraction (R192) -/
  | vp9props
  /-- SELFTEST: the self-test fixture (R118) -/
  | selftest
deriving DecidableEq, Repr

/-- A number as the assembler reads it: decimal, or `0x` hexadecimal (R86), most significant digit
first. -/
inductive Numeral where
  | dec (digits : List (Fin 10))
  | hex (digits : List (Fin 16))
deriving DecidableEq, Repr

/-- The keywords of AACCFG's operand list (R86). -/
inductive AacKeyword where
  | ch
  | sr
  | spf
deriving DecidableEq, Repr

/-- One assembler line: a mnemonic and its operand (R86), and the pseudo-instructions (R87). -/
inductive AsmLine where
  /-- a mnemonic that takes no operand; `op` is one of the eleven the rule lists -/
  | plain (op : Instr)
  /-- `RDBITS n` -/
  | rdbits (n : Numeral)
  /-- `SKIP n`, which expands to `RDBITS n` -/
  | skip (n : Numeral)
  /-- `AACCFG none` -/
  | aaccfgNone
  /-- `AACCFG list`, a comma-separated list of keywords -/
  | aaccfg (list : List AacKeyword)
  /-- `AACCFG` with no operand, which expands to `AACCFG ch,sr,spf` -/
  | aaccfgAll
deriving DecidableEq, Repr

/-- The lines of a host program (R88); a register is named by its offset in the window. -/
inductive HostLine where
  /-- `WR REG, v` -/
  | wr (reg : BitVec 8) (v : Word)
  /-- `CMD <command>` -/
  | cmd (line : AsmLine)
  /-- `WAIT` -/
  | wait
  /-- `RD REG` -/
  | rd (reg : BitVec 8)
  /-- `BUF = [b0, b1, …]` at memory address `base` -/
  | buf (base : DWord) (bytes : List Byte)
deriving DecidableEq, Repr

end Sys2Proof
end

