-- ==== Sys2Proof/WellFormed.lean ====
section
/-! DEFINITION. Which commands have an encoding (30_encoding.md R80 to R87). -/

namespace Sys2Proof

/-- RDBITS's operand fits its 7-bit field: "a natural number 0..127" (R82). Every other operand is
in range by its type, REQ among them ("All eight values are legal", R84). -/
def Instr.wellFormed : Instr → Bool
  | .rdbits n => decide (n < 128)
  | .nop => true
  | .cinit => true
  | .clz => true
  | .ue => true
  | .se => true
  | .balign => true
  | .align => true
  | .aaccfg _ => true
  | .h264sps => true
  | .vp9key => true
  | .vp9props => true
  | .selftest => true

/-- The command has an encoding. -/
abbrev Instr.WellFormed (i : Instr) : Prop := i.wellFormed = true

end Sys2Proof
end

