-- ==== Sys2Proof/Decode.lean ====
section
/-! DEFINITION. The command decoder, total on any 32-bit word and rejecting by name
(30_encoding.md R80 to R83), the encoder, and the assembler (R86, R87). -/

namespace Sys2Proof

/-- Why a command word is illegal: the cases (a) to (d) of R83. -/
inductive IllegalWord where
  /-- (a) OPC is not in the map of R81 -/
  | unknownOpcode
  /-- (b) bit 15 or any of bits 31:19 is 1 -/
  | reservedBitSet
  /-- (c) OPC ≠ 0x02 and N ≠ 0 -/
  | strayN
  /-- (d) OPC ≠ 0x10 and REQ ≠ 0 -/
  | strayReq
deriving DecidableEq, Repr

/-- OPC, bits 7:0 (R80). -/
def opcField (w : Word) : BitVec 8 := w.extractLsb' 0 8

/-- N, bits 14:8 (R80). -/
def nField (w : Word) : BitVec 7 := w.extractLsb' 8 7

/-- Bit 15, which must be 0 (R80). -/
def bit15Field (w : Word) : BitVec 1 := w.extractLsb' 15 1

/-- REQ, bits 18:16 (R80). -/
def reqField (w : Word) : BitVec 3 := w.extractLsb' 16 3

/-- Bits 31:19, which must be 0 (R80). -/
def topField (w : Word) : BitVec 13 := w.extractLsb' 19 13

/-- The opcode map of R81, given the operand fields. -/
def opcodeMap (opc : Nat) (n : Nat) (req : BitVec 3) : Option Instr :=
  match opc with
  | 0x00 => some .nop
  | 0x01 => some .cinit
  | 0x02 => some (.rdbits n)
  | 0x03 => some .clz
  | 0x04 => some .ue
  | 0x05 => some .se
  | 0x06 => some .balign
  | 0x07 => some .align
  | 0x10 => some (.aaccfg req)
  | 0x11 => some .h264sps
  | 0x12 => some .vp9key
  | 0x13 => some .vp9props
  | 0x1F => some .selftest
  | _ => none

/-- The command a word stands for, or why it is illegal (R83). -/
def decode (w : Word) : Except IllegalWord Instr :=
  match opcodeMap (opcField w).toNat (nField w).toNat (reqField w) with
  | none => .error .unknownOpcode
  | some i =>
    if bit15Field w ≠ 0 ∨ topField w ≠ 0 then .error .reservedBitSet
    else if opcField w ≠ 0x02 ∧ nField w ≠ 0 then .error .strayN
    else if opcField w ≠ 0x10 ∧ reqField w ≠ 0 then .error .strayReq
    else .ok i

/-- The opcode of a command (R81). -/
def Instr.opcode : Instr → Nat
  | .nop => 0x00
  | .cinit => 0x01
  | .rdbits _ => 0x02
  | .clz => 0x03
  | .ue => 0x04
  | .se => 0x05
  | .balign => 0x06
  | .align => 0x07
  | .aaccfg _ => 0x10
  | .h264sps => 0x11
  | .vp9key => 0x12
  | .vp9props => 0x13
  | .selftest => 0x1F

/-- The word of a command: `(n << 8) | 0x02` for RDBITS, `(REQ << 16) | 0x10` for AACCFG, and
`zext_32(OPC)` for every other (R86). -/
def encode : Instr → Word
  | .rdbits n => BitVec.ofNat 32 (n * 2 ^ 8 + 0x02)
  | .aaccfg req => BitVec.ofNat 32 (req.toNat * 2 ^ 16 + 0x10)
  | .nop => BitVec.ofNat 32 (Instr.opcode .nop)
  | .cinit => BitVec.ofNat 32 (Instr.opcode .cinit)
  | .clz => BitVec.ofNat 32 (Instr.opcode .clz)
  | .ue => BitVec.ofNat 32 (Instr.opcode .ue)
  | .se => BitVec.ofNat 32 (Instr.opcode .se)
  | .balign => BitVec.ofNat 32 (Instr.opcode .balign)
  | .align => BitVec.ofNat 32 (Instr.opcode .align)
  | .h264sps => BitVec.ofNat 32 (Instr.opcode .h264sps)
  | .vp9key => BitVec.ofNat 32 (Instr.opcode .vp9key)
  | .vp9props => BitVec.ofNat 32 (Instr.opcode .vp9props)
  | .selftest => BitVec.ofNat 32 (Instr.opcode .selftest)

/-- The command word whose bits the opcode table numbers as `w`: every command is one 32-bit word
(R80), written whole to CMD, so no byte order applies (20_memory.md R65). -/
def tableWord (nbits w : Nat) : Word := BitVec.ofNat 32 (w % 2 ^ nbits)

/-- The instruction the decoder reads from an instruction whose bits are `w`. -/
def decodeTableWord (nbits w : Nat) : Option Instr :=
  match decode (tableWord nbits w) with
  | .ok i => some i
  | .error _ => none

/-- The REQ bit a keyword sets: `ch`, `sr` and `spf` set bits 0, 1 and 2 (R86). -/
def AacKeyword.mask : AacKeyword → BitVec 3
  | .ch => 0b001
  | .sr => 0b010
  | .spf => 0b100

/-- The REQ mask of a keyword list (R86). -/
def aacMask (list : List AacKeyword) : BitVec 3 :=
  list.foldr (fun k m => k.mask ||| m) 0

/-- The number a numeral writes, most significant digit first (R86). -/
def Numeral.value : Numeral → Nat
  | .dec ds => ds.foldl (fun acc d => 10 * acc + d.val) 0
  | .hex ds => ds.foldl (fun acc d => 16 * acc + d.val) 0

/-- A numeral has at least one digit. -/
def Numeral.nonempty : Numeral → Bool
  | .dec ds => !ds.isEmpty
  | .hex ds => !ds.isEmpty

/-- The mnemonics that take no operand: all but RDBITS and AACCFG (R86). -/
def Instr.takesNoOperand : Instr → Bool
  | .rdbits _ => false
  | .aaccfg _ => false
  | .nop => true
  | .cinit => true
  | .clz => true
  | .ue => true
  | .se => true
  | .balign => true
  | .align => true
  | .h264sps => true
  | .vp9key => true
  | .vp9props => true
  | .selftest => true

/-- The command a line assembles to, or none for an assembly error: "an operand outside these
forms" (R86). A keyword list is a non-empty set, so no keyword stands twice in it (DEDUCED, Log 14).
`SKIP n` is `RDBITS n`, and `AACCFG` alone is `AACCFG ch,sr,spf` (R87). -/
def assemble : AsmLine → Option Instr
  | .plain op => if op.takesNoOperand then some op else none
  | .rdbits n => if n.nonempty && decide (n.value < 128) then some (.rdbits n.value) else none
  | .skip n => if n.nonempty && decide (n.value < 128) then some (.rdbits n.value) else none
  | .aaccfgNone => some (.aaccfg 0)
  | .aaccfg list => if list ≠ [] ∧ list.Nodup then some (.aaccfg (aacMask list)) else none
  | .aaccfgAll => some (.aaccfg (aacMask [.ch, .sr, .spf]))

/-- "each line assembles to one CMD word" (R86). -/
def assembleWord (l : AsmLine) : Option Word := (assemble l).map encode

end Sys2Proof
end

