-- ==== Sys2Proof/Machine/State.lean ====
section
/-! DEFINITION. The state of the EGVLC unit (10_state.md), the turns of the agents around it
(00_scope.md R5), and the reasons a step can stop. -/

namespace Sys2Proof.Machine

/-- The over-read policy a command latches from CTRL.STRICT (10_state.md R23, 60_exceptions.md R232). -/
inductive Mode where
  | strict
  | lenient
deriving DecidableEq, Repr

/-- The error codes of 60_exceptions.md R231. The reserved codes 11..15 are "never written", so no
constructor stands for them. -/
inductive ErrCode where
  | none
  | illegal
  | input
  | absent
  | badWidth
  | marker
  | showExisting
  | notKeyframe
  | sync
  | color
  | range
deriving DecidableEq, Repr

/-- CTRL (10_state.md R23); its reserved bits 31:2 read as 0 and ignore writes. -/
structure Ctrl where
  strict : Bool
  ie : Bool
deriving DecidableEq, Repr

/-- The stored fields of STATUS (10_state.md R24). BUSY is `State.busy`; EXH and OVER are live. -/
structure Status where
  done : Bool
  ok : Bool
  valid : Bool
  err : ErrCode
  sticky : Bool
  drop : Bool
  outwCh : Bool
  outwSr : Bool
  outwSpf : Bool
deriving DecidableEq, Repr

/-- OUT_VP9 (10_state.md R30). -/
structure Vp9Out where
  bitDepth : BitVec 4
  colorSpace : BitVec 3
  ssx : Bool
  ssy : Bool
  fullSwing : Bool
  profile : BitVec 2
  key : Bool
deriving DecidableEq, Repr

/-- The hidden state that exists only while BUSY = 1 (10_state.md R34, 60_exceptions.md R232): the
latched command word and mode. `disturbed` is the model's own: an agent has written buffer bytes the
command may read since it was accepted (20_memory.md R70). -/
structure Running where
  cmd : Word
  mode : Mode
  disturbed : Bool
deriving DecidableEq, Repr

/-- What the host can do (70_reset_and_hazards.md R271). Register accesses carry their byte offset in
the window and their size in bytes. -/
inductive HostAction where
  | read (offset : BitVec 8) (bytes : Nat)
  | write (offset : BitVec 8) (bytes : Nat) (value : Word)
  | memWrite (addr : DWord) (value : Byte)
deriving DecidableEq, Repr

/-- One turn of one agent. A turn of the unit completes the running command, if there is one. -/
inductive Turn where
  | unit
  | host (action : HostAction)
  /-- an agent other than the host writes memory (R70) -/
  | agentWrite (addr : DWord) (value : Byte)
  /-- the memory answers a read of the running command with an error (R75) -/
  | memError
  /-- one clock cycle with rst = 1 (R260) -/
  | rst
deriving DecidableEq, Repr

/-- Memory as (address, byte) pairs: addresses strictly rising, and no byte equal to what an
unlisted address reads as (`Memory.wf` in Machine/Ops.lean). -/
abbrev Memory := List Host.Cell

/-- The state of the machine: the unit's registers (10_state.md R35), what it hides (R34), the memory
its port reaches (20_memory.md R60), and the turns the agents take next. -/
structure State where
  /-- the implementation parameters; fixed (00_scope.md R7) -/
  params : Params
  /-- CTRL (R23) -/
  ctrl : Ctrl
  /-- STATUS, the stored fields (R24) -/
  status : Status
  /-- LEN, the buffer's length in bytes (R25) -/
  len : Word
  /-- BASE, the address of buffer byte 0 (R26) -/
  base : DWord
  /-- POS, the stream index of the next bit (R21) -/
  pos : DWord
  /-- LENBITS, the session's length in bits (R21) -/
  lenbits : DWord
  /-- RES (R27) -/
  res : DWord
  /-- OUT_WIDTH (R28) -/
  outWidth : DWord
  /-- OUT_HEIGHT (R28) -/
  outHeight : DWord
  /-- OUT_DWIDTH (R29) -/
  outDwidth : Word
  /-- OUT_DHEIGHT (R29) -/
  outDheight : Word
  /-- OUT_VP9 (R30) -/
  outVp9 : Vp9Out
  /-- OUT_AAC_CH, bits 3:0 (R31) -/
  outAacCh : BitVec 4
  /-- OUT_AAC_SR, bits 23:0 (R31) -/
  outAacSr : BitVec 24
  /-- OUT_AAC_SPF, bits 10:0 (R31) -/
  outAacSpf : BitVec 11
  /-- the accepted command; none exists while idle (R34) -/
  running : Option Running
  /-- the memory behind the memory port (20_memory.md R60) -/
  mem : Memory
  /-- the model's own: what the agents do next, first turn first (Log 2) -/
  turns : List Turn
  /-- the model's own: the value the last register read gave back (R271; Log 8) -/
  readData : Word
  /-- the model's own: how many commands completed on drawn bytes (R70; Log 6) -/
  drawEpoch : Nat
deriving DecidableEq, Repr

/-- The unit has no fault: "The unit has no synchronous exception, trap or fault" (60_exceptions.md
R230), and 93_implementation_defined.md treats no row as `fault`. So no constructor. -/
inductive Fault where
deriving DecidableEq, Repr

/-- Why a step has no next state. -/
inductive Refusal where
  /-- raised by `exec` for a command that has no meaning yet (none is left); safe -/
  | notModelled (mnemonic : String)
  /-- raised by the register port for an access that is not an aligned 32-bit read or write: "outside
  the model (… treatment `refuse`)" (10_state.md R37); safe -/
  | registerAccessShape
  /-- raised when a memory-port read of the running command is answered with an error: "The model
  refuses such a run" (20_memory.md R75); safe -/
  | memoryPortError
  /-- raised for a host's write to a buffer byte the running command may read: "a forbidden host
  action has no move" (70_reset_and_hazards.md R271); safe -/
  | hostBufferWriteWhileBusy
deriving DecidableEq, Repr

/-- The STATUS fields after reset (70_reset_and_hazards.md R260). -/
def Status.reset : Status :=
  { done := false, ok := false, valid := false, err := .none, sticky := false, drop := false
    outwCh := false, outwSr := false, outwSpf := false }

/-- OUT_VP9 after reset: "0, all fields" (R260). -/
def Vp9Out.reset : Vp9Out :=
  { bitDepth := 0, colorSpace := 0, ssx := false, ssy := false, fullSwing := false, profile := 0
    key := false }

/-- The machine right after reset (70_reset_and_hazards.md R260), with the default parameters (R7),
nothing listed in memory, and no turn placed. -/
def State.reset : State :=
  { params := Params.default
    ctrl := { strict := true, ie := false }
    status := Status.reset
    len := 0, base := 0, pos := 0, lenbits := 0, res := 0
    outWidth := 0, outHeight := 0, outDwidth := 0, outDheight := 0
    outVp9 := Vp9Out.reset
    outAacCh := 0, outAacSr := 0, outAacSpf := 0
    running := none
    mem := [], turns := [], readData := 0, drawEpoch := 0 }

end Sys2Proof.Machine
end

