-- ==== Sys2Proof/Machine/Flags.lean ====
section
/-! DEFINITION. The live flags, the interrupt output, and the words the registers read as
(10_state.md R23, R24, R30, 60_exceptions.md R231, R235). -/

namespace Sys2Proof.Machine

/-- STATUS.BUSY: "1 from the acceptance of a command to its completion" (R24). -/
def State.busy (s : State) : Bool := s.running.isSome

/-- STATUS.EXH, live: `POS ≥ LENBITS` (R24). -/
def State.exh (s : State) : Bool := decide (s.lenbits.toNat ≤ s.pos.toNat)

/-- STATUS.OVER, live: `POS > LENBITS` (R24). -/
def State.over (s : State) : Bool := decide (s.lenbits.toNat < s.pos.toNat)

/-- The interrupt output: `irq = STATUS.DONE & CTRL.IE` (60_exceptions.md R235). -/
def State.irq (s : State) : Bool := s.status.done && s.ctrl.ie

/-- The value of an error code (60_exceptions.md R231). -/
def ErrCode.code : ErrCode → Nat
  | .none => 0
  | .illegal => 1
  | .input => 2
  | .absent => 3
  | .badWidth => 4
  | .marker => 5
  | .showExisting => 6
  | .notKeyframe => 7
  | .sync => 8
  | .color => 9
  | .range => 10

/-- A flag at bit `i` of a word. -/
def flagAt (b : Bool) (i : Nat) : Word := BitVec.ofNat 32 (b.toNat * 2 ^ i)

/-- CTRL as read: STRICT bit 0, IE bit 1 (R23). -/
def ctrlWord (c : Ctrl) : Word := flagAt c.strict 0 ||| flagAt c.ie 1

/-- STATUS as read, field by field (R24). -/
def statusWord (s : State) : Word :=
  flagAt s.busy 0 ||| flagAt s.status.done 1 ||| flagAt s.status.ok 2 |||
  flagAt s.status.valid 3 ||| BitVec.ofNat 32 (s.status.err.code * 2 ^ 4) |||
  flagAt s.exh 8 ||| flagAt s.over 9 ||| flagAt s.status.sticky 10 ||| flagAt s.status.drop 11 |||
  flagAt s.status.outwCh 12 ||| flagAt s.status.outwSr 13 ||| flagAt s.status.outwSpf 14

/-- OUT_VP9 as read: BITDEPTH 3:0, COLORSPACE 6:4, SSX 7, SSY 8, FULLSWING 9, PROFILE 11:10, KEY 12
(R30). -/
def vp9Word (v : Vp9Out) : Word :=
  BitVec.ofNat 32 v.bitDepth.toNat ||| BitVec.ofNat 32 (v.colorSpace.toNat * 2 ^ 4) |||
  flagAt v.ssx 7 ||| flagAt v.ssy 8 ||| flagAt v.fullSwing 9 |||
  BitVec.ofNat 32 (v.profile.toNat * 2 ^ 10) ||| flagAt v.key 12

end Sys2Proof.Machine
end

