-- ==== Sys2Proof/Machine/Ops.lean ====
section
/-! DEFINITION. The named operations over memory, the cursor registers, the register window and the
life of a command: acceptance (60_exceptions.md R232), completion (R233), dropped writes (R237),
reset (70_reset_and_hazards.md R260). The unit has no exception: "Trap entry and return do not
exist" (60_exceptions.md R238); what the spec has in its place is the one completion `complete`. -/

namespace Sys2Proof.Machine

/-! ### Memory -/

/-- What a byte that nothing has written reads as (DESIGN CHOICE, unsafe; Log 4). -/
def memDefault : Byte := 0

/-- The byte at an address. -/
def memRead : Memory → Nat → Byte
  | [], _ => memDefault
  | (a, b) :: m, x => if a = x then b else memRead m x

/-- Memory with one byte written, in canonical form again. -/
def memWrite : Memory → Nat → Byte → Memory
  | [], x, v => if v = memDefault then [] else [(x, v)]
  | (a, b) :: m, x, v =>
    if x < a then (if v = memDefault then (a, b) :: m else (x, v) :: (a, b) :: m)
    else if x = a then (if v = memDefault then m else (a, v) :: m)
    else (a, b) :: memWrite m x v

/-- The address lies above the bound, if there is one. -/
def aboveBound : Option Nat → Nat → Bool
  | none, _ => true
  | some l, a => decide (l < a)

/-- The canonical form above a bound: every address above `lo`, strictly rising, no byte equal to
`memDefault`. -/
def memWfAbove : Option Nat → Memory → Bool
  | _, [] => true
  | lo, (a, b) :: m =>
    aboveBound lo a && b != memDefault && memWfAbove (some a) m

/-- Memory is in canonical form. -/
def Memory.wf (m : Memory) : Bool := memWfAbove none m

/-! ### The buffer -/

/-- The running command has had its buffer bytes written by an agent (20_memory.md R70). -/
def State.disturbed (s : State) : Bool :=
  match s.running with
  | some r => r.disturbed
  | none => false

/-- The mode `m` of 40_cursor.md: the one latched at acceptance (60_exceptions.md R232). While idle
there is none, and CTRL.STRICT, which an acceptance would latch, stands for it (Log 10). -/
def State.mode (s : State) : Mode :=
  match s.running with
  | some r => r.mode
  | none => if s.ctrl.strict then .strict else .lenient

/-- What a command reads its bytes through: memory, BASE and ADDR_W, and whether the bytes are draws. -/
structure View where
  mem : Memory
  base : Nat
  addrW : Nat
  disturbed : Bool
  epoch : Nat
deriving DecidableEq, Repr

/-- The view of the running command; BASE "as it stands during the command" (00_scope.md R10). -/
def State.view (s : State) : View :=
  { mem := s.mem, base := s.base.toNat, addrW := s.params.addrW
    disturbed := s.disturbed, epoch := s.drawEpoch }

/-- The address of buffer byte `i`: `(BASE + i) mod 2^ADDR_W` (20_memory.md R61). -/
def bufAddr (v : View) (i : Nat) : Nat := (v.base + i) % 2 ^ v.addrW

/-- `BUF(i)` (00_scope.md R10), as the `serial`-th read of the command: the byte in memory, or a draw
of its own where the buffer was disturbed (20_memory.md R70). -/
def buf (v : View) (serial i : Nat) : Byte :=
  if v.disturbed then Config.freeByte v.epoch serial else memRead v.mem (bufAddr v i)

/-! ### The cursor -/

/-- The cursor of a command in progress (10_state.md R21, R34): POS, LENBITS and STICKY as numbers,
and how many buffer reads the command has made. -/
structure Cur where
  pos : Nat
  lenbits : Nat
  sticky : Bool
  serial : Nat
deriving DecidableEq, Repr

/-- `POS <- p` within a command. -/
def Cur.moveTo (c : Cur) (p : Nat) : Cur := { c with pos := p }

/-- `STICKY <- 1` within a command. -/
def Cur.markSticky (c : Cur) : Cur := { c with sticky := true }

/-- The cursor a primitive command continues (40_cursor.md R111). -/
def State.cursor (s : State) : Cur :=
  { pos := s.pos.toNat, lenbits := s.lenbits.toNat, sticky := s.status.sticky, serial := 0 }

/-- `POS <- 0; LENBITS <- 8 · zext_64(LEN); STICKY <- 0` (40_cursor.md R111, 42_h264_sps.md R160,
43_vp9.md R190). -/
def State.freshCursor (s : State) : Cur :=
  { pos := 0, lenbits := 8 * s.len.toNat, sticky := false, serial := 0 }

/-- POS, LENBITS and STICKY become architectural (60_exceptions.md R233 step 1); the register write
narrows to 64 bits (00_scope.md R10; Log 16). -/
def commitCursor (c : Cur) (s : State) : State :=
  { s with
    pos := BitVec.ofNat 64 c.pos
    lenbits := BitVec.ofNat 64 c.lenbits
    status := { s.status with sticky := c.sticky } }

/-! ### Completion -/

/-- The written mask of AACCFG: STATUS.OUTW_CH, OUTW_SR, OUTW_SPF (41_aac.md R144). -/
structure Outw where
  ch : Bool
  sr : Bool
  spf : Bool
deriving DecidableEq, Repr

/-- OUTW is "0 for every other command and for every failure" (60_exceptions.md R233). -/
def Outw.none : Outw := { ch := false, sr := false, spf := false }

/-- What a completion writes to STATUS (60_exceptions.md R233). -/
structure Completion where
  ok : Bool
  valid : Bool
  err : ErrCode
  outw : Outw
deriving DecidableEq, Repr

/-- OK ← 1, ERR ← NONE, and VALID as the command's rule says. -/
def succeeded (valid : Bool) : Completion :=
  { ok := true, valid := valid, err := .none, outw := Outw.none }

/-- `fail(code)`: OK ← 0, VALID ← 0, ERR ← code, OUTW ← 0 (60_exceptions.md R231, R233). -/
def failed (code : ErrCode) : Completion :=
  { ok := false, valid := false, err := code, outw := Outw.none }

/-- Completion, steps 2 to 6 (60_exceptions.md R233); step 1 has been applied to `s`. -/
def complete (k : Completion) (s : State) : State :=
  { s with
    running := none
    drawEpoch := s.drawEpoch + s.disturbed.toNat
    status := { s.status with
      done := true
      ok := k.ok
      valid := k.valid
      err := k.err
      outwCh := k.outw.ch
      outwSr := k.outw.sr
      outwSpf := k.outw.spf } }

/-- The completion of RDBITS, UE, SE and ALIGN (40_cursor.md R120): on ABSENT "RES = 0 and STICKY is
set", with the error code given; else RES holds the value and VALID = 1. -/
def completeRead (err : ErrCode) (r : Option DWord) (c : Cur) (s : State) : State :=
  match r with
  | none => complete (failed err) { commitCursor c.markSticky s with res := 0 }
  | some x => complete (succeeded true) { commitCursor c s with res := x }

/-- An illegal command word "completes with OK = 0, VALID = 0, ERR = ILLEGAL (1) and OUTW = 0. It
changes no other state" (30_encoding.md R83). -/
def completeIllegal (s : State) : State := complete (failed .illegal) s

/-! ### The register window -/

/-- Acceptance of a command word by an idle unit (60_exceptions.md R232). -/
def accept (w : Word) (s : State) : State :=
  { s with
    running := some { cmd := w, mode := if s.ctrl.strict then .strict else .lenient, disturbed := false }
    status := { s.status with done := false } }

/-- The low word of a 64-bit register (20_memory.md R65). -/
def loWord (x : DWord) : Word := x.extractLsb' 0 32

/-- The high word of a 64-bit register (20_memory.md R65). -/
def hiWord (x : DWord) : Word := x.extractLsb' 32 32

/-- Bits 63 down to ADDR_W of BASE "are hardwired to 0" (10_state.md R26). -/
def maskBase (p : Params) (x : DWord) : DWord := x &&& BitVec.ofNat 64 (2 ^ p.addrW - 1)

/-- The register map for reads, by offset (10_state.md R35); CMD and the reserved offsets read 0
(R36). -/
def regRead (s : State) (off : Nat) : Word :=
  match off with
  | 0x00 => ctrlWord s.ctrl
  | 0x08 => statusWord s
  | 0x0C => s.len
  | 0x10 => loWord s.base
  | 0x14 => hiWord s.base
  | 0x18 => loWord s.pos
  | 0x1C => hiWord s.pos
  | 0x20 => loWord s.lenbits
  | 0x24 => hiWord s.lenbits
  | 0x28 => loWord s.res
  | 0x2C => hiWord s.res
  | 0x30 => loWord s.outWidth
  | 0x34 => hiWord s.outWidth
  | 0x38 => loWord s.outHeight
  | 0x3C => hiWord s.outHeight
  | 0x40 => s.outDwidth
  | 0x44 => s.outDheight
  | 0x48 => vp9Word s.outVp9
  | 0x4C => s.outAacCh.setWidth 32
  | 0x50 => s.outAacSr.setWidth 32
  | 0x54 => s.outAacSpf.setWidth 32
  | _ => 0

/-- A host write is ignored and sets DROP (60_exceptions.md R237). -/
def setDrop (s : State) : State := { s with status := { s.status with drop := true } }

/-- A write to CMD, CTRL, LEN, BASE_LO or BASE_HI: taken while idle, dropped while BUSY = 1
(60_exceptions.md R237). -/
def unlessBusy (s : State) (taken : State) : State := if s.busy then setDrop s else taken

/-- Write 1 to clear DONE (bit 1) and DROP (bit 11); nothing else changes (10_state.md R24). -/
def statusW1c (v : Word) (s : State) : State :=
  { s with status := { s.status with
      done := s.status.done && !v.getLsbD 1
      drop := s.status.drop && !v.getLsbD 11 } }

/-- The register map for writes, by offset (10_state.md R35): a write to a read-only register or a
reserved offset is ignored and "does not set DROP" (R36). -/
def regWrite (off : Nat) (v : Word) (s : State) : State :=
  match off with
  | 0x00 => unlessBusy s { s with ctrl := { strict := v.getLsbD 0, ie := v.getLsbD 1 } }
  | 0x04 => unlessBusy s (accept v s)
  | 0x08 => statusW1c v s
  | 0x0C => unlessBusy s { s with len := v }
  | 0x10 => unlessBusy s { s with base := maskBase s.params (hiWord s.base ++ v) }
  | 0x14 => unlessBusy s { s with base := maskBase s.params (v ++ loWord s.base) }
  | _ => s

/-- The access is an aligned 32-bit one (10_state.md R37). -/
def alignedWord (off : BitVec 8) (bytes : Nat) : Bool :=
  decide (bytes = 4) && decide (off.toNat % 4 = 0)

/-! ### The buffer bytes a running command may read -/

/-- How many buffer bytes a command may read, from `BUF(0)` on: `LENBITS div 8` for a primitive
command, LEN for AACCFG and for the commands that start a session with `8·LEN` bits, none for the
commands that read no memory (20_memory.md R60, R70; 70_reset_and_hazards.md R264). -/
def mayReadBytes (i : Instr) (s : State) : Nat :=
  match i with
  | .nop => 0
  | .cinit => 0
  | .rdbits _ => s.lenbits.toNat / 8
  | .clz => s.lenbits.toNat / 8
  | .ue => s.lenbits.toNat / 8
  | .se => s.lenbits.toNat / 8
  | .balign => 0
  | .align => s.lenbits.toNat / 8
  | .aaccfg _ => s.len.toNat
  | .h264sps => s.len.toNat
  | .vp9key => s.len.toNat
  | .vp9props => s.len.toNat
  | .selftest => 0

/-- How many buffer bytes the running command may read; none while idle or for an illegal word. -/
def protectedBytes (s : State) : Nat :=
  match s.running with
  | none => 0
  | some r =>
    match decode r.cmd with
    | .ok i => mayReadBytes i s
    | .error _ => 0

/-- The address holds one of the bytes `BUF(0 .. n-1)` of the running command. -/
def State.guards (s : State) (addr : Nat) : Bool :=
  decide (addr < 2 ^ s.params.addrW) &&
  decide ((addr + 2 ^ s.params.addrW - s.base.toNat % 2 ^ s.params.addrW) % 2 ^ s.params.addrW
    < protectedBytes s)

/-- A byte of memory written from outside the unit. -/
def pokeMemory (addr : DWord) (b : Byte) (s : State) : State :=
  { s with mem := memWrite s.mem addr.toNat b }

/-- Every byte the running command reads becomes a draw (20_memory.md R70). -/
def disturb (s : State) : State :=
  { s with running := s.running.map fun r => { r with disturbed := true } }

/-! ### The turns of the agents around the unit -/

/-- One host interaction (70_reset_and_hazards.md R271). A read gives back the register value, during
BUSY the one from before the command (R269). -/
def hostAct (a : HostAction) (s : State) : Host.Outcome State Fault Refusal :=
  match a with
  | .read off bytes =>
    if alignedWord off bytes then .next { s with readData := regRead s off.toNat }
    else .refused .registerAccessShape
  | .write off bytes v =>
    if alignedWord off bytes then .next (regWrite off.toNat v s)
    else .refused .registerAccessShape
  | .memWrite addr b =>
    if s.guards addr.toNat then .refused .hostBufferWriteWhileBusy
    else .next (pokeMemory addr b s)

/-- Another agent writes a byte of memory; where the running command may read that byte, all its reads
become draws (20_memory.md R70). -/
def agentAct (addr : DWord) (b : Byte) (s : State) : State :=
  if s.guards addr.toNat then disturb (pokeMemory addr b s) else pokeMemory addr b s

/-- The memory answers with an error: refused where the running command may read memory
(20_memory.md R75); with no read outstanding there is nothing to answer. -/
def memErrorAct (s : State) : Host.Outcome State Fault Refusal :=
  if protectedBytes s = 0 then .next s else .refused .memoryPortError

/-- `rst`: every register takes its reset value and a running command is abandoned; "Reset does not
touch memory" (70_reset_and_hazards.md R260, R261). What is outside the unit stays. -/
def resetUnit (s : State) : State :=
  { State.reset with
    params := s.params
    mem := s.mem
    turns := s.turns
    readData := s.readData
    drawEpoch := s.drawEpoch }

end Sys2Proof.Machine
end

