-- ==== Sys2Proof/Machine/Operands.lean ====
section
/-! DEFINITION. How commands get their operands from the bit stream: the constant tables
(10_state.md R32, R33), the internal functions of the cursor (40_cursor.md R101 to R105), and the
element reads of the extraction commands (R106). -/

namespace Sys2Proof.Machine

/-! ### Constant tables -/

/-- LZ8, the leading zero bits of a byte, by range (10_state.md R32). -/
def lz8 (b : Byte) : Nat :=
  if b.toNat = 0x00 then 8
  else if b.toNat ≤ 0x01 then 7
  else if b.toNat ≤ 0x03 then 6
  else if b.toNat ≤ 0x07 then 5
  else if b.toNat ≤ 0x0F then 4
  else if b.toNat ≤ 0x1F then 3
  else if b.toNat ≤ 0x3F then 2
  else if b.toNat ≤ 0x7F then 1
  else 0

/-- FREQ, the 13 sample rates (10_state.md R33, 41_aac.md R141); none beyond index 12. -/
def freq (sfi : Nat) : Option Nat :=
  [96000, 88200, 64000, 48000, 44100, 32000, 24000, 22050, 16000, 12000, 11025, 8000, 7350][sfi]?

/-! ### Reads -/

/-- `StreamBit(k)`: bit `7 - (k mod 8)` of buffer byte `k div 8` (00_scope.md R9, R10). -/
def streamBit (v : View) (serial k : Nat) : Nat :=
  ((buf v serial (k / 8)).toNat / 2 ^ (7 - k % 8)) % 2

/-- `Σ_{i=0}^{n-1} StreamBit(p+i) · 2^(n-1-i)`: n bits, most significant first (00_scope.md R9). -/
def streamField (v : View) (serial p : Nat) : Nat → Nat
  | 0 => 0
  | n + 1 => 2 * streamField v serial p n + streamBit v (serial + n) (p + n)

/-- `ReadBits(n, m)` (40_cursor.md R101); none is ABSENT. -/
def readBits (v : View) (m : Mode) (n : Nat) (c : Cur) : Option Nat × Cur :=
  if n < 1 ∨ 64 < n then (none, c)
  else if c.lenbits ≤ c.pos then (none, c)
  else if n ≤ c.lenbits - c.pos then
    (some (streamField v c.serial c.pos n), { c with pos := c.pos + n, serial := c.serial + n })
  else
    match m with
    | .strict => (none, c)
    | .lenient =>
      let r := c.lenbits - c.pos
      (some (streamField v c.serial c.pos r * 2 ^ (n - r)),
        { c with pos := c.pos + n, serial := c.serial + r })

/-- The `while` loop of `CLZ()`: `left` bytes remain from byte `i` on, and `z` zeros have been counted
(40_cursor.md R102). Answers the count and the number of bytes read. -/
def clzBytes (v : View) (serial i z : Nat) : Nat → Nat × Nat
  | 0 => (z, 0)
  | left + 1 =>
    let b := buf v serial i
    if b ≠ 0 then (z + lz8 b, 1)
    else
      let r := clzBytes v (serial + 1) (i + 1) (z + 8) left
      (r.1, r.2 + 1)

/-- `CLZ()` (40_cursor.md R102): the count, and the cursor with its reads counted. POS stays. -/
def clz (v : View) (c : Cur) : Nat × Cur :=
  if c.lenbits ≤ c.pos then (0, c)
  else
    let i := c.pos / 8
    let s := c.pos % 8
    let b := buf v c.serial i &&& BitVec.ofNat 8 (0xFF / 2 ^ s)
    if b ≠ 0 then (lz8 b - s, { c with serial := c.serial + 1 })
    else
      let r := clzBytes v (c.serial + 1) (i + 1) (8 - s) (c.lenbits / 8 - (i + 1))
      (r.1, { c with serial := c.serial + 1 + r.2 })

/-- `UE(m)` (40_cursor.md R103, 90_conflicts.md C1): skip the zero prefix, read z + 1 bits. On ABSENT
the strict policy moves POS back, the lenient one leaves it after the zeros. -/
def ue (v : View) (m : Mode) (c : Cur) : Option Nat × Cur :=
  let z := (clz v c).1
  match readBits v m (z + 1) ((clz v c).2.moveTo (c.pos + z)) with
  | (none, c') =>
    match m with
    | .strict => (none, c'.moveTo c.pos)
    | .lenient => (none, c')
  | (some x, c') => (some (if 0 < x then x - 1 else 0), c')

/-- The signed value of a codeNum: `-(u/2)` if even, `(u+1)/2` if odd (30_encoding.md R92). -/
def seValue (u : Nat) : Int :=
  if u % 2 = 0 then -((u / 2 : Nat) : Int) else (((u + 1) / 2 : Nat) : Int)

/-- `SE(m)` (40_cursor.md R104). -/
def se (v : View) (m : Mode) (c : Cur) : Option Int × Cur :=
  match ue v m c with
  | (none, c') => (none, c')
  | (some u, c') => (some (seValue u), c')

/-- `Align(m)` (40_cursor.md R105): the number of bits skipped. -/
def alignTo (v : View) (m : Mode) (c : Cur) : Option Nat × Cur :=
  let a := c.pos % 8
  if a = 0 then (some 0, c)
  else
    match readBits v m (8 - a) c with
    | (none, c') => (none, c')
    | (some _, c') => (some (8 - a), c')

/-! ### Element reads -/

/-- What an extraction command's walk computes: a value and the cursor, or `fail(code)` with the
cursor where it failed (60_exceptions.md R231, R233). -/
abbrev Walk (α : Type) := EStateM ErrCode Cur α

/-- `elem(r)` (40_cursor.md R106): an ABSENT element sets STICKY, fails under the strict policy, and
reads as 0 under the lenient one. -/
def elem {α : Type} (zero : α) (m : Mode) (read : Cur → Option α × Cur) : Walk α := fun c =>
  match read c with
  | (some x, c') => .ok x c'
  | (none, c') =>
    match m with
    | .strict => .error .absent c'.markSticky
    | .lenient => .ok zero c'.markSticky

/-- `rd(n)` (R106). -/
def rd (v : View) (m : Mode) (n : Nat) : Walk Nat := elem 0 m (readBits v m n)

/-- `ue()` (R106). -/
def rdUe (v : View) (m : Mode) : Walk Nat := elem 0 m (ue v m)

/-- `se()` (R106). -/
def rdSe (v : View) (m : Mode) : Walk Int := elem 0 m (se v m)

/-- `align()` (R106). -/
def rdAlign (v : View) (m : Mode) : Walk Nat := elem 0 m (alignTo v m)

/-- `fail(code)` (60_exceptions.md R231). -/
def fail {α : Type} (code : ErrCode) : Walk α := fun c => .error code c

/-- Every further element of the walk is ABSENT and changes no state (40_cursor.md R107): `POS ≥
LENBITS` with STICKY = 1, under the lenient policy. -/
def spent (m : Mode) (c : Cur) : Bool :=
  decide (m = .lenient) && decide (c.lenbits ≤ c.pos) && c.sticky

/-- `repeat n: se()`, stopped "at the first iteration that finds POS ≥ LENBITS with STICKY = 1"
(42_h264_sps.md R169, D16). -/
def repeatSe (v : View) (m : Mode) : Nat → Walk Unit
  | 0 => pure ()
  | n + 1 => fun c =>
    if spent m c then .ok () c
    else (do
      let _ ← rdSe v m
      repeatSe v m n) c

end Sys2Proof.Machine
end

