-- ==== Sys2Proof/Machine/Aac.lean ====
section
/-! DEFINITION. AACCFG, the AudioSpecificConfig extraction (41_aac.md R140 to R146). It reads buffer
bytes by index and never uses the cursor. -/

namespace Sys2Proof.Machine

/-- The fields AACCFG extracts; an ABSENT sample rate is none (R140). -/
structure AacFields where
  ch : Nat
  sr : Option Nat
  fl : Nat
deriving DecidableEq, Repr

/-- The sampling-frequency index, stream bits 5..8 (R142). -/
def aacSfi (b0 b1 : Byte) : Nat := (b0.toNat % 8) * 2 + b1.toNat / 2 ^ 7

/-- Channels and frame-length flag at bits 9..12 and 13 (R142), with the sample rate given. -/
def aacShortFields (b1 : Byte) (sr : Option Nat) : AacFields :=
  { ch := b1.toNat / 2 ^ 3 % 2 ^ 4, sr := sr, fl := b1.toNat / 2 ^ 2 % 2 }

/-- The explicit-rate layout (R143): the rate at bits 9..32, channels at 33..36, the flag at bit 37. -/
def aacLongFields (b1 b2 b3 b4 : Byte) : AacFields :=
  { ch := b4.toNat / 2 ^ 3 % 2 ^ 4
    sr := some (b1.toNat % 2 ^ 7 * 2 ^ 17 + b2.toNat * 2 ^ 9 + b3.toNat * 2 + b4.toNat / 2 ^ 7)
    fl := b4.toNat / 2 ^ 2 % 2 }

/-- The fields of the AudioSpecificConfig in a buffer of `len` bytes, `len ≥ 2` (R140). -/
def aacFields (v : View) (len : Nat) : AacFields :=
  let b0 := buf v 0 0
  let b1 := buf v 1 1
  let sfi := aacSfi b0 b1
  if sfi < 13 then aacShortFields b1 (freq sfi)
  else if sfi = 15 ∧ 4 < len then aacLongFields b1 (buf v 2 2) (buf v 3 3) (buf v 4 4)
  else aacShortFields b1 none

/-- Samples per frame: "960 if set, else 1024" (R144). -/
def aacSpf (fl : Nat) : Nat := if fl = 1 then 960 else 1024

/-- The mask of the outputs written: each one REQ asks for, the sample rate only where it resolved
(R144). -/
def aacWritten (req : BitVec 3) (f : AacFields) : Outw :=
  { ch := req.getLsbD 0, sr := req.getLsbD 1 && f.sr.isSome, spf := req.getLsbD 2 }

/-- The output registers the mask names are written; the others keep their values (R144). -/
def writeAac (w : Outw) (f : AacFields) (s : State) : State :=
  { s with
    outAacCh := if w.ch then BitVec.ofNat 4 f.ch else s.outAacCh
    outAacSr := if w.sr then BitVec.ofNat 24 (f.sr.getD 0) else s.outAacSr
    outAacSpf := if w.spf then BitVec.ofNat 11 (aacSpf f.fl) else s.outAacSpf }

/-- AACCFG (R140); it fails only when LEN < 2 (R146). -/
def execAaccfg (req : BitVec 3) (s : State) : Host.Outcome State Fault Refusal :=
  if s.len.toNat < 2 then .next (complete (failed .input) s)
  else
    let f := aacFields s.view s.len.toNat
    let w := aacWritten req f
    .next (complete { succeeded false with outw := w } (writeAac w f s))

end Sys2Proof.Machine
end

