-- ==== Sys2Proof/Machine/H264.lean ====
section
/-! DEFINITION. H264SPS, the SPS frame-size extraction (42_h264_sps.md R160 to R169). Each stage is
the stage of the same name in the spec. -/

namespace Sys2Proof.Machine

/-- Stage 1, header; answers the profile (R161). -/
def stageHeader (v : View) (m : Mode) : Walk Nat := do
  let _ ← rd v m 8
  let profile ← rd v m 8
  let _ ← rd v m 16
  let _ ← rdUe v m
  return profile

/-- The set P, "profiles carrying scaling-list syntax" (R162). -/
def highProfiles : List Nat := [44, 83, 86, 100, 110, 118, 122, 128, 244]

/-- Entries of scaling list `i`: 16 for lists 0..5, SL_LARGE from 6 on (R163). -/
def listEntries (slLarge i : Nat) : Nat := if i < 6 then 16 else slLarge

/-- The scaling lists from list `i` on, `left` of them (R163). -/
def scalingListsFrom (v : View) (m : Mode) (slLarge i : Nat) : Nat → Walk Unit
  | 0 => pure ()
  | left + 1 => do
    let present ← rd v m 1
    if present = 1 then repeatSe v m (listEntries slLarge i)
    scalingListsFrom v m slLarge (i + 1) left

/-- Stage 2b, the scaling lists: 12 where chroma_format_idc is 3, else 8 (R163). -/
def stageScalingLists (v : View) (m : Mode) (slLarge cf : Nat) : Walk Unit :=
  scalingListsFrom v m slLarge 0 (if cf = 3 then 12 else 8)

/-- Stage 2, the high-profile fields (R162). -/
def stageHighProfile (v : View) (m : Mode) (slLarge profile : Nat) : Walk Unit := do
  if profile ∈ highProfiles then
    let cf ← rdUe v m
    if cf = 3 then
      let _ ← rd v m 1
    let _ ← rdUe v m
    let _ ← rdUe v m
    let _ ← rd v m 1
    let matrix ← rd v m 1
    if matrix = 1 then stageScalingLists v m slLarge cf

/-- Stage 3, picture order count (R164). -/
def stagePoc (v : View) (m : Mode) : Walk Unit := do
  let _ ← rdUe v m
  let pocType ← rdUe v m
  if pocType = 0 then
    let _ ← rdUe v m
  else if pocType = 1 then
    let _ ← rd v m 1
    let _ ← rdSe v m
    let _ ← rdSe v m
    let n ← rdUe v m
    repeatSe v m n

/-- The values stage 4 reads (R165). -/
structure Geometry where
  wm1 : Nat
  hm1 : Nat
  fmo : Nat
  cl : Nat
  cr : Nat
  ct : Nat
  cb : Nat
deriving DecidableEq, Repr

/-- Stage 4, geometry (R165). -/
def stageGeometry (v : View) (m : Mode) : Walk Geometry := do
  let _ ← rdUe v m
  let _ ← rd v m 1
  let wm1 ← rdUe v m
  let hm1 ← rdUe v m
  let fmo ← rd v m 1
  if fmo = 0 then
    let _ ← rd v m 1
  let _ ← rd v m 1
  let crop ← rd v m 1
  if crop = 1 then
    let cl ← rdUe v m
    let cr ← rdUe v m
    let ct ← rdUe v m
    let cb ← rdUe v m
    return { wm1 := wm1, hm1 := hm1, fmo := fmo, cl := cl, cr := cr, ct := ct, cb := cb }
  else
    return { wm1 := wm1, hm1 := hm1, fmo := fmo, cl := 0, cr := 0, ct := 0, cb := 0 }

/-- `W = (wm1 + 1) · 16 − 2 · (cl + cr)`, exact (R166). -/
def Geometry.width (g : Geometry) : Int := ((g.wm1 : Int) + 1) * 16 - 2 * ((g.cl : Int) + g.cr)

/-- `H = (2 − fmo) · (hm1 + 1) · 16 − 2 · (ct + cb)`, exact (R166). -/
def Geometry.height (g : Geometry) : Int :=
  (2 - (g.fmo : Int)) * ((g.hm1 : Int) + 1) * 16 - 2 * ((g.ct : Int) + g.cb)

/-- The derived size lies in `[0, 2^63)` (R167). -/
def sizeInRange (x : Int) : Bool := decide (0 ≤ x) && decide (x < 2 ^ 63)

/-- The range check of the strict policy; the lenient one has none (R167). -/
def checkRange (m : Mode) (g : Geometry) : Walk Unit :=
  match m with
  | .strict => if sizeInRange g.width && sizeInRange g.height then pure () else fail .range
  | .lenient => pure ()

/-- The walk of H264SPS after the cursor starts (R160). -/
def h264Walk (v : View) (m : Mode) (slLarge : Nat) : Walk Geometry := do
  let profile ← stageHeader v m
  stageHighProfile v m slLarge profile
  stagePoc v m
  let g ← stageGeometry v m
  checkRange m g
  return g

/-- H264SPS (R160): INPUT before the cursor starts; on success OUT_WIDTH and OUT_HEIGHT get `trunc_64`
of the derived size (R167, R168). -/
def execH264sps (s : State) : Host.Outcome State Fault Refusal :=
  if s.len.toNat = 0 then .next (complete (failed .input) s)
  else
    match h264Walk s.view s.mode s.params.slLarge s.freshCursor with
    | .error code c => .next (complete (failed code) (commitCursor c s))
    | .ok g c =>
      .next (complete (succeeded false) { commitCursor c s with
        outWidth := BitVec.ofInt 64 g.width
        outHeight := BitVec.ofInt 64 g.height })

end Sys2Proof.Machine
end

