-- ==== Sys2Proof/Machine/Primitive.lean ====
section
/-! DEFINITION. The primitive commands (40_cursor.md R110 to R120). -/

namespace Sys2Proof.Machine

/-- NOP: "it changes no state except the STATUS fields of a completion" (R110). -/
def execNop (s : State) : Host.Outcome State Fault Refusal :=
  .next (complete (succeeded false) s)

/-- CINIT: starts a cursor session on the current buffer (R111). -/
def execCinit (s : State) : Host.Outcome State Fault Refusal :=
  .next (complete (succeeded false) (commitCursor s.freshCursor s))

/-- RDBITS n: reads n bits; a width outside 1..64 is BADWIDTH, which sets STICKY (R112). -/
def execRdbits (n : Nat) (s : State) : Host.Outcome State Fault Refusal :=
  if n < 1 ∨ 64 < n then .next (completeRead .badWidth none s.cursor s)
  else
    let r := readBits s.view s.mode n s.cursor
    .next (completeRead .absent (r.1.map (BitVec.ofNat 64)) r.2 s)

/-- CLZ: RES gets the count; POS is unchanged (R113). -/
def execClz (s : State) : Host.Outcome State Fault Refusal :=
  .next (complete (succeeded true) { s with res := BitVec.ofNat 64 (clz s.view s.cursor).1 })

/-- UE: decodes one unsigned Exp-Golomb code (R114). -/
def execUe (s : State) : Host.Outcome State Fault Refusal :=
  let r := ue s.view s.mode s.cursor
  .next (completeRead .absent (r.1.map (BitVec.ofNat 64)) r.2 s)

/-- SE: decodes one signed Exp-Golomb code; RES gets `trunc_64` of it (R115). -/
def execSe (s : State) : Host.Outcome State Fault Refusal :=
  let r := se s.view s.mode s.cursor
  .next (completeRead .absent (r.1.map (BitVec.ofInt 64)) r.2 s)

/-- BALIGN: RES gets `POS mod 8`; POS is unchanged (R116). -/
def execBalign (s : State) : Host.Outcome State Fault Refusal :=
  .next (complete (succeeded true) { s with res := BitVec.ofNat 64 (s.pos.toNat % 8) })

/-- ALIGN: skips to the next byte boundary; RES gets the number of bits skipped (R117). -/
def execAlign (s : State) : Host.Outcome State Fault Refusal :=
  let r := alignTo s.view s.mode s.cursor
  .next (completeRead .absent (r.1.map (BitVec.ofNat 64)) r.2 s)

/-- The constant bytes `[0x01, 0xFF]` of the self-test fixture (R118). -/
def fixtureView : View :=
  { mem := [(0, 0x01), (1, 0xFF)], base := 0, addrW := 64, disturbed := false, epoch := 0 }

/-- The private cursor of the self-test: "position 0, length 16 bits" (R118). -/
def fixtureCursor : Cur := { pos := 0, lenbits := 16, sticky := false, serial := 0 }

/-- SELFTEST: runs UE on a private cursor over the fixture and puts its result, which the rule says is
254, into RES; POS, LENBITS and STICKY are unchanged (R118; Log 17). -/
def execSelftest (s : State) : Host.Outcome State Fault Refusal :=
  .next (complete (succeeded true)
    { s with res := BitVec.ofNat 64 ((ue fixtureView s.mode fixtureCursor).1.getD 0) })

end Sys2Proof.Machine
end

