-- ==== Sys2Proof/Machine/Vp9.lean ====
section
/-! DEFINITION. VP9KEY and VP9PROPS, the VP9 uncompressed-header extraction (43_vp9.md R190 to R200).
Each stage is the stage of the same name in the spec. -/

namespace Sys2Proof.Machine

/-- The shared preamble after the cursor starts; answers the profile and frame_type (R190). -/
def vp9Preamble (v : View) (m : Mode) : Walk (Nat × Nat) := do
  let marker ← rd v m 2
  if marker ≠ 2 then fail .marker
  let low ← rd v m 1
  let high ← rd v m 1
  let profile := 2 * high + low
  if profile = 3 then
    let _ ← rd v m 1
  let showExisting ← rd v m 1
  if showExisting = 1 then fail .showExisting
  let ft ← rd v m 1
  return (profile, ft)

/-- The keyframe requirement and the sync code (R193). -/
def stageKeyframeSync (v : View) (m : Mode) (ft : Nat) : Walk Unit := do
  if ft ≠ 0 then fail .notKeyframe
  let _ ← rd v m 1
  let _ ← rd v m 1
  let sync ← rd v m 24
  if sync ≠ 0x498342 then fail .sync

/-- Bit depth (R194). -/
def stageBitdepth (v : View) (m : Mode) (profile : Nat) : Walk Nat := do
  if 2 ≤ profile then
    let b ← rd v m 1
    return (if b = 1 then 12 else 10)
  else
    return 8

/-- The colour configuration: full swing and the two subsampling flags (R196, R197). -/
structure ColorConfig where
  fs : Bool
  ssx : Bool
  ssy : Bool
deriving DecidableEq, Repr

/-- The colour configuration when `cs ≠ 7` (R196). -/
def stageColorYuv (v : View) (m : Mode) (profile : Nat) : Walk ColorConfig := do
  let fs ← rd v m 1
  if profile = 1 ∨ profile = 3 then
    let ssx ← rd v m 1
    let ssy ← rd v m 1
    let _ ← rd v m 1
    return { fs := decide (fs = 1), ssx := decide (ssx = 1), ssy := decide (ssy = 1) }
  else
    return { fs := decide (fs = 1), ssx := true, ssy := true }

/-- The colour configuration when `cs = 7`, sRGB (R197). -/
def stageColorSrgb (v : View) (m : Mode) (srgbFullSwing : Bool) (profile : Nat) :
    Walk ColorConfig := do
  let _ ← rd v m 1
  if profile ≠ 1 ∧ profile ≠ 3 then fail .color
  return { fs := srgbFullSwing, ssx := false, ssy := false }

/-- The colour configuration of the colour space `cs` (R196, R197). -/
def stageColor (v : View) (m : Mode) (srgbFullSwing : Bool) (profile cs : Nat) : Walk ColorConfig :=
  if cs ≠ 7 then stageColorYuv v m profile else stageColorSrgb v m srgbFullSwing profile

/-- The coded and the display size (R199). -/
structure Vp9Size where
  w : Nat
  h : Nat
  dw : Nat
  dh : Nat
deriving DecidableEq, Repr

/-- Frame size and render size (R199). -/
def stageSize (v : View) (m : Mode) : Walk Vp9Size := do
  let w ← rd v m 16
  let h ← rd v m 16
  let differs ← rd v m 1
  if differs = 1 then
    let dw ← rd v m 16
    let dh ← rd v m 16
    return { w := w + 1, h := h + 1, dw := dw + 1, dh := dh + 1 }
  else
    return { w := w + 1, h := h + 1, dw := w + 1, dh := h + 1 }

/-- Everything VP9PROPS extracts (R192). -/
structure Vp9Props where
  profile : Nat
  bd : Nat
  cs : Nat
  color : ColorConfig
  size : Vp9Size
deriving DecidableEq, Repr

/-- The walk of VP9PROPS after the cursor starts (R192). -/
def vp9PropsWalk (v : View) (m : Mode) (srgbFullSwing : Bool) : Walk Vp9Props := do
  let (profile, ft) ← vp9Preamble v m
  stageKeyframeSync v m ft
  let bd ← stageBitdepth v m profile
  let cs ← rd v m 3
  let color ← stageColor v m srgbFullSwing profile cs
  let _ ← rdAlign v m
  let size ← stageSize v m
  return { profile := profile, bd := bd, cs := cs, color := color, size := size }

/-- The registers a successful VP9PROPS writes together (R200). -/
def writeVp9Props (p : Vp9Props) (s : State) : State :=
  { s with
    outWidth := BitVec.ofNat 64 p.size.w
    outHeight := BitVec.ofNat 64 p.size.h
    outDwidth := BitVec.ofNat 32 p.size.dw
    outDheight := BitVec.ofNat 32 p.size.dh
    outVp9 :=
      { bitDepth := BitVec.ofNat 4 p.bd
        colorSpace := BitVec.ofNat 3 p.cs
        ssx := p.color.ssx
        ssy := p.color.ssy
        fullSwing := p.color.fs
        profile := BitVec.ofNat 2 p.profile
        key := true } }

/-- VP9KEY (R191): on success only OUT_VP9.KEY is written, with `frame_type == 0`. -/
def execVp9key (s : State) : Host.Outcome State Fault Refusal :=
  if s.len.toNat = 0 then .next (complete (failed .input) s)
  else
    match vp9Preamble s.view s.mode s.freshCursor with
    | .error code c => .next (complete (failed code) (commitCursor c s))
    | .ok (_, ft) c =>
      .next (complete (succeeded false) { commitCursor c s with
        outVp9 := { s.outVp9 with key := decide (ft = 0) } })

/-- VP9PROPS (R192): on success the registers of R200 are written; on any failure none is. -/
def execVp9props (s : State) : Host.Outcome State Fault Refusal :=
  if s.len.toNat = 0 then .next (complete (failed .input) s)
  else
    match vp9PropsWalk s.view s.mode s.params.srgbFullSwing s.freshCursor with
    | .error code c => .next (complete (failed code) (commitCursor c s))
    | .ok p c => .next (complete (succeeded false) (writeVp9Props p (commitCursor c s)))

end Sys2Proof.Machine
end

