-- ==== Sys2Proof/Machine/Dispatch.lean ====
section
/-! DEFINITION. The one dispatch from commands to their meanings: what the completion of a command
does (60_exceptions.md R233). -/

namespace Sys2Proof.Machine

def exec (i : Instr) (s : State) : Host.Outcome State Fault Refusal :=
  match i with
  | .nop => Sys2Proof.Machine.execNop s
  | .cinit => Sys2Proof.Machine.execCinit s
  | .rdbits n => Sys2Proof.Machine.execRdbits n s
  | .clz => Sys2Proof.Machine.execClz s
  | .ue => Sys2Proof.Machine.execUe s
  | .se => Sys2Proof.Machine.execSe s
  | .balign => Sys2Proof.Machine.execBalign s
  | .align => Sys2Proof.Machine.execAlign s
  | .aaccfg req => Sys2Proof.Machine.execAaccfg req s
  | .h264sps => Sys2Proof.Machine.execH264sps s
  | .vp9key => Sys2Proof.Machine.execVp9key s
  | .vp9props => Sys2Proof.Machine.execVp9props s
  | .selftest => Sys2Proof.Machine.execSelftest s

end Sys2Proof.Machine
end

