-- ==== Sys2Proof/Machine/Turns.lean ====
section
/-! DEFINITION. What each agent's turn does, the unit's own among them, and the host program's lines
as turns (00_scope.md R5, 30_encoding.md R88, 60_exceptions.md R232, R233, R246). -/

namespace Sys2Proof.Machine

/-- The completion of the latched word: the command it decodes to, or ILLEGAL (30_encoding.md R83). -/
def execWord (w : Word) (s : State) : Host.Outcome State Fault Refusal :=
  match decode w with
  | .ok i => exec i s
  | .error _ => .next (completeIllegal s)

/-- The unit's turn: the running command completes, "a later step than acceptance"
(70_reset_and_hazards.md R267); an idle unit does nothing. -/
def unitTurn (s : State) : Host.Outcome State Fault Refusal :=
  match s.running with
  | none => .next s
  | some r => execWord r.cmd s

/-- One turn of one agent. -/
def takeTurn (t : Turn) (s : State) : Host.Outcome State Fault Refusal :=
  match t with
  | .unit => unitTurn s
  | .host a => hostAct a s
  | .agentWrite addr b => .next (agentAct addr b s)
  | .memError => memErrorAct s
  | .rst => .next (resetUnit s)

/-- Whose turn is next: the first of the list; the unit's own when nobody else acts (R267: every
command completes; Log 2). -/
def nextTurn (s : State) : Turn := s.turns.head?.getD .unit

/-- The state with the turn now taken off the list. -/
def popTurn (s : State) : State := { s with turns := s.turns.tail }

/-- The unit's turn comes next. -/
def unitFirst (ts : List Turn) : List Turn :=
  match ts with
  | [] => []
  | t :: rest => .unit :: t :: rest

/-- The turns of one line of a host program (30_encoding.md R88), none for a line that does not
assemble. WAIT lets the unit complete, reads STATUS and clears DONE (Log 15); BUF's bytes stand at
`(base + i) mod 2^ADDR_W` (20_memory.md R61). -/
def HostLine.turns (p : Params) : HostLine → Option (List Turn)
  | .wr reg v => some [.host (.write reg 4 v)]
  | .cmd line => (assembleWord line).map fun w => [.host (.write 0x04 4 w)]
  | .wait => some [.unit, .host (.read 0x08 4), .host (.write 0x08 4 0x2)]
  | .rd reg => some [.host (.read reg 4)]
  | .buf base bytes =>
    some (bytes.mapIdx fun i b =>
      .host (.memWrite (BitVec.ofNat 64 ((base.toNat + i) % 2 ^ p.addrW)) b))

/-- The turns of a host program, line by line. -/
def programTurns (p : Params) (lines : List HostLine) : Option (List Turn) :=
  (lines.mapM (HostLine.turns p)).map List.flatten

end Sys2Proof.Machine
end

