-- ==== Sys2Proof/Machine/Step.lean ====
section
/-! DEFINITION. One step of the machine: the next turn is taken (00_scope.md R5, 60_exceptions.md
R246). -/

namespace Sys2Proof.Machine

/-- One step: the next turn comes off the list and is taken. -/
def step (s : State) : Host.Outcome State Fault Refusal := takeTurn (nextTurn s) (popTurn s)

/-- `s` with the command word `w` accepted (60_exceptions.md R232) and the unit's turn next, so that
the next step runs exactly it. It stands for the host's write of the word to CMD (Log 1). -/
def State.withFetchWord (s : State) (nbits w : Nat) : State :=
  { accept (tableWord nbits w) s with turns := unitFirst s.turns }

end Sys2Proof.Machine
end

