-- ==== Sys2Proof/Machine/Formats.lean ====
section
/-! DEFINITION. The bitstream formats the commands decode, as writers: the codes of 30_encoding.md R89
to R92 and the header syntaxes of 42_h264_sps.md and 43_vp9.md as lists of elements, in the order the
unit walks them, and what a buffer cut inside such a list leaves of it (40_cursor.md R101, R103, R106).
The machine never uses them; statements say that the machine reads what they write. -/

namespace Sys2Proof

/-- u(n): n bits, most significant first (R89). -/
def uBits : Nat → Nat → List Bool
  | 0, _ => []
  | n + 1, v => v.testBit n :: uBits n v

/-- ue(v): z zero bits, a one bit, z information bits; the codeNum is `2^z - 1 + info` (R90). -/
def ueBits (u : Nat) : List Bool :=
  let z := Nat.log2 (u + 1)
  List.replicate z false ++ true :: uBits z (u + 1 - 2 ^ z)

/-- The unit decodes codeNums up to `2^64 - 2` (R91). -/
def ueLegal (u : Nat) : Bool := decide (u ≤ 2 ^ 64 - 2)

/-- The codeNum of a signed value: `0, 1, -1, 2, -2, …` for `0, 1, 2, 3, 4, …` (R92). -/
def seCodeNum (k : Int) : Nat := if 0 < k then 2 * k.toNat - 1 else 2 * (-k).toNat

/-- se(v) (R92). -/
def seBits (k : Int) : List Bool := ueBits (seCodeNum k)

/-- The values of decodable se(v) codes (R92). -/
def seLegal (k : Int) : Bool := decide (-(2 ^ 63 - 1) ≤ k) && decide (k ≤ 2 ^ 63 - 1)

/-- One element of a header: a field u(n), given by its bits, or a code ue(v). A code se(v) is the ue(v)
code of its codeNum (30_encoding.md R89 to R92). -/
inductive Element where
  | u (bits : List Bool)
  | ue (codeNum : Nat)
deriving DecidableEq, Repr

/-- se(v) (R92). -/
def Element.se (k : Int) : Element := .ue (seCodeNum k)

/-- One bit. -/
def Element.flag (b : Bool) : Element := .u [b]

/-- The bits of an element. -/
def Element.bits : Element → List Bool
  | .u bs => bs
  | .ue n => ueBits n

/-- The bits of a list of elements, one after the other. -/
def bitsOf (es : List Element) : List Bool := es.flatMap Element.bits

/-! ### A buffer that ends inside a list of elements

`left` bits of the buffer remain where the list begins. -/

/-- How many of an element's bits must be there for the lenient policy to read it: one of a field
(40_cursor.md R101), the zeros and the one bit of a code (R103). -/
def Element.needs : Element → Nat
  | .u _ => 1
  | .ue n => Nat.log2 (n + 1) + 1

/-- Where the strict policy fails, ABSENT: in front of the first element that is not whole (R101, R103,
R106). -/
def strictStop : Nat → List Element → Nat
  | _, [] => 0
  | left, e :: es =>
    if e.bits.length ≤ left then e.bits.length + strictStop (left - e.bits.length) es else 0

/-- Where the lenient policy ends: after an element that it reads zero-filled, past the end perhaps, or
at the end, where an element is absent (R101, R103, R107). -/
def lenientStop : Nat → List Element → Nat
  | _, [] => 0
  | left, e :: es =>
    if left < e.needs then left
    else e.bits.length +
      if e.bits.length ≤ left then lenientStop (left - e.bits.length) es else 0

/-- Some element is absent under the lenient policy, so that STICKY is set (R106). -/
def absentIn : Nat → List Element → Bool
  | _, [] => false
  | left, e :: es => decide (left < e.needs) || absentIn (left - e.bits.length) es

/-- What the lenient policy reads of a field of n bits that holds `x`, of which `left` are there: the
bits left, zero-filled, and 0 where it is absent (R101, R106). -/
def cutField (n left x : Nat) : Nat := x / 2 ^ (n - left) * 2 ^ (n - left)

/-- What the lenient policy reads of the code of codeNum `x` (R103): the z + 1 bits after the zeros,
zero-filled, minus 1, and 0 where it is absent (R106). -/
def cutCode (left x : Nat) : Nat :=
  let z := Nat.log2 (x + 1)
  if left ≤ z then 0 else cutField (z + 1) (left - z) (x + 1) - 1

/-- The high-profile fields of an SPS (42_h264_sps.md R162, R163). -/
structure SpsHigh where
  cf : Nat
  separatePlane : Bool
  bdLuma : Nat
  bdChroma : Nat
  qpprime : Bool
  lists : Option (List (Option (List Int)))
deriving DecidableEq, Repr

/-- The picture-order-count fields (R164). -/
inductive SpsPoc where
  | type0 (log2Lsb : Nat)
  | type1 (alwaysZero : Bool) (nonRef topToBottom : Int) (offsets : List Int)
  | other (pocType : Nat)
deriving DecidableEq, Repr

/-- The crop offsets (R165). -/
structure SpsCrop where
  cl : Nat
  cr : Nat
  ct : Nat
  cb : Nat
deriving DecidableEq, Repr

/-- A sequence parameter set as far as the unit reads it (R161 to R165). `high` stands in the stream
only for a profile of the set P, `mbaff` only where `fmo` is 0. -/
structure Sps where
  nal : Nat
  profile : Nat
  flagsLevel : Nat
  spsId : Nat
  high : SpsHigh
  log2FrameNum : Nat
  poc : SpsPoc
  numRef : Nat
  gaps : Bool
  wm1 : Nat
  hm1 : Nat
  fmo : Bool
  mbaff : Bool
  direct : Bool
  crop : Option SpsCrop
deriving DecidableEq, Repr

/-- One scaling list: its presence flag, and its entries (R163). -/
def scalingListElements : Option (List Int) → List Element
  | none => [.flag false]
  | some ds => .flag true :: ds.map .se

/-- Stage 2 (R162, R163). -/
def SpsHigh.elements (h : SpsHigh) : List Element :=
  [.ue h.cf] ++ (if h.cf = 3 then [.flag h.separatePlane] else []) ++
  [.ue h.bdLuma, .ue h.bdChroma, .flag h.qpprime] ++
  match h.lists with
  | none => [.flag false]
  | some ls => .flag true :: ls.flatMap scalingListElements

/-- Stage 3 after log2_max_frame_num (R164). -/
def SpsPoc.elements : SpsPoc → List Element
  | .type0 l => [.ue 0, .ue l]
  | .type1 z a b os => [.ue 1, .flag z, .se a, .se b, .ue os.length] ++ os.map .se
  | .other t => [.ue t]

/-- The crop offsets behind the cropping flag (R165). -/
def SpsCrop.elements (c : SpsCrop) : List Element := [.ue c.cl, .ue c.cr, .ue c.ct, .ue c.cb]

/-- The cropping flag and offsets (R165). -/
def cropElements : Option SpsCrop → List Element
  | none => [.flag false]
  | some c => .flag true :: c.elements

/-- The elements before the macroblock width (R161 to R165). -/
def Sps.front (s : Sps) : List Element :=
  [.u (uBits 8 s.nal), .u (uBits 8 s.profile), .u (uBits 16 s.flagsLevel), .ue s.spsId] ++
  (if s.profile ∈ Machine.highProfiles then s.high.elements else []) ++
  [.ue s.log2FrameNum] ++ s.poc.elements ++ [.ue s.numRef, .flag s.gaps]

/-- The elements between the macroblock height and the cropping flag (R165). -/
def Sps.frameFlags (s : Sps) : List Element :=
  .flag s.fmo :: (if s.fmo then [] else [.flag s.mbaff]) ++ [.flag s.direct]

/-- The elements of an SPS, in the order of R161 to R165. -/
def Sps.elements (s : Sps) : List Element :=
  s.front ++ [.ue s.wm1, .ue s.hm1] ++ s.frameFlags ++ cropElements s.crop

/-- The bits of an SPS. -/
def Sps.bits (s : Sps) : List Bool := bitsOf s.elements

/-- The present lists, from list `i` on, have the entries R163 gives them. -/
def listsLegal (slLarge i : Nat) : List (Option (List Int)) → Bool
  | [] => true
  | none :: ls => listsLegal slLarge (i + 1) ls
  | some ds :: ls =>
    decide (ds.length = if i < 6 then 16 else slLarge) && ds.all seLegal &&
    listsLegal slLarge (i + 1) ls

/-- Every code of stage 2 is decodable, and there are 8 scaling lists, or 12 where cf is 3 (R163). -/
def SpsHigh.legal (slLarge : Nat) (h : SpsHigh) : Bool :=
  ueLegal h.cf && ueLegal h.bdLuma && ueLegal h.bdChroma &&
  match h.lists with
  | none => true
  | some ls => decide (ls.length = if h.cf = 3 then 12 else 8) && listsLegal slLarge 0 ls

/-- Every code of stage 3 is decodable (R164). -/
def SpsPoc.legal : SpsPoc → Bool
  | .type0 l => ueLegal l
  | .type1 _ a b os => seLegal a && seLegal b && ueLegal os.length && os.all seLegal
  | .other t => decide (2 ≤ t) && ueLegal t

/-- The crop offsets are decodable. -/
def cropLegal : Option SpsCrop → Bool
  | none => true
  | some c => ueLegal c.cl && ueLegal c.cr && ueLegal c.ct && ueLegal c.cb

/-- Every field fits its code. -/
def Sps.legal (slLarge : Nat) (s : Sps) : Bool :=
  decide (s.nal < 2 ^ 8) && decide (s.profile < 2 ^ 8) && decide (s.flagsLevel < 2 ^ 16) &&
  ueLegal s.spsId && s.high.legal slLarge && ueLegal s.log2FrameNum && s.poc.legal &&
  ueLegal s.numRef && ueLegal s.wm1 && ueLegal s.hm1 && cropLegal s.crop

/-- The crop offsets, "else all zero" (R165). -/
def Sps.cropOr0 (s : Sps) : SpsCrop := s.crop.getD { cl := 0, cr := 0, ct := 0, cb := 0 }

/-- A VP9 key-frame header as far as the unit reads it (43_vp9.md R190 to R199). `pad` is what stands
up to the byte boundary before the size. -/
structure Vp9Header where
  profile : Nat
  reserved : Bool
  showFrame : Bool
  errorResilient : Bool
  twelve : Bool
  cs : Nat
  fs : Bool
  ssx : Bool
  ssy : Bool
  colorReserved : Bool
  pad : List Bool
  w : Nat
  h : Nat
  render : Option (Nat × Nat)
deriving DecidableEq, Repr

/-- The header up to the sync code: R190 with show_existing_frame = 0 and frame_type = 0, and R193. -/
def Vp9Header.start (x : Vp9Header) : List Element :=
  [.u (uBits 2 2), .flag (x.profile.testBit 0), .flag (x.profile.testBit 1)] ++
  (if x.profile = 3 then [.flag x.reserved] else []) ++
  [.flag false, .flag false, .flag x.showFrame, .flag x.errorResilient, .u (uBits 24 0x498342)]

/-- Bit depth and colour configuration (R194 to R197). -/
def Vp9Header.color (x : Vp9Header) : List Element :=
  (if 2 ≤ x.profile then [.flag x.twelve] else []) ++ [.u (uBits 3 x.cs)] ++
  if x.cs = 7 then [.flag x.colorReserved]
  else .flag x.fs ::
    if x.profile.testBit 0 then [.flag x.ssx, .flag x.ssy, .flag x.colorReserved] else []

/-- The padding to the byte boundary, one element of `align()` where there is any (R198). -/
def Vp9Header.padding (x : Vp9Header) : List Element := if x.pad = [] then [] else [.u x.pad]

/-- The size fields (R199): each stored as the value minus 1. -/
def Vp9Header.size (x : Vp9Header) : List Element :=
  [.u (uBits 16 (x.w - 1)), .u (uBits 16 (x.h - 1))] ++
  match x.render with
  | none => [.flag false]
  | some (dw, dh) => [.flag true, .u (uBits 16 (dw - 1)), .u (uBits 16 (dh - 1))]

/-- The elements of the header up to its size. -/
def Vp9Header.front (x : Vp9Header) : List Element := x.start ++ x.color ++ x.padding

/-- The elements of the header, in the order of R190 to R199. -/
def Vp9Header.elements (x : Vp9Header) : List Element := x.front ++ x.size

/-- The bits of the header. -/
def Vp9Header.bits (x : Vp9Header) : List Bool := bitsOf x.elements

/-- A coded size lies in 1..65536 (R199). -/
def vp9SizeLegal (n : Nat) : Bool := decide (1 ≤ n) && decide (n ≤ 65536)

/-- Every field fits its code, sRGB stands only in profiles 1 and 3 (R197), and the padding ends at a
byte boundary (R198). -/
def Vp9Header.legal (x : Vp9Header) : Bool :=
  decide (x.profile < 4) && decide (x.cs < 8) && (decide (x.cs ≠ 7) || x.profile.testBit 0) &&
  decide (x.pad.length < 8) && decide ((bitsOf x.front).length % 8 = 0) &&
  vp9SizeLegal x.w && vp9SizeLegal x.h &&
  match x.render with
  | none => true
  | some (dw, dh) => vp9SizeLegal dw && vp9SizeLegal dh

/-- The display size: "if set, read … else mirror `width`/`height`" (R199). -/
def Vp9Header.display (x : Vp9Header) : Nat × Nat := x.render.getD (x.w, x.h)

/-- Bit depth (R194): 8 below profile 2, else 10 or 12 by the bit. -/
def Vp9Header.bitDepth (x : Vp9Header) : Nat :=
  if 2 ≤ x.profile then (if x.twelve then 12 else 10) else 8

/-- The stream holds `bits` from stream position `p` on (00_scope.md R9). -/
abbrev Machine.State.carries (s : Machine.State) (p : Nat) (bits : List Bool) : Prop :=
  ∀ i, (h : i < bits.length) → Machine.streamBit s.view 0 (p + i) = (bits[i]).toNat

end Sys2Proof
end

