-- ==== Sys2Proof/Safety.lean ====
section
/-! DEFINITION. What counts as a safe state and a safe run: the invariants of the machine, the end of
a run and what is observed then (70_reset_and_hazards.md R272), and the groups of commands that the
write sets of 10_state.md R38 name. -/

namespace Sys2Proof.Machine

/-! ### Invariants -/

/-- The parameters are legal (00_scope.md R7), BASE's hardwired bits are 0 (10_state.md R26), and
memory has its canonical form. -/
abbrev State.MemoryInv (s : State) : Prop :=
  s.params.legal ∧ s.base.toNat < 2 ^ s.params.addrW ∧ s.mem.wf = true

/-- The cursor's bounds: "LENBITS is at most `8 · (2^32 - 1)`" and a multiple of 8, and "POS stays
below `LENBITS + 64`" (10_state.md R22, 40_cursor.md R105). -/
abbrev State.CursorInv (s : State) : Prop :=
  s.lenbits.toNat % 8 = 0 ∧ s.lenbits.toNat ≤ 8 * (2 ^ 32 - 1) ∧
  s.pos.toNat < s.lenbits.toNat + 64

/-- STATUS is consistent: OK goes with ERR = NONE; VALID and OUTW only with OK (60_exceptions.md
R233); DONE = 0 while BUSY = 1 (R232). -/
abbrev State.StatusInv (s : State) : Prop :=
  (s.status.ok = true → s.status.err = .none) ∧
  (s.status.valid = true → s.status.ok = true) ∧
  ((s.status.outwCh || s.status.outwSr || s.status.outwSpf) = true → s.status.ok = true) ∧
  (s.busy = true → s.status.done = false)

/-- The output registers hold 0, as after reset, or a value their rule allows (10_state.md R29 to
R31). -/
abbrev State.OutputInv (s : State) : Prop :=
  s.outVp9.bitDepth.toNat ∈ [0, 8, 10, 12] ∧
  s.outDwidth.toNat ≤ 65536 ∧ s.outDheight.toNat ≤ 65536 ∧
  s.outAacSpf.toNat ∈ [0, 960, 1024]

/-! ### Runs -/

/-- The turn is the host's (a register or buffer access, 70_reset_and_hazards.md R271). -/
def Turn.isHost : Turn → Bool
  | .unit => false
  | .host _ => true
  | .agentWrite _ _ => false
  | .memError => false
  | .rst => false

/-- The turn is the host's write to CMD. -/
def Turn.writesCmd : Turn → Bool
  | .unit => false
  | .host (.read _ _) => false
  | .host (.write off bytes _) => decide (off = 0x04) && decide (bytes = 4)
  | .host (.memWrite _ _) => false
  | .agentWrite _ _ => false
  | .memError => false
  | .rst => false

/-- "the host has issued its last CMD write" (R272): none is left among the turns (Log 2). -/
def State.lastCmdIssued (s : State) : Bool := !s.turns.any Turn.writesCmd

/-- The step from `s` to `t` completes a command: BUSY falls and DONE is set (60_exceptions.md R233). -/
def completesTo (s t : State) : Bool := s.busy && !t.busy && t.status.done

/-- A point of a run: the state there, and whether a command has completed before it with no access of
the host since. -/
structure RunPoint where
  state : State
  untouched : Bool
deriving DecidableEq, Repr

/-- The point at which a run starts; nothing has completed. -/
def RunPoint.start (s : State) : RunPoint := { state := s, untouched := false }

/-- The run ends here: the last CMD write is issued, its command has completed, BUSY = 0 and DONE = 1,
and the host has made no access after that completion (R272; Log 26). -/
def RunPoint.over (p : RunPoint) : Bool :=
  p.state.lastCmdIssued && !p.state.busy && p.state.status.done && p.untouched

/-- The next point: a completion starts the time without an access, an access of the host ends it. -/
def RunPoint.next (p : RunPoint) : Option RunPoint :=
  match step p.state with
  | .next t =>
    some { state := t
           untouched := completesTo p.state t || (p.untouched && !(nextTurn p.state).isHost) }
  | .fault _ => none
  | .refused _ => none

/-- The state at the end of a run: that of the first point, at most `n` steps on, where the run is over
(R272); none where there is no such point. -/
def runEnd : Nat → RunPoint → Option State
  | 0, p => if p.over then some p.state else none
  | n + 1, p => if p.over then some p.state else p.next.bind (runEnd n)

/-- The offsets of the register map (10_state.md R35). -/
def registerOffsets : List Nat := (List.range 22).map (4 * ·)

/-- What is observed at the end of a run: the register state and the memory (R272). -/
def observation (s : State) : List Word × Memory := (registerOffsets.map (regRead s), s.mem)

/-- The observation of the run from `s`, if it ends. All turns are taken, and the command accepted last
completes, within one step more than the turns (statement RunEndsWithTheLastCommand). -/
def runObservation (s : State) : Option (List Word × Memory) :=
  (runEnd (s.turns.length + 1) (RunPoint.start s)).map observation

/-- `n` steps, while they have a next state. -/
def runSteps : Nat → State → Host.Outcome State Fault Refusal
  | 0, s => .next s
  | n + 1, s =>
    match step s with
    | .next t => runSteps n t
    | .fault r => .fault r
    | .refused r => .refused r

end Sys2Proof.Machine

namespace Sys2Proof

/-! ### Groups of commands (10_state.md R38) -/

/-- The commands that use or set POS, LENBITS and STICKY. -/
def Instr.movesCursor : Instr → Bool
  | .cinit => true
  | .rdbits _ => true
  | .ue => true
  | .se => true
  | .align => true
  | .h264sps => true
  | .vp9key => true
  | .vp9props => true
  | .nop => false
  | .clz => false
  | .balign => false
  | .aaccfg _ => false
  | .selftest => false

/-- The commands that write RES (10_state.md R27). -/
def Instr.writesRes : Instr → Bool
  | .rdbits _ => true
  | .clz => true
  | .ue => true
  | .se => true
  | .balign => true
  | .align => true
  | .selftest => true
  | .nop => false
  | .cinit => false
  | .aaccfg _ => false
  | .h264sps => false
  | .vp9key => false
  | .vp9props => false

/-- The extraction commands (00_scope.md R12). -/
def Instr.extracts : Instr → Bool
  | .aaccfg _ => true
  | .h264sps => true
  | .vp9key => true
  | .vp9props => true
  | .nop => false
  | .cinit => false
  | .rdbits _ => false
  | .clz => false
  | .ue => false
  | .se => false
  | .balign => false
  | .align => false
  | .selftest => false

end Sys2Proof

namespace Sys2Proof.Machine

/-- The output registers (10_state.md R28 to R31) of `t` are those of `s`. -/
def State.sameOutputs (s t : State) : Prop :=
  t.outWidth = s.outWidth ∧ t.outHeight = s.outHeight ∧
  t.outDwidth = s.outDwidth ∧ t.outDheight = s.outDheight ∧ t.outVp9 = s.outVp9 ∧
  t.outAacCh = s.outAacCh ∧ t.outAacSr = s.outAacSr ∧ t.outAacSpf = s.outAacSpf

end Sys2Proof.Machine

namespace Sys2Proof.Machine

/-! ### The words statements use -/

/-- STATUS after a completion that writes no AAC output (60_exceptions.md R233): the fields written,
and STICKY and DROP as they were. -/
def Status.completed (st : Status) (ok valid : Bool) (err : ErrCode) : Status :=
  { st with
    done := true
    ok := ok
    valid := valid
    err := err
    outwCh := false
    outwSr := false
    outwSpf := false }

/-- The command is over: nothing of it is hidden any more (60_exceptions.md R233, 10_state.md R34). -/
def State.ended (s : State) : State :=
  { s with running := none, drawEpoch := s.drawEpoch + s.disturbed.toNat }

/-- `s` with the word `w` latched under the mode `m`. -/
def State.latched (s : State) (w : Word) (m : Mode) : State :=
  { s with running := some { cmd := w, mode := m, disturbed := false } }

/-- The n stream bits from position `p` on, as a number (00_scope.md R9). -/
def State.field (s : State) (p n : Nat) : Nat :=
  ∑ i ∈ Finset.range n, streamBit s.view 0 (p + i) * 2 ^ (n - 1 - i)

/-- A turn that has a next state whatever the unit is doing, and is no reset: the unit's own, an
aligned 32-bit register access of the host, or a write of memory by another agent. -/
def Turn.plain : Turn → Bool
  | .unit => true
  | .host (.read off bytes) => alignedWord off bytes
  | .host (.write off bytes _) => alignedWord off bytes
  | .host (.memWrite _ _) => false
  | .agentWrite _ _ => true
  | .memError => false
  | .rst => false

end Sys2Proof.Machine
end

