-- ==== Sys2Proof/Certificates/Slice0/Obligations.lean ====
section
/-! DEFINITION. The statements for the provers. Each docstring names the rules of spec/ it formalises.
In all of them `s.disturbed = false` says that no agent has written the running command's buffer
bytes (20_memory.md R70), and `s.carries p bits` that the stream holds `bits` from position `p` on.
Where a statement speaks of `turns`, that list is the model's own schedule (Log 2); where it speaks of
`exec` on an idle unit, the mode is CTRL.STRICT (Log 10). -/

open Sys2Proof Sys2Proof.Machine

/-! ### Encoding and assembler -/

/-- Decoding the word of a command with an encoding gives the command back (30_encoding.md R80 to
R84, R86). -/
def Obligations.DecodeInvertsEncode : Prop :=
  ∀ i : Instr, i.WellFormed → decode (encode i) = .ok i

/-- Every legal word is the word of the command it decodes to, so no bit of it is dropped. -/
def Obligations.EncodeInvertsDecode : Prop :=
  ∀ (w : Word) (i : Instr), decode w = .ok i → i.WellFormed ∧ encode i = w

/-- R83: which words are illegal, and what an illegal word does when it completes. -/
def Obligations.IllegalWordsCompleteWithIllegal : Prop :=
  (∀ w : Word, (∃ r, decode w = .error r) ↔
    (w.toNat % 2 ^ 8 ∉ [0, 1, 2, 3, 4, 5, 6, 7, 0x10, 0x11, 0x12, 0x13, 0x1F] ∨
      (w.getLsbD 15 = true ∨ w.toNat / 2 ^ 19 ≠ 0) ∨
      (w.toNat % 2 ^ 8 ≠ 0x02 ∧ w.toNat / 2 ^ 8 % 2 ^ 7 ≠ 0) ∨
      (w.toNat % 2 ^ 8 ≠ 0x10 ∧ w.toNat / 2 ^ 16 % 2 ^ 3 ≠ 0))) ∧
  (∀ (s : State) (r : Running) (e : IllegalWord), nextTurn s = .unit → s.running = some r →
    decode r.cmd = .error e →
    step s = .next { (popTurn s).ended with status := s.status.completed false false .illegal })

/-- A few words of the opcode map, written out (R80, R81). -/
def Obligations.OpcodeMapWords : Prop :=
  decode 0x00000000#32 = .ok .nop ∧ decode 0x00000001#32 = .ok .cinit ∧
  decode 0x00004002#32 = .ok (.rdbits 64) ∧ decode 0x00000004#32 = .ok .ue ∧
  decode 0x00070010#32 = .ok (.aaccfg 7) ∧ decode 0x00000011#32 = .ok .h264sps ∧
  decode 0x00000013#32 = .ok .vp9props ∧ decode 0x0000001F#32 = .ok .selftest

/-- R86, R87: the word of each assembler line, and the operands that are assembly errors. -/
def Obligations.AssemblerLinesGiveTheirWords : Prop :=
  (∀ op : Instr, op.takesNoOperand = true →
    assembleWord (.plain op) = some (BitVec.ofNat 32 op.opcode)) ∧
  (∀ n : Numeral, n.nonempty = true → n.value ≤ 127 →
    assembleWord (.rdbits n) = some (BitVec.ofNat 32 (n.value * 256 + 0x02)) ∧
    assembleWord (.skip n) = assembleWord (.rdbits n)) ∧
  (∀ n : Numeral, 127 < n.value →
    assembleWord (.rdbits n) = none ∧ assembleWord (.skip n) = none) ∧
  assembleWord .aaccfgNone = some 0x10#32 ∧
  (∀ ks : List AacKeyword, ks ≠ [] → ks.Nodup → ∃ w, assembleWord (.aaccfg ks) = some w ∧
    w &&& 0xFFF8FFFF#32 = 0x10#32 ∧ (w.getLsbD 16 = true ↔ .ch ∈ ks) ∧
    (w.getLsbD 17 = true ↔ .sr ∈ ks) ∧ (w.getLsbD 18 = true ↔ .spf ∈ ks)) ∧
  assembleWord (.aaccfg []) = none ∧
  assembleWord .aaccfgAll = assembleWord (.aaccfg [.ch, .sr, .spf]) ∧
  assembleWord .aaccfgAll = some 0x00070010#32

/-! ### Steps and the register window -/

/-- When it is the unit's turn and the latched word decodes to a command, the step is that command's
meaning, on the state with the turn taken off the list. A word placed by `withFetchWord` runs so. The
list of turns and `withFetchWord` are the model's choice (Log 1, Log 2). -/
def Obligations.StepRunsTheDecodedCommand : Prop :=
  (∀ (s : State) (r : Running) (i : Instr), nextTurn s = .unit → s.running = some r →
    decode r.cmd = .ok i → step s = exec i (popTurn s)) ∧
  (∀ (s : State) (nbits w : Nat) (i : Instr), decodeTableWord nbits w = some i →
    step (s.withFetchWord nbits w) = exec i (popTurn (s.withFetchWord nbits w)))

/-- R232: a write to CMD is accepted by an idle unit, whatever its value; while BUSY = 1 it is not. -/
def Obligations.CommandAcceptance : Prop :=
  ∀ (s : State) (w : Word) (ts : List Turn), s.turns = .host (.write 0x04 4 w) :: ts →
    (s.busy = false → step s = .next { s with
      turns := ts
      running := some
        { cmd := w, mode := if s.ctrl.strict then .strict else .lenient, disturbed := false }
      status := { s.status with done := false } }) ∧
    (s.busy = true → step s = .next { s with
      turns := ts, status := { s.status with drop := true } })

/-- R237: while BUSY = 1 a write to CMD, CTRL, LEN, BASE_LO or BASE_HI sets DROP and changes nothing
else, and a write to STATUS is honoured. -/
def Obligations.BusyWritesAreDropped : Prop :=
  ∀ (s : State) (off : BitVec 8) (v : Word) (ts : List Turn), s.busy = true →
    s.turns = .host (.write off 4 v) :: ts →
    (off.toNat ∈ [0x00, 0x04, 0x0C, 0x10, 0x14] → step s = .next { s with
      turns := ts, status := { s.status with drop := true } }) ∧
    (off.toNat = 0x08 → step s = .next { s with
      turns := ts
      status := { s.status with
        done := s.status.done && !v.getLsbD 1, drop := s.status.drop && !v.getLsbD 11 } })

/-- R24, R236: a write to STATUS clears DONE and DROP where it writes 1, and changes nothing else,
whether the unit is busy or not. -/
def Obligations.StatusWriteClearsDoneAndDrop : Prop :=
  ∀ (s : State) (v : Word) (ts : List Turn), s.turns = .host (.write 0x08 4 v) :: ts →
    step s = .next { s with
      turns := ts
      status := { s.status with
        done := s.status.done && !v.getLsbD 1, drop := s.status.drop && !v.getLsbD 11 } }

/-- R35, R269: a host read gives back the register word of the state as it is, in the model's own
field `readData` (Log 8), and changes nothing else; each register stands at its offset, a 64-bit one as its LO and HI words. -/
def Obligations.RegisterReadsFollowTheMap : Prop :=
  (∀ (s : State) (off : BitVec 8) (ts : List Turn), off.toNat % 4 = 0 →
    s.turns = .host (.read off 4) :: ts →
    step s = .next { s with turns := ts, readData := regRead s off.toNat }) ∧
  ∀ s : State,
    regRead s 0x0C = s.len ∧
    regRead s 0x14 ++ regRead s 0x10 = s.base ∧
    regRead s 0x1C ++ regRead s 0x18 = s.pos ∧
    regRead s 0x24 ++ regRead s 0x20 = s.lenbits ∧
    regRead s 0x2C ++ regRead s 0x28 = s.res ∧
    regRead s 0x34 ++ regRead s 0x30 = s.outWidth ∧
    regRead s 0x3C ++ regRead s 0x38 = s.outHeight ∧
    regRead s 0x40 = s.outDwidth ∧ regRead s 0x44 = s.outDheight ∧
    (regRead s 0x4C).toNat = s.outAacCh.toNat ∧ (regRead s 0x50).toNat = s.outAacSr.toNat ∧
    (regRead s 0x54).toNat = s.outAacSpf.toNat

/-- R23, R24, R30: the fields of CTRL, STATUS and OUT_VP9 stand at their bits; EXH and OVER are live. -/
def Obligations.RegisterFieldsStandAtTheirBits : Prop :=
  ∀ s : State,
    (regRead s 0x00).toNat = s.ctrl.strict.toNat + 2 * s.ctrl.ie.toNat ∧
    (regRead s 0x08).toNat =
      s.busy.toNat + 2 * s.status.done.toNat + 2 ^ 2 * s.status.ok.toNat +
      2 ^ 3 * s.status.valid.toNat + 2 ^ 4 * s.status.err.code +
      2 ^ 8 * (decide (s.pos.toNat ≥ s.lenbits.toNat)).toNat +
      2 ^ 9 * (decide (s.pos.toNat > s.lenbits.toNat)).toNat +
      2 ^ 10 * s.status.sticky.toNat + 2 ^ 11 * s.status.drop.toNat +
      2 ^ 12 * s.status.outwCh.toNat + 2 ^ 13 * s.status.outwSr.toNat +
      2 ^ 14 * s.status.outwSpf.toNat ∧
    (regRead s 0x48).toNat =
      s.outVp9.bitDepth.toNat + 2 ^ 4 * s.outVp9.colorSpace.toNat + 2 ^ 7 * s.outVp9.ssx.toNat +
      2 ^ 8 * s.outVp9.ssy.toNat + 2 ^ 9 * s.outVp9.fullSwing.toNat +
      2 ^ 10 * s.outVp9.profile.toNat + 2 ^ 12 * s.outVp9.key.toNat

/-- R36: CMD, the reserved offsets and the reserved bits of every register read 0; a write to a
reserved offset or a read-only register changes nothing, busy or not; a write of reserved bits is
ignored. -/
def Obligations.ReservedSpaceReadsZero : Prop :=
  (∀ (s : State) (k : Nat), 0x58 ≤ k → regRead s k = 0) ∧ (∀ s : State, regRead s 0x04 = 0) ∧
  (∀ (s : State) (off : BitVec 8) (v : Word) (ts : List Turn), 0x18 ≤ off.toNat →
    off.toNat % 4 = 0 → s.turns = .host (.write off 4 v) :: ts →
    step s = .next { s with turns := ts }) ∧
  (∀ s : State, (regRead s 0x00).toNat < 2 ^ 2 ∧ (regRead s 0x08).toNat < 2 ^ 15 ∧
    (regRead s 0x48).toNat < 2 ^ 13 ∧ (regRead s 0x4C).toNat < 2 ^ 4 ∧
    (regRead s 0x50).toNat < 2 ^ 24 ∧ (regRead s 0x54).toNat < 2 ^ 11) ∧
  (∀ (s : State) (v : Word), regWrite 0x00 v s = regWrite 0x00 (v &&& 0x003#32) s ∧
    regWrite 0x08 v s = regWrite 0x08 (v &&& 0x802#32) s)

/-- R23, R25, R26: what a write to CTRL, LEN, BASE_LO and BASE_HI does to an idle unit; BASE keeps the
low ADDR_W bits of what it would hold. -/
def Obligations.IdleRegisterWrites : Prop :=
  ∀ (s : State) (v : Word) (ts : List Turn), s.busy = false →
    (s.turns = .host (.write 0x00 4 v) :: ts → step s = .next { s with
      turns := ts, ctrl := { strict := v.getLsbD 0, ie := v.getLsbD 1 } }) ∧
    (s.turns = .host (.write 0x0C 4 v) :: ts → step s = .next { s with turns := ts, len := v }) ∧
    (s.turns = .host (.write 0x10 4 v) :: ts → step s = .next { s with
      turns := ts
      base := BitVec.ofNat 64
        ((s.base.toNat / 2 ^ 32 * 2 ^ 32 + v.toNat) % 2 ^ s.params.addrW) }) ∧
    (s.turns = .host (.write 0x14 4 v) :: ts → step s = .next { s with
      turns := ts
      base := BitVec.ofNat 64
        ((v.toNat * 2 ^ 32 + s.base.toNat % 2 ^ 32) % 2 ^ s.params.addrW) })

/-- R37, R75, R271: the actions that have no next state. A register access that is not an aligned
32-bit one is refused; an error answered to a command that may read memory is refused; a host's write to
a buffer byte the running command may read has no move (Log 7). Which commands may read memory, and that
an error answer changes nothing while no read can be outstanding (the unit idle, an illegal word latched,
a command that reads no memory), is the model's reading (Log 19). -/
def Obligations.ActionsOutsideTheModelAreRefused : Prop :=
  (∀ (s : State) (off : BitVec 8) (bytes : Nat) (ts : List Turn),
    bytes ≠ 4 ∨ off.toNat % 4 ≠ 0 → s.turns = .host (.read off bytes) :: ts →
    step s = .refused .registerAccessShape) ∧
  (∀ (s : State) (off : BitVec 8) (bytes : Nat) (v : Word) (ts : List Turn),
    bytes ≠ 4 ∨ off.toNat % 4 ≠ 0 → s.turns = .host (.write off bytes v) :: ts →
    step s = .refused .registerAccessShape) ∧
  (∀ (s : State) (r : Running) (i : Instr) (ts : List Turn), s.turns = .memError :: ts →
    s.running = some r → decode r.cmd = .ok i →
    (0 < mayReadBytes i s → step s = .refused .memoryPortError) ∧
    (mayReadBytes i s = 0 → step s = .next { s with turns := ts })) ∧
  (∀ (s : State) (ts : List Turn), s.turns = .memError :: ts →
    (s.running = none ∨ ∃ r e, s.running = some r ∧ decode r.cmd = .error e) →
    step s = .next { s with turns := ts }) ∧
  (∀ (s : State) (r : Running) (i : Instr) (k : Nat) (a : DWord) (b : Byte) (ts : List Turn),
    s.turns = .host (.memWrite a b) :: ts → s.running = some r → decode r.cmd = .ok i →
    k < mayReadBytes i s → a.toNat = (s.base.toNat + k) % 2 ^ s.params.addrW →
    step s = .refused .hostBufferWriteWhileBusy)

/-- R271: the host's write of memory, where it may write: while idle, with an illegal word latched, or to
a byte that is none of those the running command may read (which those are is the model's reading,
Log 19). The byte changes, and nothing else. -/
def Obligations.HostMemoryWritesChangeTheByte : Prop :=
  ∀ (s : State) (a : DWord) (b : Byte) (ts : List Turn), s.turns = .host (.memWrite a b) :: ts →
    s.mem.wf = true →
    (s.running = none ∨ (∃ r e, s.running = some r ∧ decode r.cmd = .error e) ∨
      (∃ r i, s.running = some r ∧ decode r.cmd = .ok i ∧
        ∀ k < mayReadBytes i s, a.toNat ≠ (s.base.toNat + k) % 2 ^ s.params.addrW)) →
    ∃ m : Memory, step s = .next { s with turns := ts, mem := m } ∧ m.wf = true ∧
      memRead m a.toNat = b ∧ ∀ x, x ≠ a.toNat → memRead m x = memRead s.mem x

/-- R70: another agent's write to a byte the running command may read leaves it running, on draws; a
write to any other byte, while idle, or with an illegal word latched (which reads no byte), changes that
byte of memory and nothing else. The mark `disturbed` is the model's form of the draws (Log 6). -/
def Obligations.AgentWritesDisturbTheCommand : Prop :=
  ∀ (s : State) (a : DWord) (b : Byte) (ts : List Turn), s.turns = .agentWrite a b :: ts →
    s.mem.wf = true →
    ∃ t, step s = .next t ∧ t = { s with turns := ts, mem := t.mem, running := t.running } ∧
      memRead t.mem a.toNat = b ∧ (∀ x, x ≠ a.toNat → memRead t.mem x = memRead s.mem x) ∧
      (∀ (r : Running) (i : Instr), s.running = some r → decode r.cmd = .ok i →
        ((∃ k < mayReadBytes i s, a.toNat = (s.base.toNat + k) % 2 ^ s.params.addrW) →
          t.running = some { r with disturbed := true }) ∧
        ((∀ k < mayReadBytes i s, a.toNat ≠ (s.base.toNat + k) % 2 ^ s.params.addrW) →
          t.running = some r)) ∧
      (∀ (r : Running) (e : IllegalWord), s.running = some r → decode r.cmd = .error e →
        t.running = some r) ∧
      (s.running = none → t.running = none)

/-- R260, R261: a turn of rst puts every register at its reset value, from any state, abandons a
running command, and leaves memory alone; STATUS then reads 0x100 and irq is 0. -/
def Obligations.ResetFromAnyState : Prop :=
  ∀ (s : State) (ts : List Turn), s.turns = .rst :: ts →
    ∃ t, step s = .next t ∧ t.mem = s.mem ∧ t.turns = ts ∧ t.params = s.params ∧
      t.running = none ∧ t.ctrl = { strict := true, ie := false } ∧
      t.len = 0 ∧ t.base = 0 ∧ t.pos = 0 ∧ t.lenbits = 0 ∧ t.res = 0 ∧
      State.sameOutputs State.reset t ∧ t.outWidth = 0 ∧ t.outHeight = 0 ∧
      t.outDwidth = 0 ∧ t.outDheight = 0 ∧ vp9Word t.outVp9 = 0 ∧
      t.outAacCh = 0 ∧ t.outAacSr = 0 ∧ t.outAacSpf = 0 ∧
      regRead t 0x00 = 1 ∧ regRead t 0x08 = 0x100 ∧ t.irq = false

/-- R235: irq is DONE & IE. It follows IE after a completion, falls at acceptance and when DONE is
cleared or IE is written 0, and is 0 while BUSY = 1. -/
def Obligations.IrqIsDoneAndEnable : Prop :=
  (∀ s : State, s.irq = ((regRead s 0x08).getLsbD 1 && (regRead s 0x00).getLsbD 1)) ∧
  (∀ (i : Instr) (s t : State), exec i s = .next t → t.irq = s.ctrl.ie) ∧
  (∀ (w : Word) (s : State), (accept w s).irq = false) ∧
  (∀ (v : Word) (s : State), v.getLsbD 1 = true → (regWrite 0x08 v s).irq = false) ∧
  (∀ (v : Word) (s : State), s.busy = false → v.getLsbD 1 = false →
    (regWrite 0x00 v s).irq = false) ∧
  (∀ s : State, s.StatusInv → s.busy = true → s.irq = false)

/-! ### Runs and invariants -/

/-- R267: a busy unit completes, or is reset, within the turns the other agents take before it, unless
one of them has no next state; where every turn is a plain one, it completes. The list of turns and
completion in one step are the model's choice (Log 2, Log 9). -/
def Obligations.BusyUnitCompletes : Prop :=
  (∀ s : State, s.busy = true → ∃ n, n ≤ s.turns.length + 1 ∧
    ((∃ t, runSteps n s = .next t ∧ t.busy = false) ∨ ∃ r, runSteps n s = .refused r)) ∧
  (∀ s : State, s.busy = true → s.turns.all Turn.plain = true →
    ∃ n t, n ≤ s.turns.length + 1 ∧ runSteps n s = .next t ∧ t.busy = false ∧
      t.status.done = true)

/-- R272: a run ends at the completion of the command the host issued last, at the first one that no CMD
write follows, whatever the host does after it; it is observed there: the registers by their offsets, and
memory. A run of plain turns whose last CMD write is issued ends. That a dropped last CMD write leaves the
end at the running command's completion is the model's reading (Log 26), the list of turns its choice
(Log 2). -/
def Obligations.RunEndsWithTheLastCommand : Prop :=
  let endsAt (s : State) (k : Nat) (t : State) : Prop := ∃ u, runSteps k s = .next u ∧
    step u = .next t ∧ u.busy = true ∧ t.busy = false ∧ t.status.done = true ∧
    ∀ x ∈ t.turns, x.writesCmd = false
  (∀ (s t : State) (n : Nat), runEnd n (RunPoint.start s) = some t ↔
    ∃ k < n, endsAt s k t ∧ ∀ j < k, ∀ u, ¬endsAt s j u) ∧
  (∀ (s t : State) (n : Nat), runEnd n (RunPoint.start s) = some t →
    runObservation s = some (registerOffsets.map (regRead t), t.mem)) ∧
  (∀ s : State, s.busy = true → s.turns.all Turn.plain = true →
    (∀ x ∈ s.turns, x.writesCmd = false) →
    ∃ t, runEnd (s.turns.length + 1) (RunPoint.start s) = some t)

/-- R63, R233: every command completes from every state. Its completion ends the command, sets DONE,
goes with ERR = NONE exactly on success, leaves VALID and OUTW 0 on a failure, and leaves the
parameters, CTRL, LEN, BASE, DROP, memory and the turns alone. -/
def Obligations.EveryCommandCompletes : Prop :=
  ∀ (i : Instr) (s : State), ∃ t, exec i s = .next t ∧ t.running = none ∧
    t.status.done = true ∧ (t.status.ok = true ↔ t.status.err = .none) ∧
    (t.status.ok = false → t.status.valid = false ∧ t.status.outwCh = false ∧
      t.status.outwSr = false ∧ t.status.outwSpf = false) ∧
    t.status.drop = s.status.drop ∧ t.params = s.params ∧ t.ctrl = s.ctrl ∧ t.len = s.len ∧
    t.base = s.base ∧ t.mem = s.mem ∧ t.turns = s.turns ∧ t.readData = s.readData

/-- R38: what each group of commands leaves unchanged. -/
def Obligations.CommandsKeepToTheirWriteSets : Prop :=
  ∀ (i : Instr) (s t : State), exec i s = .next t →
    (i.movesCursor = false →
      t.pos = s.pos ∧ t.lenbits = s.lenbits ∧ t.status.sticky = s.status.sticky) ∧
    (i.writesRes = false → t.res = s.res) ∧
    (i.extracts = false → s.sameOutputs t) ∧
    (i ≠ .h264sps → i ≠ .vp9props → t.outWidth = s.outWidth ∧ t.outHeight = s.outHeight) ∧
    (i ≠ .vp9props → t.outDwidth = s.outDwidth ∧ t.outDheight = s.outDheight ∧
      { t.outVp9 with key := s.outVp9.key } = s.outVp9) ∧
    (i ≠ .vp9props → i ≠ .vp9key → t.outVp9 = s.outVp9) ∧
    ((∀ q, i ≠ .aaccfg q) → t.outAacCh = s.outAacCh ∧ t.outAacSr = s.outAacSr ∧
      t.outAacSpf = s.outAacSpf ∧ t.status.outwCh = false ∧ t.status.outwSr = false ∧
      t.status.outwSpf = false) ∧
    (i.extracts = true → t.status.valid = false)

/-- R233: "on failure no output register is written". -/
def Obligations.FailureWritesNoOutput : Prop :=
  ∀ (i : Instr) (s t : State), exec i s = .next t → t.status.ok = false → s.sameOutputs t

/-- R63: in the unit's turn memory does not change, whatever the unit does. -/
def Obligations.UnitNeverWritesMemory : Prop :=
  ∀ s : State, nextTurn s = .unit → ∃ t, step s = .next t ∧ t.mem = s.mem

/-- R62: a command depends on no byte outside the buffer. Change memory anywhere but at the addresses
of the bytes the command may read: it does the same, under either policy. -/
def Obligations.CommandsReadOnlyTheirBuffer : Prop :=
  ∀ (i : Instr) (s t : State) (m : Memory), s.lenbits.toNat % 8 = 0 →
    (∀ k < mayReadBytes i s, memRead m ((s.base.toNat + k) % 2 ^ s.params.addrW) =
      memRead s.mem ((s.base.toNat + k) % 2 ^ s.params.addrW)) →
    exec i s = .next t → exec i { s with mem := m } = .next { t with mem := m }

/-- R67: parsing an identical buffer twice gives identical results: an extraction command run again on
the state it left, latched the same, leaves that state. -/
def Obligations.ExtractionIsRepeatable : Prop :=
  ∀ (i : Instr) (s t : State), i.extracts = true → s.disturbed = false → exec i s = .next t →
    exec i { t with running := s.running } = .next t

/-- R101, R106: where a command succeeds under the strict policy, the lenient policy gives the same
state. -/
def Obligations.StrictSuccessIsLenientSuccess : Prop :=
  ∀ (i : Instr) (s t : State) (w : Word), exec i (s.latched w .strict) = .next t →
    t.status.ok = true → exec i (s.latched w .lenient) = .next t

/-- R120 (for every command): under the strict policy no command moves POS past LENBITS. -/
def Obligations.StrictNeverOvershoots : Prop :=
  ∀ (i : Instr) (s t : State), s.mode = .strict → s.lenbits.toNat % 8 = 0 →
    s.pos.toNat ≤ s.lenbits.toNat → exec i s = .next t → t.pos.toNat ≤ t.lenbits.toNat

/-- The reset state meets every invariant. -/
def Obligations.ResetMeetsTheInvariants : Prop :=
  State.reset.MemoryInv ∧ State.reset.CursorInv ∧ State.reset.StatusInv ∧ State.reset.OutputInv ∧
    regRead State.reset 0x08 = 0x100

/-- Every step keeps memory canonical (the model's form, Log 4), BASE's hardwired bits 0 and the
parameters legal (R26, R7). -/
def Obligations.StepKeepsMemoryInv : Prop :=
  ∀ s t : State, s.MemoryInv → step s = .next t → t.MemoryInv ∧ t.params = s.params

/-- Every step keeps the cursor's bounds (R22). -/
def Obligations.StepKeepsCursorInv : Prop :=
  ∀ s t : State, s.CursorInv → step s = .next t → t.CursorInv

/-- Every step keeps STATUS consistent (R232, R233). -/
def Obligations.StepKeepsStatusInv : Prop :=
  ∀ s t : State, s.StatusInv → step s = .next t → t.StatusInv

/-- Every step keeps the output registers at values their rules allow (R29, R30, R31). -/
def Obligations.StepKeepsOutputInv : Prop :=
  ∀ s t : State, s.OutputInv → step s = .next t → t.OutputInv

/-! ### Primitive commands -/

/-- R110. -/
def Obligations.NopOnlyCompletes : Prop :=
  decode 0x00000000#32 = .ok .nop ∧
  ∀ s : State, exec .nop s = .next { s.ended with status := s.status.completed true false .none }

/-- R111. -/
def Obligations.CinitStartsASession : Prop :=
  decode 0x00000001#32 = .ok .cinit ∧
  ∀ s : State, exec .cinit s = .next { s.ended with
    pos := 0
    lenbits := BitVec.ofNat 64 (8 * s.len.toNat)
    status := { s.status.completed true false .none with sticky := false } }

/-- R112: RDBITS n, for every n its word can hold. A width outside 1..64 is BADWIDTH. At or past the
end, or short under the strict policy, the read is ABSENT. With n bits remaining it is a full read; a
short read under the lenient policy is zero-filled, and POS advances by n. -/
def Obligations.RdbitsReads : Prop :=
  ∀ (s : State) (n : Nat), n < 128 →
    decode (BitVec.ofNat 32 (n * 2 ^ 8 + 0x02)) = .ok (.rdbits n) ∧
    (n < 1 ∨ 64 < n → exec (.rdbits n) s = .next { s.ended with
      res := 0
      status := { s.status.completed false false .badWidth with sticky := true } }) ∧
    (1 ≤ n → n ≤ 64 → (s.lenbits.toNat ≤ s.pos.toNat ∨
        (s.lenbits.toNat < s.pos.toNat + n ∧ s.mode = .strict)) →
      exec (.rdbits n) s = .next { s.ended with
        res := 0
        status := { s.status.completed false false .absent with sticky := true } }) ∧
    (s.disturbed = false → 1 ≤ n → n ≤ 64 → s.pos.toNat + n ≤ s.lenbits.toNat →
      exec (.rdbits n) s = .next { s.ended with
        res := BitVec.ofNat 64 (s.field s.pos.toNat n)
        pos := BitVec.ofNat 64 (s.pos.toNat + n)
        status := s.status.completed true true .none }) ∧
    (s.disturbed = false → n ≤ 64 → s.pos.toNat < s.lenbits.toNat →
      s.lenbits.toNat < s.pos.toNat + n → s.mode = .lenient →
      exec (.rdbits n) s = .next { s.ended with
        res := BitVec.ofNat 64 (s.field s.pos.toNat (s.lenbits.toNat - s.pos.toNat) *
          2 ^ (n - (s.lenbits.toNat - s.pos.toNat)))
        pos := BitVec.ofNat 64 (s.pos.toNat + n)
        status := s.status.completed true true .none })

/-- R107: at or past the end UE and SE are ABSENT and leave POS unchanged, under either policy. -/
def Obligations.ExhaustedCodesAreAbsent : Prop :=
  ∀ (s : State) (i : Instr), s.lenbits.toNat ≤ s.pos.toNat → i = .ue ∨ i = .se →
    exec i s = .next { s.ended with
      res := 0
      status := { s.status.completed false false .absent with sticky := true } }

/-- R102, R113: CLZ counts the zero bits from POS up to the first one bit or up to LENBITS; at or past
the end it is 0. POS is unchanged. -/
def Obligations.ClzCountsZeroBits : Prop :=
  decode 0x00000003#32 = .ok .clz ∧
  ∀ s : State, s.disturbed = false → s.lenbits.toNat % 8 = 0 →
    ∃ k, exec .clz s = .next { s.ended with
        res := BitVec.ofNat 64 k
        status := s.status.completed true true .none } ∧
      (s.lenbits.toNat ≤ s.pos.toNat → k = 0) ∧
      (s.pos.toNat < s.lenbits.toNat → s.pos.toNat + k ≤ s.lenbits.toNat ∧
        (∀ j < k, streamBit s.view 0 (s.pos.toNat + j) = 0) ∧
        (s.pos.toNat + k < s.lenbits.toNat → streamBit s.view 0 (s.pos.toNat + k) = 1))

/-- R90, R103, R114: on a stream that holds the ue(v) code of a codeNum up to 2^64 − 2, UE puts the
codeNum into RES and moves POS past the code, under either policy. -/
def Obligations.UeDecodesItsCode : Prop :=
  ∀ (s : State) (u : Nat), s.disturbed = false → s.lenbits.toNat % 8 = 0 → u ≤ 2 ^ 64 - 2 →
    s.carries s.pos.toNat (ueBits u) →
    s.pos.toNat + (ueBits u).length ≤ s.lenbits.toNat →
    exec .ue s = .next { s.ended with
      res := BitVec.ofNat 64 u
      pos := BitVec.ofNat 64 (s.pos.toNat + (ueBits u).length)
      status := s.status.completed true true .none }

/-- R103, R114: UE where no whole code stands at POS. `z` zero bits stand there, up to a one bit or up
to LENBITS. With no one bit, or with z ≥ 64, the code is ABSENT; with its information bits cut off it is
ABSENT under the strict policy and zero-filled under the lenient one. On ABSENT the strict policy
leaves POS unchanged and the lenient one leaves it after the zeros. -/
def Obligations.UeWithoutAWholeCode : Prop :=
  ∀ (s : State) (z : Nat), s.disturbed = false → s.lenbits.toNat % 8 = 0 →
    (∀ j < z, streamBit s.view 0 (s.pos.toNat + j) = 0) →
    ((s.pos.toNat + z = s.lenbits.toNat ∨
        (s.pos.toNat + z < s.lenbits.toNat ∧ streamBit s.view 0 (s.pos.toNat + z) = 1 ∧ 64 ≤ z)) →
      exec .ue s = .next { s.ended with
        res := 0
        pos := if s.mode = .strict then s.pos else BitVec.ofNat 64 (s.pos.toNat + z)
        status := { s.status.completed false false .absent with sticky := true } }) ∧
    (s.pos.toNat + z < s.lenbits.toNat → streamBit s.view 0 (s.pos.toNat + z) = 1 → z < 64 →
      s.lenbits.toNat < s.pos.toNat + (2 * z + 1) →
      (s.mode = .strict → exec .ue s = .next { s.ended with
        res := 0
        status := { s.status.completed false false .absent with sticky := true } }) ∧
      (s.mode = .lenient → exec .ue s = .next { s.ended with
        res := BitVec.ofNat 64
          (s.field (s.pos.toNat + z) (s.lenbits.toNat - (s.pos.toNat + z)) *
            2 ^ (z + 1 - (s.lenbits.toNat - (s.pos.toNat + z))) - 1)
        pos := BitVec.ofNat 64 (s.pos.toNat + (2 * z + 1))
        status := s.status.completed true true .none }))

/-- R92, R104, R115: on a stream that holds the se(v) code of a value, SE puts its two's-complement
pattern into RES and moves POS past the code, under either policy. -/
def Obligations.SeDecodesItsCode : Prop :=
  ∀ (s : State) (k : Int), s.disturbed = false → s.lenbits.toNat % 8 = 0 →
    -(2 ^ 63 - 1) ≤ k → k ≤ 2 ^ 63 - 1 → s.carries s.pos.toNat (seBits k) →
    s.pos.toNat + (seBits k).length ≤ s.lenbits.toNat →
    exec .se s = .next { s.ended with
      res := BitVec.ofInt 64 k
      pos := BitVec.ofNat 64 (s.pos.toNat + (seBits k).length)
      status := s.status.completed true true .none }

/-- R104: SE does what UE does, but for RES, which holds `-(u/2)` for an even codeNum u and `(u+1)/2`
for an odd one; where UE is ABSENT so is SE. -/
def Obligations.SeFollowsUe : Prop :=
  ∀ s t : State, exec .ue s = .next t →
    (t.status.valid = false → exec .se s = .next t) ∧
    (t.status.valid = true → t.res.toNat % 2 = 0 →
      exec .se s = .next { t with res := BitVec.ofInt 64 (-(t.res.toNat / 2 : Nat)) }) ∧
    (t.status.valid = true → t.res.toNat % 2 = 1 →
      exec .se s = .next { t with res := BitVec.ofNat 64 ((t.res.toNat + 1) / 2) })

/-- R116. -/
def Obligations.BalignReportsTheBitOffset : Prop :=
  decode 0x00000006#32 = .ok .balign ∧
  ∀ s : State, exec .balign s = .next { s.ended with
    res := BitVec.ofNat 64 (s.pos.toNat % 8)
    status := s.status.completed true true .none }

/-- R105, R117: ALIGN moves POS up to the next byte boundary and answers the bits skipped; it is ABSENT
only past the end off a boundary. -/
def Obligations.AlignSkipsToTheBoundary : Prop :=
  decode 0x00000007#32 = .ok .align ∧
  ∀ s : State, s.lenbits.toNat % 8 = 0 →
    ((s.pos.toNat % 8 = 0 ∨ s.pos.toNat ≤ s.lenbits.toNat) → ∃ a, a < 8 ∧
      (s.pos.toNat + a) % 8 = 0 ∧ exec .align s = .next { s.ended with
        res := BitVec.ofNat 64 a
        pos := BitVec.ofNat 64 (s.pos.toNat + a)
        status := s.status.completed true true .none }) ∧
    (s.pos.toNat % 8 ≠ 0 → s.lenbits.toNat < s.pos.toNat → exec .align s = .next { s.ended with
      res := 0
      status := { s.status.completed false false .absent with sticky := true } })

/-- R118: from every state, under either policy. -/
def Obligations.SelftestGives254 : Prop :=
  decode 0x0000001F#32 = .ok .selftest ∧
  ∀ s : State, exec .selftest s = .next { s.ended with
    res := 254
    status := s.status.completed true true .none }

/-! ### AACCFG -/

/-- R146: AACCFG fails with INPUT on a buffer of fewer than 2 bytes, and only then. -/
def Obligations.AaccfgFailsOnlyBelowTwoBytes : Prop :=
  ∀ (s : State) (req : BitVec 3),
    (s.len.toNat < 2 → exec (.aaccfg req) s =
      .next { s.ended with status := s.status.completed false false .input }) ∧
    (2 ≤ s.len.toNat → ∃ t, exec (.aaccfg req) s = .next t ∧ t.status.ok = true)

/-- R141, R142, R144: a sampling-frequency index below 13 selects its rate; channels and the flag
stand at stream bits 9..12 and 13. -/
def Obligations.AaccfgTableRate : Prop :=
  ∀ (s : State) (req : BitVec 3) (rate : Nat), s.disturbed = false → 2 ≤ s.len.toNat →
    [96000, 88200, 64000, 48000, 44100, 32000, 24000, 22050, 16000, 12000, 11025, 8000,
      7350][s.field 5 4]? = some rate →
    exec (.aaccfg req) s = .next { s.ended with
      outAacCh := if req.getLsbD 0 then BitVec.ofNat 4 (s.field 9 4) else s.outAacCh
      outAacSr := if req.getLsbD 1 then BitVec.ofNat 24 rate else s.outAacSr
      outAacSpf := if req.getLsbD 2 then (if s.field 13 1 = 1 then 960 else 1024) else s.outAacSpf
      status := { s.status.completed true false .none with
        outwCh := req.getLsbD 0, outwSr := req.getLsbD 1, outwSpf := req.getLsbD 2 } }

/-- R143, R144: index 15 with more than 4 bytes: the rate stands at stream bits 9..32, channels at
33..36, the flag at 37. -/
def Obligations.AaccfgExplicitRate : Prop :=
  ∀ (s : State) (req : BitVec 3), s.disturbed = false → 4 < s.len.toNat → s.field 5 4 = 15 →
    exec (.aaccfg req) s = .next { s.ended with
      outAacCh := if req.getLsbD 0 then BitVec.ofNat 4 (s.field 33 4) else s.outAacCh
      outAacSr := if req.getLsbD 1 then BitVec.ofNat 24 (s.field 9 24) else s.outAacSr
      outAacSpf := if req.getLsbD 2 then (if s.field 37 1 = 1 then 960 else 1024) else s.outAacSpf
      status := { s.status.completed true false .none with
        outwCh := req.getLsbD 0, outwSr := req.getLsbD 1, outwSpf := req.getLsbD 2 } }

/-- R145: index 13 or 14, or index 15 with at most 4 bytes: the command succeeds and leaves OUT_AAC_SR
unchanged, with OUTW_SR = 0. -/
def Obligations.AaccfgUnresolvedRate : Prop :=
  ∀ (s : State) (req : BitVec 3), s.disturbed = false → 2 ≤ s.len.toNat →
    (s.field 5 4 = 13 ∨ s.field 5 4 = 14 ∨ (s.field 5 4 = 15 ∧ s.len.toNat ≤ 4)) →
    exec (.aaccfg req) s = .next { s.ended with
      outAacCh := if req.getLsbD 0 then BitVec.ofNat 4 (s.field 9 4) else s.outAacCh
      outAacSpf := if req.getLsbD 2 then (if s.field 13 1 = 1 then 960 else 1024) else s.outAacSpf
      status := { s.status.completed true false .none with
        outwCh := req.getLsbD 0, outwSr := false, outwSpf := req.getLsbD 2 } }

/-! ### H264SPS -/

/-- R160, R190, R234: on an empty buffer H264SPS, VP9KEY and VP9PROPS fail with INPUT before the cursor
starts. -/
def Obligations.EmptyBufferFailsWithInput : Prop :=
  ∀ (s : State) (i : Instr), i = .h264sps ∨ i = .vp9key ∨ i = .vp9props → s.len = 0 →
    exec i s = .next { s.ended with status := s.status.completed false false .input }

/-- R160 to R168: on a buffer that begins with the bits of a sequence parameter set, H264SPS reads it
to its last crop offset and derives the frame size, `W = (wm1+1)·16 − 2·(cl+cr)` and
`H = (2−fmo)·(hm1+1)·16 − 2·(ct+cb)`. Under the strict policy a size outside [0, 2^63) is RANGE and the
outputs keep their values; else OUT_WIDTH and OUT_HEIGHT get the sizes modulo 2^64. -/
def Obligations.H264spsReadsTheSpsSyntax : Prop :=
  ∀ (s : State) (x : Sps), s.disturbed = false → x.legal s.params.slLarge = true →
    s.carries 0 x.bits → x.bits.length ≤ 8 * s.len.toNat →
    let W : Int := ((x.wm1 : Int) + 1) * 16 - 2 * (x.cropOr0.cl + x.cropOr0.cr)
    let H : Int := (if x.fmo then 1 else 2) * ((x.hm1 : Int) + 1) * 16 -
      2 * (x.cropOr0.ct + x.cropOr0.cb)
    let t : State := { s.ended with
      pos := BitVec.ofNat 64 x.bits.length
      lenbits := BitVec.ofNat 64 (8 * s.len.toNat) }
    (s.mode = .lenient ∨ (0 ≤ W ∧ W < 2 ^ 63 ∧ 0 ≤ H ∧ H < 2 ^ 63) →
      exec .h264sps s = .next { t with
        outWidth := BitVec.ofInt 64 W
        outHeight := BitVec.ofInt 64 H
        status := { s.status.completed true false .none with sticky := false } }) ∧
    (s.mode = .strict → ¬(0 ≤ W ∧ W < 2 ^ 63 ∧ 0 ≤ H ∧ H < 2 ^ 63) →
      exec .h264sps s = .next { t with
        status := { s.status.completed false false .range with sticky := false } })

/-- R101, R103, R106 in H264SPS: a buffer that ends inside a sequence parameter set, at any byte. Under
the strict policy the command fails, ABSENT, with POS in front of the first element that is not whole
(R101, R103) and STICKY set. Under the lenient one it succeeds: an element cut inside reads zero-filled,
an absent one reads 0 and sets STICKY, and the sizes are those of R166 for the values so read. -/
def Obligations.H264spsOnACutSps : Prop :=
  ∀ (s : State) (x : Sps), s.disturbed = false → x.legal s.params.slLarge = true → s.len ≠ 0 →
    s.carries 0 (x.bits.take (8 * s.len.toNat)) → 8 * s.len.toNat < x.bits.length →
    let N := 8 * s.len.toNat
    let pW := (bitsOf x.front).length
    let pH := pW + (ueBits x.wm1).length
    let pF := pH + (ueBits x.hm1).length
    let c := x.cropOr0
    let pL := pF + (bitsOf x.frameFlags).length + 1
    let pR := pL + (ueBits c.cl).length
    let pT := pR + (ueBits c.cr).length
    let pB := pT + (ueBits c.ct).length
    let W : Int := ((cutCode (N - pW) x.wm1 : Int) + 1) * 16 -
      2 * ((cutCode (N - pL) c.cl : Int) + cutCode (N - pR) c.cr)
    let H : Int := (if x.fmo = true ∧ pF < N then 1 else 2) *
      ((cutCode (N - pH) x.hm1 : Int) + 1) * 16 -
      2 * ((cutCode (N - pT) c.ct : Int) + cutCode (N - pB) c.cb)
    (s.mode = .strict → exec .h264sps s = .next { s.ended with
      pos := BitVec.ofNat 64 (strictStop N x.elements)
      lenbits := BitVec.ofNat 64 N
      status := { s.status.completed false false .absent with sticky := true } }) ∧
    (s.mode = .lenient → exec .h264sps s = .next { s.ended with
      pos := BitVec.ofNat 64 (lenientStop N x.elements)
      lenbits := BitVec.ofNat 64 N
      outWidth := BitVec.ofInt 64 W
      outHeight := BitVec.ofInt 64 H
      status := { s.status.completed true false .none with sticky := absentIn N x.elements } })

/-- R169: stopping a loop of se() reads once POS ≥ LENBITS with STICKY = 1 gives the same result as
running all its iterations. -/
def Obligations.EarlyStopIsTheWholeLoop : Prop :=
  ∀ (v : View) (m : Mode) (n : Nat) (c : Cur),
    repeatSe v m n c = (Nat.repeat (fun w => rdSe v m >>= fun _ => w) n (pure () : Walk Unit)) c

/-! ### VP9KEY and VP9PROPS -/

/-- R190, R191: VP9KEY fails with INPUT on an empty buffer; on any other its outcome follows from the
first bits, under either policy. `k` is 1 for profile 3, whose reserved bit is skipped. -/
def Obligations.Vp9keyReadsThePreamble : Prop :=
  decode 0x00000012#32 = .ok .vp9key ∧
  (∀ s : State, s.len = 0 → exec .vp9key s =
    .next { s.ended with status := s.status.completed false false .input }) ∧
  ∀ s : State, s.disturbed = false → s.len ≠ 0 →
    let k := if s.field 2 2 = 3 then 1 else 0
    let t : State := { s.ended with lenbits := BitVec.ofNat 64 (8 * s.len.toNat) }
    let st (ok : Bool) (e : ErrCode) : Status :=
      { s.status.completed ok false e with sticky := false }
    (s.field 0 2 ≠ 2 → exec .vp9key s = .next { t with pos := 2, status := st false .marker }) ∧
    (s.field 0 2 = 2 → s.field (4 + k) 1 = 1 → exec .vp9key s =
      .next { t with pos := BitVec.ofNat 64 (5 + k), status := st false .showExisting }) ∧
    (s.field 0 2 = 2 → s.field (4 + k) 1 = 0 → exec .vp9key s = .next { t with
      pos := BitVec.ofNat 64 (6 + k)
      outVp9 := { s.outVp9 with key := decide (s.field (5 + k) 1 = 0) }
      status := st true .none })

/-- R190 to R200: on a buffer that begins with the bits of a key-frame header, VP9PROPS reads it to its
last size field and writes the frame's properties, under either policy. -/
def Obligations.Vp9propsReadsTheHeaderSyntax : Prop :=
  ∀ (s : State) (x : Vp9Header), s.disturbed = false → x.legal = true →
    s.carries 0 x.bits → x.bits.length ≤ 8 * s.len.toNat →
    exec .vp9props s = .next { s.ended with
      pos := BitVec.ofNat 64 x.bits.length
      lenbits := BitVec.ofNat 64 (8 * s.len.toNat)
      outWidth := BitVec.ofNat 64 x.w
      outHeight := BitVec.ofNat 64 x.h
      outDwidth := BitVec.ofNat 32 x.display.1
      outDheight := BitVec.ofNat 32 x.display.2
      outVp9 :=
        { bitDepth := BitVec.ofNat 4 x.bitDepth
          colorSpace := BitVec.ofNat 3 x.cs
          ssx := if x.cs = 7 then false else if x.profile % 2 = 1 then x.ssx else true
          ssy := if x.cs = 7 then false else if x.profile % 2 = 1 then x.ssy else true
          fullSwing := if x.cs = 7 then s.params.srgbFullSwing else x.fs
          profile := BitVec.ofNat 2 x.profile
          key := true }
      status := { s.status.completed true false .none with sticky := false } }

/-- R190, R193, R231: the structural failures of VP9PROPS in stream order, with POS after the field
checked, under either policy, on every buffer that is not empty and, for the sync code, holds it whole.
`k` is 1 for profile 3. -/
def Obligations.Vp9propsRejectsBadHeaders : Prop :=
  ∀ s : State, s.disturbed = false → s.len ≠ 0 →
    let k := if s.field 2 2 = 3 then 1 else 0
    let t : State := { s.ended with lenbits := BitVec.ofNat 64 (8 * s.len.toNat) }
    let st (e : ErrCode) : Status := { s.status.completed false false e with sticky := false }
    (s.field 0 2 ≠ 2 → exec .vp9props s = .next { t with pos := 2, status := st .marker }) ∧
    (s.field 0 2 = 2 → s.field (4 + k) 1 = 1 → exec .vp9props s =
      .next { t with pos := BitVec.ofNat 64 (5 + k), status := st .showExisting }) ∧
    (s.field 0 2 = 2 → s.field (4 + k) 1 = 0 → s.field (5 + k) 1 = 1 → exec .vp9props s =
      .next { t with pos := BitVec.ofNat 64 (6 + k), status := st .notKeyframe }) ∧
    (s.field 0 2 = 2 → s.field (4 + k) 1 = 0 → s.field (5 + k) 1 = 0 →
      32 + k ≤ 8 * s.len.toNat → s.field (8 + k) 24 ≠ 0x498342 → exec .vp9props s =
        .next { t with pos := BitVec.ofNat 64 (32 + k), status := st .sync })

/-- R197: the sRGB colour space in profile 0 or 2 is COLOR, after the reserved bit. -/
def Obligations.Vp9propsRejectsSrgbInEvenProfiles : Prop :=
  ∀ s : State, s.disturbed = false → 5 ≤ s.len.toNat → s.field 0 2 = 2 → s.field 2 1 = 0 →
    s.field 4 1 = 0 → s.field 5 1 = 0 → s.field 8 24 = 0x498342 →
    s.field (32 + s.field 3 1) 3 = 7 →
    exec .vp9props s = .next { s.ended with
      pos := BitVec.ofNat 64 (36 + s.field 3 1)
      lenbits := BitVec.ofNat 64 (8 * s.len.toNat)
      status := { s.status.completed false false .color with sticky := false } }

/-- R268: VP9KEY consumes at most 7 stream bits and VP9PROPS at most 113. -/
def Obligations.Vp9ConsumesBoundedBits : Prop :=
  ∀ s t : State, s.len ≠ 0 → (exec .vp9key s = .next t → t.pos.toNat ≤ 7) ∧
    (exec .vp9props s = .next t → t.pos.toNat ≤ 113)

/-- R101, R106 in VP9PROPS: a buffer that ends inside a key-frame header, at any byte. Under the strict
policy the command fails, ABSENT, with POS in front of the first element that is not whole and STICKY
set. Under the lenient one an element cut inside reads zero-filled, an absent one reads 0 and sets STICKY:
on at most 3 bytes the sync code is wrong (R193); on 4, where its last bit may be missing and is 0, the
colour configuration reads as zeros; from 5 on it is whole. The sizes are those read plus 1 (R199). -/
def Obligations.Vp9propsOnACutHeader : Prop :=
  ∀ (s : State) (x : Vp9Header), s.disturbed = false → x.legal = true → s.len ≠ 0 →
    s.carries 0 (x.bits.take (8 * s.len.toNat)) → 8 * s.len.toNat < x.bits.length →
    let N := 8 * s.len.toNat
    let p := (bitsOf x.front).length
    let w := cutField 16 (N - p) (x.w - 1) + 1
    let h := cutField 16 (N - (p + 16)) (x.h - 1) + 1
    let d : Nat × Nat :=
      match x.render with
      | none => (w, h)
      | some (dw, dh) =>
        if p + 32 < N then
          (cutField 16 (N - (p + 33)) (dw - 1) + 1, cutField 16 (N - (p + 49)) (dh - 1) + 1)
        else (w, h)
    let odd := decide (x.profile % 2 = 1)
    let t : State := { s.ended with lenbits := BitVec.ofNat 64 N }
    (s.mode = .strict → exec .vp9props s = .next { t with
      pos := BitVec.ofNat 64 (strictStop N x.elements)
      status := { s.status.completed false false .absent with sticky := true } }) ∧
    (s.mode = .lenient → s.len.toNat ≤ 3 → exec .vp9props s = .next { t with
      pos := BitVec.ofNat 64 (lenientStop N x.start)
      status := { s.status.completed false false .sync with sticky := absentIn N x.start } }) ∧
    (s.mode = .lenient → 4 ≤ s.len.toNat → exec .vp9props s = .next { t with
      pos := BitVec.ofNat 64 (lenientStop N x.elements)
      outWidth := BitVec.ofNat 64 w
      outHeight := BitVec.ofNat 64 h
      outDwidth := BitVec.ofNat 32 d.1
      outDheight := BitVec.ofNat 32 d.2
      outVp9 :=
        if s.len.toNat = 4 then
          { bitDepth := if 2 ≤ x.profile then 10 else 8
            colorSpace := 0, ssx := !odd, ssy := !odd, fullSwing := false
            profile := BitVec.ofNat 2 x.profile
            key := true }
        else
          { bitDepth := BitVec.ofNat 4 x.bitDepth
            colorSpace := BitVec.ofNat 3 x.cs
            ssx := if x.cs = 7 then false else if odd then x.ssx else true
            ssy := if x.cs = 7 then false else if odd then x.ssy else true
            fullSwing := if x.cs = 7 then s.params.srgbFullSwing else x.fs
            profile := BitVec.ofNat 2 x.profile
            key := true }
      status := { s.status.completed true false .none with sticky := absentIn N x.elements } })
end

