-- ==== Sys2Proof/Laws/Reads.lean ====
section
/-! SUPPORT. What each reading function of the cursor can do, once: ReadBits, CLZ, UE, SE and Align
(40_cursor.md R101 to R105). Proofs cite these and do not unfold the functions. -/

namespace Sys2Proof.Machine

/-! ### Bits and fields -/

theorem streamBit_lt_two (v : View) (e k : Nat) : streamBit v e k < 2 :=
  Nat.mod_lt _ (by decide)

/-- Where no agent disturbed the buffer, a byte does not depend on which read it is. -/
theorem buf_serial {v : View} (h : v.disturbed = false) (e e' i : Nat) : buf v e i = buf v e' i := by
  simp [buf, h]

theorem streamBit_serial {v : View} (h : v.disturbed = false) (e e' k : Nat) :
    streamBit v e k = streamBit v e' k := by
  simp only [streamBit, buf_serial h e e']

theorem streamField_serial {v : View} (h : v.disturbed = false) (e e' p n : Nat) :
    streamField v e p n = streamField v e' p n := by
  induction n with
  | zero => rfl
  | succ n ih => simp only [streamField, ih, streamBit_serial h (e + n) (e' + n)]

/-- A field of n bits is a number below 2^n (40_cursor.md R101). -/
theorem streamField_lt (v : View) (e p n : Nat) : streamField v e p n < 2 ^ n := by
  induction n with
  | zero => simp [streamField]
  | succ n ih =>
    have := streamBit_lt_two v (e + n) (p + n)
    simp only [streamField, Nat.pow_succ]
    omega

/-- A field is its first bits, shifted, and its last bits (00_scope.md R9). -/
theorem streamField_add (v : View) (e p a b : Nat) :
    streamField v e p (a + b) =
      streamField v e p a * 2 ^ b + streamField v (e + a) (p + a) b := by
  induction b with
  | zero => simp [streamField]
  | succ b ih =>
    rw [← Nat.add_assoc, streamField, ih, streamField, Nat.pow_succ, Nat.add_assoc e, Nat.add_assoc p]
    ring

/-- A field as the sum of 00_scope.md R9. -/
theorem streamField_eq_sum (v : View) (e p n : Nat) :
    streamField v e p n =
      ∑ i ∈ Finset.range n, streamBit v (e + i) (p + i) * 2 ^ (n - 1 - i) := by
  induction n with
  | zero => simp [streamField]
  | succ n ih =>
    rw [streamField, ih, Finset.sum_range_succ, Finset.mul_sum]
    congr 1
    · refine Finset.sum_congr rfl fun i hi => ?_
      have : n + 1 - 1 - i = (n - 1 - i) + 1 := by
        have := Finset.mem_range.mp hi; omega
      rw [this, Nat.pow_succ]; ring
    · simp

/-- A stretch of zero bits is the field 0. -/
theorem streamField_zero {v : View} {e p n : Nat} (h : ∀ i < n, streamBit v (e + i) (p + i) = 0) :
    streamField v e p n = 0 := by
  induction n with
  | zero => rfl
  | succ n ih => simp [streamField, h n (by omega), ih fun i hi => h i (by omega)]

/-- Two views that agree on the bits give the same field. -/
theorem streamField_congr {v w : View} {e p n : Nat}
    (h : ∀ i < n, streamBit v (e + i) (p + i) = streamBit w (e + i) (p + i)) :
    streamField v e p n = streamField w e p n := by
  induction n with
  | zero => rfl
  | succ n ih => simp [streamField, h n (by omega), ih fun i hi => h i (by omega)]

/-! ### Moving the cursor -/

@[simp] theorem moveTo_pos (c : Cur) (p : Nat) : (c.moveTo p).pos = p := rfl
@[simp] theorem moveTo_lenbits (c : Cur) (p : Nat) : (c.moveTo p).lenbits = c.lenbits := rfl
@[simp] theorem moveTo_sticky (c : Cur) (p : Nat) : (c.moveTo p).sticky = c.sticky := rfl
@[simp] theorem moveTo_serial (c : Cur) (p : Nat) : (c.moveTo p).serial = c.serial := rfl

@[simp] theorem markSticky_pos (c : Cur) : c.markSticky.pos = c.pos := rfl
@[simp] theorem markSticky_lenbits (c : Cur) : c.markSticky.lenbits = c.lenbits := rfl
@[simp] theorem markSticky_sticky (c : Cur) : c.markSticky.sticky = true := rfl
@[simp] theorem markSticky_serial (c : Cur) : c.markSticky.serial = c.serial := rfl

/-! ### ReadBits (R101) -/

/-- A width outside 1..64 is ABSENT and POS is unchanged. -/
theorem readBits_badWidth {n : Nat} (h : n < 1 ∨ 64 < n) (v : View) (m : Mode) (c : Cur) :
    readBits v m n c = (none, c) := by
  unfold readBits; rw [if_pos h]

/-- With nothing remaining a read is ABSENT and POS is unchanged. -/
theorem readBits_exhausted {c : Cur} (h : c.lenbits ≤ c.pos) (v : View) (m : Mode) (n : Nat) :
    readBits v m n c = (none, c) := by
  unfold readBits
  by_cases hn : n < 1 ∨ 64 < n
  · rw [if_pos hn]
  · rw [if_neg hn, if_pos h]

/-- A full read. -/
theorem readBits_full {n : Nat} {c : Cur} (hn : 1 ≤ n) (hn' : n ≤ 64) (h : c.pos + n ≤ c.lenbits)
    (v : View) (m : Mode) :
    readBits v m n c =
      (some (streamField v c.serial c.pos n), { c with pos := c.pos + n, serial := c.serial + n }) := by
  have h1 : ¬(n < 1 ∨ 64 < n) := by omega
  have h2 : ¬c.lenbits ≤ c.pos := by omega
  have h3 : n ≤ c.lenbits - c.pos := by omega
  unfold readBits; rw [if_neg h1, if_neg h2, if_pos h3]

/-- A strict short read is ABSENT and POS is unchanged. -/
theorem readBits_short_strict {n : Nat} {c : Cur} (h : c.lenbits < c.pos + n) (v : View) :
    readBits v .strict n c = (none, c) := by
  unfold readBits
  split
  · rfl
  · split
    · rfl
    · have h3 : ¬n ≤ c.lenbits - c.pos := by omega
      simp [h3]

/-- A lenient short read zero-fills the low bits and advances POS by the whole width. -/
theorem readBits_short_lenient {n : Nat} {c : Cur} (hn' : n ≤ 64) (hr : c.pos < c.lenbits)
    (h : c.lenbits < c.pos + n) (v : View) :
    readBits v .lenient n c =
      (some (streamField v c.serial c.pos (c.lenbits - c.pos) * 2 ^ (n - (c.lenbits - c.pos))),
        { c with pos := c.pos + n, serial := c.serial + (c.lenbits - c.pos) }) := by
  have h1 : ¬(n < 1 ∨ 64 < n) := by omega
  have h2 : ¬c.lenbits ≤ c.pos := by omega
  have h3 : ¬n ≤ c.lenbits - c.pos := by omega
  unfold readBits; rw [if_neg h1, if_neg h2, if_neg h3]

/-- Everything ReadBits can do. -/
theorem readBits_cases (v : View) (m : Mode) (n : Nat) (c : Cur) :
    (readBits v m n c = (none, c) ∧
      ((n < 1 ∨ 64 < n) ∨ c.lenbits ≤ c.pos ∨ (m = .strict ∧ c.lenbits < c.pos + n))) ∨
    (1 ≤ n ∧ n ≤ 64 ∧ c.pos + n ≤ c.lenbits ∧ readBits v m n c =
      (some (streamField v c.serial c.pos n),
        { c with pos := c.pos + n, serial := c.serial + n })) ∨
    (1 ≤ n ∧ n ≤ 64 ∧ c.pos < c.lenbits ∧ c.lenbits < c.pos + n ∧ m = .lenient ∧
      readBits v m n c =
        (some (streamField v c.serial c.pos (c.lenbits - c.pos) * 2 ^ (n - (c.lenbits - c.pos))),
          { c with pos := c.pos + n, serial := c.serial + (c.lenbits - c.pos) })) := by
  by_cases h1 : n < 1 ∨ 64 < n
  · exact .inl ⟨readBits_badWidth h1 v m c, .inl h1⟩
  by_cases h2 : c.lenbits ≤ c.pos
  · exact .inl ⟨readBits_exhausted h2 v m n, .inr (.inl h2)⟩
  by_cases h3 : c.pos + n ≤ c.lenbits
  · exact .inr (.inl ⟨by omega, by omega, h3, readBits_full (by omega) (by omega) h3 v m⟩)
  cases m with
  | strict => exact .inl ⟨readBits_short_strict (by omega) v, .inr (.inr ⟨rfl, by omega⟩)⟩
  | lenient =>
    exact .inr (.inr ⟨by omega, by omega, by omega, by omega, rfl,
      readBits_short_lenient (by omega) (by omega) (by omega) v⟩)

/-- A present value is below 2^n, and LENBITS and STICKY never change. -/
theorem readBits_bounds (v : View) (m : Mode) (n : Nat) (c : Cur) :
    (∀ x, (readBits v m n c).1 = some x → x < 2 ^ n) ∧
    (readBits v m n c).2.lenbits = c.lenbits ∧ (readBits v m n c).2.sticky = c.sticky ∧
    ((readBits v m n c).2.pos = c.pos ∨
      (c.pos < c.lenbits ∧ n ≤ 64 ∧ (readBits v m n c).2.pos = c.pos + n)) := by
  rcases readBits_cases v m n c with ⟨h, -⟩ | ⟨h1, h2, h3, h⟩ | ⟨h1, h2, h3, h4, -, h⟩
  · simp [h]
  · refine ⟨?_, by simp [h], by simp [h], .inr ⟨by omega, h2, by simp [h]⟩⟩
    rintro x hx
    rw [h] at hx; cases hx
    exact streamField_lt ..
  · refine ⟨?_, by simp [h], by simp [h], .inr ⟨by omega, h2, by simp [h]⟩⟩
    rintro x hx
    rw [h] at hx; cases hx
    have hlt := streamField_lt v c.serial c.pos (c.lenbits - c.pos)
    calc _ < 2 ^ (c.lenbits - c.pos) * 2 ^ (n - (c.lenbits - c.pos)) :=
          Nat.mul_lt_mul_of_pos_right hlt (Nat.two_pow_pos _)
      _ = 2 ^ n := by rw [← Nat.pow_add]; congr 1; omega

/-! ### LZ8 (10_state.md R32) -/

/-- LZ8 counts the leading zeros of a byte: the bit it stops at is one, and those above are zero. -/
theorem lz8_spec (b : Byte) :
    (b = 0 → lz8 b = 8) ∧ (b ≠ 0 → lz8 b < 8 ∧ b.toNat / 2 ^ (7 - lz8 b) % 2 = 1) ∧
    ∀ j < lz8 b, b.toNat / 2 ^ (7 - j) % 2 = 0 := by
  revert b; decide

/-- Masking off the first `s` bits clears them and keeps the others. -/
theorem mask_bit (b : Byte) (s : Nat) (hs : s < 8) : ∀ j < 8,
    (b &&& BitVec.ofNat 8 (0xFF / 2 ^ s)).toNat / 2 ^ (7 - j) % 2 =
      if j < s then 0 else b.toNat / 2 ^ (7 - j) % 2 := by
  revert b s; decide

/-! ### CLZ (R102) -/

/-- CLZ moves neither POS nor LENBITS nor STICKY. -/
theorem clz_cursor (v : View) (c : Cur) :
    (clz v c).2.pos = c.pos ∧ (clz v c).2.lenbits = c.lenbits ∧ (clz v c).2.sticky = c.sticky := by
  unfold clz
  split
  · exact ⟨rfl, rfl, rfl⟩
  · simp only
    split <;> exact ⟨rfl, rfl, rfl⟩

/-- CLZ at or past the end is 0 and reads nothing. -/
theorem clz_exhausted {c : Cur} (h : c.lenbits ≤ c.pos) (v : View) : clz v c = (0, c) := by
  simp [clz, h]

/-- The byte loop counts no further than the bytes it was given. -/
theorem clzBytes_le (v : View) (e i z left : Nat) :
    z ≤ (clzBytes v e i z left).1 ∧ (clzBytes v e i z left).1 ≤ z + 8 * left := by
  induction left generalizing e i z with
  | zero => simp [clzBytes]
  | succ left ih =>
    simp only [clzBytes]
    split
    · rename_i hb
      have := ((lz8_spec (buf v e i)).2.1 hb).1
      simp only; omega
    · have := ih (e + 1) (i + 1) (z + 8)
      simp only; omega

/-- "The result is at most `LENBITS - POS`" (R102), LENBITS being a multiple of 8. -/
theorem clz_le (v : View) {c : Cur} (h8 : c.lenbits % 8 = 0) :
    (clz v c).1 ≤ c.lenbits - c.pos := by
  unfold clz
  split
  · simp
  · rename_i hlt
    simp only
    split
    · rename_i hb
      have := ((lz8_spec _).2.1 hb).1
      simp only; omega
    · have := clzBytes_le v (c.serial + 1) (c.pos / 8 + 1) (8 - c.pos % 8) (c.lenbits / 8 - (c.pos / 8 + 1))
      simp only; omega

end Sys2Proof.Machine
end

