-- ==== Sys2Proof/Laws/Codes.lean ====
section
/-! SUPPORT. CLZ as a count of stream bits, and what the reading functions answer on a stream that
holds a code of 30_encoding.md (R89, R90, R92), the buffer being undisturbed. -/

namespace Sys2Proof.Machine

/-! ### CLZ counts stream bits (R102) -/

/-- The stream bits of buffer byte `i`. -/
theorem streamBit_byte (v : View) (e i : Nat) {j : Nat} (hj : j < 8) :
    streamBit v e (8 * i + j) = (buf v e i).toNat / 2 ^ (7 - j) % 2 := by
  have h1 : (8 * i + j) / 8 = i := by omega
  have h2 : (8 * i + j) % 8 = j := by omega
  simp [streamBit, h1, h2]

/-- What the byte loop answers: its zeros, and the one bit it stopped at. -/
theorem clzBytes_spec {v : View} (hv : v.disturbed = false) (e i z left : Nat) :
    (∀ j, z + j < (clzBytes v e i z left).1 → streamBit v 0 (8 * i + j) = 0) ∧
    ((clzBytes v e i z left).1 < z + 8 * left →
      streamBit v 0 (8 * i + ((clzBytes v e i z left).1 - z)) = 1) := by
  induction left generalizing e i z with
  | zero =>
    refine ⟨fun j hj => ?_, fun h => ?_⟩ <;> simp only [clzBytes] at * <;> omega
  | succ left ih =>
    have hs := lz8_spec (buf v e i)
    have hbit : ∀ j < 8, streamBit v 0 (8 * i + j) = (buf v e i).toNat / 2 ^ (7 - j) % 2 :=
      fun j hj => by rw [streamBit_byte v 0 i hj, buf_serial hv 0 e]
    by_cases hb : buf v e i = 0
    · have h0 : clzBytes v e i z (left + 1) =
          ((clzBytes v (e + 1) (i + 1) (z + 8) left).1,
            (clzBytes v (e + 1) (i + 1) (z + 8) left).2 + 1) := by simp [clzBytes, hb]
      rw [h0]
      have ⟨ih1, ih2⟩ := ih (e + 1) (i + 1) (z + 8)
      have hle := (clzBytes_le v (e + 1) (i + 1) (z + 8) left).1
      refine ⟨fun j hj => ?_, fun h => ?_⟩
      · by_cases hj8 : j < 8
        · rw [hbit j hj8]; exact hs.2.2 j (by rw [hs.1 hb]; exact hj8)
        · have := ih1 (j - 8) (by simp only at hj; omega)
          rwa [show 8 * (i + 1) + (j - 8) = 8 * i + j by omega] at this
      · have := ih2 (by simp only at h; omega)
        simp only
        rwa [show 8 * (i + 1) + ((clzBytes v (e + 1) (i + 1) (z + 8) left).1 - (z + 8)) =
          8 * i + ((clzBytes v (e + 1) (i + 1) (z + 8) left).1 - z) by omega] at this
    · have h0 : clzBytes v e i z (left + 1) = (z + lz8 (buf v e i), 1) := by
        simp only [clzBytes]; rw [if_pos hb]
      rw [h0]
      have ⟨hlt, hone⟩ := hs.2.1 hb
      refine ⟨fun j hj => ?_, fun _ => ?_⟩
      · simp only at hj
        rw [hbit j (by omega)]; exact hs.2.2 j (by omega)
      · simp only [Nat.add_sub_cancel_left]
        rw [hbit _ hlt]; exact hone

/-- CLZ counts the zero bits from POS up to the first one bit or up to LENBITS (R102). -/
theorem clz_spec {v : View} (hv : v.disturbed = false) {c : Cur} (h8 : c.lenbits % 8 = 0) :
    (∀ j < (clz v c).1, streamBit v 0 (c.pos + j) = 0) ∧
    (c.pos + (clz v c).1 < c.lenbits → streamBit v 0 (c.pos + (clz v c).1) = 1) := by
  by_cases hlt : c.lenbits ≤ c.pos
  · rw [clz_exhausted hlt]
    exact ⟨fun j hj => absurd hj (by simp), fun h => absurd h (by simp only; omega)⟩
  have hpos : 8 * (c.pos / 8) + c.pos % 8 = c.pos := by omega
  have hbit : ∀ j < 8, streamBit v 0 (8 * (c.pos / 8) + j) =
      (buf v c.serial (c.pos / 8)).toNat / 2 ^ (7 - j) % 2 :=
    fun j hj => by rw [streamBit_byte v 0 _ hj, buf_serial hv 0 c.serial]
  have hmask := mask_bit (buf v c.serial (c.pos / 8)) (c.pos % 8) (by omega)
  by_cases hb : buf v c.serial (c.pos / 8) &&& BitVec.ofNat 8 (0xFF / 2 ^ (c.pos % 8)) = 0
  · have h0 : (clz v c).1 = (clzBytes v (c.serial + 1) (c.pos / 8 + 1) (8 - c.pos % 8)
        (c.lenbits / 8 - (c.pos / 8 + 1))).1 := by simp [clz, hlt, hb]
    have hzero : ∀ j < 8, c.pos % 8 ≤ j → streamBit v 0 (8 * (c.pos / 8) + j) = 0 := by
      intro j hj hsj
      have := hmask j hj
      rw [hb, if_neg (by omega)] at this
      rw [hbit j hj, ← this]; simp
    have hle := clzBytes_le v (c.serial + 1) (c.pos / 8 + 1) (8 - c.pos % 8)
      (c.lenbits / 8 - (c.pos / 8 + 1))
    have ⟨hz, ho⟩ := clzBytes_spec hv (c.serial + 1) (c.pos / 8 + 1) (8 - c.pos % 8)
      (c.lenbits / 8 - (c.pos / 8 + 1))
    rw [h0]
    refine ⟨fun j hj => ?_, fun h => ?_⟩
    · by_cases hj8 : c.pos % 8 + j < 8
      · have := hzero (c.pos % 8 + j) hj8 (by omega)
        rwa [← Nat.add_assoc, hpos] at this
      · have := hz (c.pos % 8 + j - 8) (by omega)
        rwa [show 8 * (c.pos / 8 + 1) + (c.pos % 8 + j - 8) = c.pos + j by omega] at this
    · have := ho (by omega)
      rwa [show ∀ r, 8 - c.pos % 8 ≤ r →
        8 * (c.pos / 8 + 1) + (r - (8 - c.pos % 8)) = c.pos + r by intro r hr; omega] at this
      exact hle.1
  · have h0 : (clz v c).1 = lz8 (buf v c.serial (c.pos / 8) &&&
        BitVec.ofNat 8 (0xFF / 2 ^ (c.pos % 8))) - c.pos % 8 := by
      unfold clz; rw [if_neg hlt]; simp only; rw [if_pos hb]
    have hs := lz8_spec (buf v c.serial (c.pos / 8) &&& BitVec.ofNat 8 (0xFF / 2 ^ (c.pos % 8)))
    generalize buf v c.serial (c.pos / 8) &&& BitVec.ofNat 8 (0xFF / 2 ^ (c.pos % 8)) = b at *
    have ⟨hl8, hone⟩ := hs.2.1 hb
    have hsl : c.pos % 8 ≤ lz8 b := by
      by_contra hcon
      have := hmask (lz8 b) hl8
      rw [if_pos (by omega), hone] at this
      exact absurd this (by decide)
    rw [h0]
    refine ⟨fun j hj => ?_, fun _ => ?_⟩
    · have h1 := hs.2.2 (c.pos % 8 + j) (by omega)
      rw [hmask _ (by omega), if_neg (by omega), ← hbit _ (by omega), ← Nat.add_assoc, hpos] at h1
      exact h1
    · have h1 := hmask (lz8 b) hl8
      rw [hone, if_neg (by omega), ← hbit _ hl8] at h1
      rw [show c.pos + (lz8 b - c.pos % 8) = 8 * (c.pos / 8) + lz8 b by omega]
      exact h1.symm

/-- The count is the number of zeros in front of the first one bit, or of the end. -/
theorem clz_eq {v : View} (hv : v.disturbed = false) {c : Cur} (h8 : c.lenbits % 8 = 0) {z : Nat}
    (hz : ∀ j < z, streamBit v 0 (c.pos + j) = 0) (hle : c.pos + z ≤ c.lenbits)
    (hend : c.pos + z < c.lenbits → streamBit v 0 (c.pos + z) = 1) : (clz v c).1 = z := by
  have ⟨h1, h2⟩ := clz_spec hv h8
  have h3 := clz_le v h8
  rcases Nat.lt_trichotomy (clz v c).1 z with h | h | h
  · have := h2 (by omega)
    rw [hz _ h] at this; exact absurd this (by decide)
  · exact h
  · have := h1 z h
    rw [hend (by omega)] at this; exact absurd this (by decide)

/-! ### A stream that holds given bits -/

/-- The view's stream holds `bits` from position `p` on. -/
abbrev View.holds (v : View) (p : Nat) (bits : List Bool) : Prop :=
  ∀ i, (h : i < bits.length) → streamBit v 0 (p + i) = (bits[i]).toNat

theorem View.holds_nil (v : View) (p : Nat) : v.holds p [] := fun _ h => absurd h (by simp)

theorem View.holds_append {v : View} {p : Nat} {a b : List Bool} :
    v.holds p (a ++ b) ↔ v.holds p a ∧ v.holds (p + a.length) b := by
  refine ⟨fun h => ⟨fun i hi => ?_, fun i hi => ?_⟩, fun ⟨ha, hb⟩ i hi => ?_⟩
  · have := h i (by simp; omega)
    rwa [List.getElem_append_left hi] at this
  · have := h (a.length + i) (by simpa using hi)
    rw [List.getElem_append_right (by omega)] at this
    simpa [Nat.add_assoc] using this
  · by_cases hlt : i < a.length
    · rw [List.getElem_append_left hlt]; exact ha i hlt
    · have := hb (i - a.length) (by simp at hi; omega)
      rw [List.getElem_append_right (by omega)]
      rwa [show p + a.length + (i - a.length) = p + i by omega] at this

theorem View.holds_cons {v : View} {p : Nat} {x : Bool} {b : List Bool} :
    v.holds p (x :: b) ↔ streamBit v 0 p = x.toNat ∧ v.holds (p + 1) b := by
  rw [show x :: b = [x] ++ b from rfl, View.holds_append]
  refine and_congr ⟨fun h => by simpa using h 0 (by simp), fun h i hi => ?_⟩ Iff.rfl
  have : i = 0 := by simp at hi; omega
  subst this; simpa using h

@[simp] theorem uBits_length (n x : Nat) : (uBits n x).length = n := by
  induction n with
  | zero => rfl
  | succ n ih => simp [uBits, ih]

/-- A field over the bits of `x` is `x` modulo 2^n (R89). -/
theorem streamField_uBits {v : View} (hv : v.disturbed = false) {n x p : Nat} (e : Nat)
    (h : v.holds p (uBits n x)) : streamField v e p n = x % 2 ^ n := by
  induction n generalizing p e with
  | zero => simp [streamField, Nat.mod_one]
  | succ n ih =>
    rw [uBits, View.holds_cons] at h
    rw [Nat.add_comm n 1, streamField_add, ih (e + 1) h.2]
    have h1 : streamField v e p 1 = (x.testBit n).toNat := by
      simp [streamField, streamBit_serial hv e 0, h.1]
    rw [h1, Nat.toNat_testBit, Nat.add_comm 1 n, Nat.pow_succ, Nat.mod_mul]
    ring

/-- Reading a fixed-length field that the stream holds (R89, R101). -/
theorem readBits_uBits {v : View} (hv : v.disturbed = false) (m : Mode) {n x : Nat} {c : Cur}
    (hn : 1 ≤ n) (hn' : n ≤ 64) (hx : x < 2 ^ n) (h : v.holds c.pos (uBits n x))
    (hlen : c.pos + n ≤ c.lenbits) :
    readBits v m n c = (some x, { c with pos := c.pos + n, serial := c.serial + n }) := by
  rw [readBits_full hn hn' hlen, streamField_uBits hv _ h, Nat.mod_eq_of_lt hx]

/-- The codeNum's length (R90). -/
theorem ueBits_length (u : Nat) : (ueBits u).length = 2 * Nat.log2 (u + 1) + 1 := by
  simp [ueBits]; omega

/-- UE answers the codeNum of the code the stream holds, and POS moves by the code's length (R90,
R103), under either policy. -/
theorem ue_ueBits {v : View} (hv : v.disturbed = false) (m : Mode) {u : Nat} {c : Cur}
    (hu : ueLegal u = true) (h8 : c.lenbits % 8 = 0) (h : v.holds c.pos (ueBits u))
    (hlen : c.pos + (ueBits u).length ≤ c.lenbits) :
    ∃ e, ue v m c = (some u, { c with pos := c.pos + (ueBits u).length, serial := e }) := by
  have hu' : u ≤ 2 ^ 64 - 2 := by simpa [ueLegal] using hu
  rw [ueBits_length] at hlen ⊢
  have hz64 : Nat.log2 (u + 1) < 64 := (Nat.log2_lt (by omega)).mpr (by omega)
  have hlo : 2 ^ Nat.log2 (u + 1) ≤ u + 1 := Nat.log2_self_le (by omega)
  have hhi : u + 1 < 2 ^ (Nat.log2 (u + 1) + 1) := Nat.lt_log2_self
  unfold ueBits at h
  generalize Nat.log2 (u + 1) = z at *
  simp only at h
  rw [View.holds_append, View.holds_cons] at h
  simp only [List.length_replicate] at h
  obtain ⟨hzeros, hone, hinfo⟩ := h
  have hclz : (clz v c).1 = z :=
    clz_eq hv h8 (fun j hj => by have := hzeros j (by simpa using hj); simpa using this) (by omega)
      (fun _ => by simpa using hone)
  have ⟨hcp, hcl, hcs⟩ := clz_cursor v c
  have hfull := readBits_full (v := v) (m := m) (n := z + 1)
    (c := (clz v c).2.moveTo (c.pos + z)) (by omega) (by omega)
    (by simp only [moveTo_pos, moveTo_lenbits, hcl]; omega)
  have hval : streamField v (clz v c).2.serial (c.pos + z) (z + 1) = u + 1 := by
    rw [Nat.add_comm z 1, streamField_add, streamField_uBits hv _ hinfo,
      Nat.mod_eq_of_lt (by rw [Nat.pow_succ] at hhi; omega)]
    have : streamField v (clz v c).2.serial (c.pos + z) 1 = 1 := by
      simp [streamField, streamBit_serial hv _ 0, hone]
    rw [this]; omega
  refine ⟨(clz v c).2.serial + (z + 1), ?_⟩
  simp only [ue, hclz]
  rw [hfull]
  simp only [moveTo_pos, moveTo_lenbits, moveTo_sticky, moveTo_serial, hval, hcl, hcs]
  rw [if_pos (by omega)]
  simp only [Nat.add_sub_cancel, Prod.mk.injEq, Cur.mk.injEq, true_and, and_true]
  omega

/-- seCodeNum inverts the signed mapping (R92). -/
theorem seValue_seCodeNum (k : Int) : seValue (seCodeNum k) = k := by
  unfold seValue seCodeNum; split <;> split <;> omega

theorem ueLegal_seCodeNum {k : Int} (h : seLegal k = true) : ueLegal (seCodeNum k) = true := by
  simp only [seLegal, Bool.and_eq_true, decide_eq_true_eq] at h
  unfold ueLegal seCodeNum
  rw [decide_eq_true_eq]
  split <;> omega

/-- SE answers the signed value of the code the stream holds (R92, R104). -/
theorem se_seBits {v : View} (hv : v.disturbed = false) (m : Mode) {k : Int} {c : Cur}
    (hk : seLegal k = true) (h8 : c.lenbits % 8 = 0) (h : v.holds c.pos (seBits k))
    (hlen : c.pos + (seBits k).length ≤ c.lenbits) :
    ∃ e, se v m c = (some k, { c with pos := c.pos + (seBits k).length, serial := e }) := by
  obtain ⟨e, he⟩ := ue_ueBits hv m (ueLegal_seCodeNum hk) h8 h hlen
  exact ⟨e, by simp only [se, he, seValue_seCodeNum, seBits]⟩

end Sys2Proof.Machine
end

