-- ==== Sys2Proof/Laws/Walk.lean ====
section
/-! SUPPORT. How to reason about the walks of the extraction commands: one rule per connective for
each of four properties (what a walk does to the cursor, what it reads from a stream that holds its
syntax, that a strict success is a lenient success, that it depends on nothing but the buffer), and
the element reads' instances. -/

namespace Sys2Proof.Machine

/-! ### The connectives -/

@[simp] theorem walk_pure {α : Type} (x : α) (c : Cur) : (pure x : Walk α) c = .ok x c := rfl

@[simp] theorem walk_fail {α : Type} (e : ErrCode) (c : Cur) :
    (fail e : Walk α) c = .error e c := rfl

/-- A sequence runs its second part where the first one left the cursor, unless that failed. -/
theorem walk_bind {α β : Type} (w : Walk α) (f : α → Walk β) (c : Cur) :
    (w >>= f) c = match w c with
      | .ok x c' => f x c'
      | .error e c' => .error e c' := by
  cases h : w c <;> simp [Bind.bind, EStateM.bind, h]

theorem walk_bind_ok {α β : Type} {w : Walk α} {f : α → Walk β} {c c' : Cur} {x : α}
    (h : w c = .ok x c') : (w >>= f) c = f x c' := by rw [walk_bind, h]

theorem walk_bind_error {α β : Type} {w : Walk α} {f : α → Walk β} {c c' : Cur} {e : ErrCode}
    (h : w c = .error e c') : (w >>= f) c = .error e c' := by rw [walk_bind, h]

/-- Everything an element read can do (40_cursor.md R106). -/
theorem elem_cases {α : Type} (zero : α) (m : Mode) (read : Cur → Option α × Cur) (c : Cur) :
    (∃ x, (read c).1 = some x ∧ elem zero m read c = .ok x (read c).2) ∨
    ((read c).1 = none ∧ m = .strict ∧
      elem zero m read c = .error .absent (read c).2.markSticky) ∨
    ((read c).1 = none ∧ m = .lenient ∧
      elem zero m read c = .ok zero (read c).2.markSticky) := by
  rcases h : read c with ⟨_ | x, c'⟩
  · cases m
    · exact .inr (.inl ⟨rfl, rfl, by simp [elem, h]⟩)
    · exact .inr (.inr ⟨rfl, rfl, by simp [elem, h]⟩)
  · exact .inl ⟨x, rfl, by simp [elem, h]⟩

/-- A present element. -/
theorem elem_some {α : Type} {zero : α} {m : Mode} {read : Cur → Option α × Cur} {c c' : Cur} {x : α}
    (h : read c = (some x, c')) : elem zero m read c = .ok x c' := by simp [elem, h]

/-! ### What a walk does to the cursor -/

/-- Wherever the walk ends, `R` relates the cursor it started from to the one it left. -/
def Walk.Moves {α : Type} (R : Cur → Cur → Prop) (w : Walk α) : Prop :=
  ∀ c, (∀ x c', w c = .ok x c' → R c c') ∧ (∀ e c', w c = .error e c' → R c c')

theorem Moves.pure {α : Type} {R : Cur → Cur → Prop} (hr : ∀ c, R c c) (x : α) :
    Walk.Moves R (Pure.pure x : Walk α) := by
  refine fun c => ⟨fun y c' h => ?_, fun e c' h => ?_⟩
  · cases h; exact hr c
  · cases h

theorem Moves.fail {α : Type} {R : Cur → Cur → Prop} (hr : ∀ c, R c c) (e : ErrCode) :
    Walk.Moves R (fail e : Walk α) := by
  refine fun c => ⟨fun y c' h => ?_, fun e' c' h => ?_⟩
  · cases h
  · cases h; exact hr c

theorem Moves.bind {α β : Type} {R : Cur → Cur → Prop} (ht : ∀ a b c, R a b → R b c → R a c)
    {w : Walk α} {f : α → Walk β} (hw : Walk.Moves R w) (hf : ∀ x, Walk.Moves R (f x)) :
    Walk.Moves R (w >>= f) := by
  intro c
  cases h : w c with
  | ok x c1 =>
    rw [walk_bind_ok h]
    have h1 := (hw c).1 x c1 h
    exact ⟨fun y c' h' => ht _ _ _ h1 ((hf x c1).1 y c' h'),
      fun e c' h' => ht _ _ _ h1 ((hf x c1).2 e c' h')⟩
  | error e c1 =>
    rw [walk_bind_error h]
    have h1 := (hw c).2 e c1 h
    exact ⟨fun y c' h' => (nomatch h'), fun e' c' h' => by cases h'; exact h1⟩

theorem Moves.ite {α : Type} {R : Cur → Cur → Prop} {p : Prop} [Decidable p] {a b : Walk α}
    (ha : Walk.Moves R a) (hb : Walk.Moves R b) : Walk.Moves R (if p then a else b) := by
  split <;> assumption

/-- An element read moves the cursor as its reading function does, and may set STICKY. -/
theorem Moves.elem {α : Type} {R : Cur → Cur → Prop} {zero : α} {m : Mode}
    {read : Cur → Option α × Cur} (h : ∀ c, R c (read c).2)
    (hs : ∀ c c', R c c' → R c c'.markSticky) : Walk.Moves R (elem zero m read) := by
  intro c
  rcases elem_cases zero m read c with ⟨x, -, he⟩ | ⟨-, -, he⟩ | ⟨-, -, he⟩ <;> rw [he]
  · exact ⟨fun y c' h' => by cases h'; exact h c, fun e c' h' => (nomatch h')⟩
  · exact ⟨fun y c' h' => (nomatch h'), fun e c' h' => by cases h'; exact hs _ _ (h c)⟩
  · exact ⟨fun y c' h' => by cases h'; exact hs _ _ (h c), fun e c' h' => (nomatch h')⟩

theorem Moves.repeatSe {R : Cur → Cur → Prop} (hr : ∀ c, R c c) (ht : ∀ a b c, R a b → R b c → R a c)
    {v : View} {m : Mode} (h : Walk.Moves R (rdSe v m)) (n : Nat) :
    Walk.Moves R (repeatSe v m n) := by
  induction n with
  | zero => exact Moves.pure hr ()
  | succ n ih =>
    intro c
    simp only [Machine.repeatSe]
    split
    · exact ⟨fun y c' h' => by cases h'; exact hr c, fun e c' h' => (nomatch h')⟩
    · exact Moves.bind ht h (fun _ => ih) c

/-- The bounds every read keeps (10_state.md R22): LENBITS stays, POS never falls, and it stays below
LENBITS + 64. -/
def Cur.Within (c c' : Cur) : Prop :=
  c'.lenbits = c.lenbits ∧ c.pos ≤ c'.pos ∧
  (c.lenbits % 8 = 0 → c.pos < c.lenbits + 64 → c'.pos < c.lenbits + 64)

theorem Cur.Within.refl (c : Cur) : c.Within c := ⟨rfl, Nat.le_refl _, fun _ h => h⟩

theorem Cur.Within.trans (a b c : Cur) (h : a.Within b) (h' : b.Within c) : a.Within c := by
  obtain ⟨h1, h2, h3⟩ := h
  obtain ⟨g1, g2, g3⟩ := h'
  exact ⟨g1.trans h1, by omega, fun h8 hp => by
    have := h3 h8 hp
    rw [h1] at g3; exact g3 h8 this⟩

theorem readBits_within (v : View) (m : Mode) (n : Nat) (c : Cur) :
    c.Within (readBits v m n c).2 := by
  obtain ⟨-, h1, -, h2⟩ := readBits_bounds v m n c
  refine ⟨h1, by omega, fun _ _ => by omega⟩

/-- UE: LENBITS and STICKY stay, and POS stays within bounds (R103). -/
theorem ue_within (v : View) (m : Mode) (c : Cur) : c.Within (ue v m c).2 := by
  obtain ⟨-, hl, -⟩ := clz_cursor v c
  obtain ⟨-, h1, -, h2⟩ :=
    readBits_bounds v m ((clz v c).1 + 1) ((clz v c).2.moveTo (c.pos + (clz v c).1))
  simp only [moveTo_pos, moveTo_lenbits, hl] at h1 h2
  have key : c.Within (readBits v m ((clz v c).1 + 1)
      ((clz v c).2.moveTo (c.pos + (clz v c).1))).2 := by
    refine ⟨h1, by omega, fun h8 hlt => ?_⟩
    have := clz_le v (c := c) h8
    omega
  unfold ue
  rcases hr : readBits v m ((clz v c).1 + 1) ((clz v c).2.moveTo (c.pos + (clz v c).1)) with ⟨_ | x, c'⟩
  · rw [hr] at key h1
    cases m with
    | lenient => simpa [hr] using key
    | strict => simp only [hr]; exact ⟨by simpa using h1, by simp, fun _ h => by simpa using h⟩
  · rw [hr] at key; simpa [hr] using key

theorem se_within (v : View) (m : Mode) (c : Cur) : c.Within (se v m c).2 := by
  have := ue_within v m c
  unfold se
  rcases h : ue v m c with ⟨_ | x, c'⟩ <;> simpa [h] using this

theorem alignTo_within (v : View) (m : Mode) (c : Cur) : c.Within (alignTo v m c).2 := by
  have := readBits_within v m (8 - c.pos % 8) c
  unfold alignTo
  simp only
  split
  · exact Cur.Within.refl c
  · rcases h : readBits v m (8 - c.pos % 8) c with ⟨_ | x, c'⟩ <;> simpa [h] using this

theorem Cur.Within.sticky (c c' : Cur) (h : c.Within c') : c.Within c'.markSticky := h

/-- The element reads keep the bounds. -/
theorem rd_within (v : View) (m : Mode) (n : Nat) : Walk.Moves Cur.Within (rd v m n) :=
  Moves.elem (readBits_within v m n) Cur.Within.sticky

theorem rdUe_within (v : View) (m : Mode) : Walk.Moves Cur.Within (rdUe v m) :=
  Moves.elem (ue_within v m) Cur.Within.sticky

theorem rdSe_within (v : View) (m : Mode) : Walk.Moves Cur.Within (rdSe v m) :=
  Moves.elem (se_within v m) Cur.Within.sticky

theorem rdAlign_within (v : View) (m : Mode) : Walk.Moves Cur.Within (rdAlign v m) :=
  Moves.elem (alignTo_within v m) Cur.Within.sticky

/-! ### What a walk reads -/

/-- On a stream that holds `bits` at POS, with `len` bits in all, the walk answers `x` and POS moves
past them. -/
def Walk.Reads {α : Type} (v : View) (len : Nat) (w : Walk α) (bits : List Bool) (x : α) : Prop :=
  ∀ c, c.lenbits = len → v.holds c.pos bits → c.pos + bits.length ≤ len →
    ∃ e, w c = .ok x { c with pos := c.pos + bits.length, serial := e }

theorem Reads.pure {α : Type} {v : View} {len : Nat} (x : α) :
    Walk.Reads v len (Pure.pure x : Walk α) [] x := fun c _ _ _ => ⟨c.serial, rfl⟩

theorem Reads.bind {α β : Type} {v : View} {len : Nat} {w : Walk α} {f : α → Walk β}
    {a b : List Bool} {x : α} {y : β} (hw : Walk.Reads v len w a x)
    (hf : Walk.Reads v len (f x) b y) : Walk.Reads v len (w >>= f) (a ++ b) y := by
  intro c hc hh hl
  rw [View.holds_append] at hh
  rw [List.length_append] at hl
  obtain ⟨e1, h1⟩ := hw c hc hh.1 (by omega)
  obtain ⟨e2, h2⟩ := hf { c with pos := c.pos + a.length, serial := e1 } hc hh.2
    (by simp only; omega)
  exact ⟨e2, by rw [walk_bind_ok h1, h2]; simp [Nat.add_assoc]⟩

/-- An element read answers what its reading function answers. -/
theorem Reads.elem {α : Type} {v : View} {len : Nat} {zero : α} {m : Mode}
    {read : Cur → Option α × Cur} {bits : List Bool} {x : α}
    (h : ∀ c, c.lenbits = len → v.holds c.pos bits → c.pos + bits.length ≤ len →
      ∃ e, read c = (some x, { c with pos := c.pos + bits.length, serial := e })) :
    Walk.Reads v len (elem zero m read) bits x := by
  intro c hc hh hl
  obtain ⟨e, he⟩ := h c hc hh hl
  exact ⟨e, elem_some he⟩

/-- rd(n) reads a field of n bits (30_encoding.md R89). -/
theorem rd_reads {v : View} (hv : v.disturbed = false) (len : Nat) (m : Mode) {n x : Nat}
    (hn : 1 ≤ n) (hn' : n ≤ 64) (hx : x < 2 ^ n) : Walk.Reads v len (rd v m n) (uBits n x) x := by
  refine Reads.elem fun c hc hh hl => ⟨c.serial + n, ?_⟩
  rw [uBits_length] at hl ⊢
  exact readBits_uBits hv m hn hn' hx hh (by omega)

/-- rd(1) reads a flag. -/
theorem rd_reads_flag {v : View} (hv : v.disturbed = false) (len : Nat) (m : Mode) (b : Bool) :
    Walk.Reads v len (rd v m 1) [b] b.toNat := by
  have := rd_reads hv len m (n := 1) (x := b.toNat) (by omega) (by omega) (by cases b <;> decide)
  cases b <;> simpa [uBits] using this

/-- ue() reads an unsigned code (30_encoding.md R90). -/
theorem rdUe_reads {v : View} (hv : v.disturbed = false) {len : Nat} (h8 : len % 8 = 0) (m : Mode)
    {u : Nat} (hu : ueLegal u = true) : Walk.Reads v len (rdUe v m) (ueBits u) u :=
  Reads.elem fun c hc hh hl => ue_ueBits hv m hu (by rw [hc]; exact h8) hh (by omega)

/-- se() reads a signed code (30_encoding.md R92). -/
theorem rdSe_reads {v : View} (hv : v.disturbed = false) {len : Nat} (h8 : len % 8 = 0) (m : Mode)
    {k : Int} (hk : seLegal k = true) : Walk.Reads v len (rdSe v m) (seBits k) k :=
  Reads.elem fun c hc hh hl => se_seBits hv m hk (by rw [hc]; exact h8) hh (by omega)

/-- A walk that ends with a part that reads nothing. -/
theorem Reads.last {α β : Type} {v : View} {len : Nat} {w : Walk α} {f : α → Walk β} {a : List Bool}
    {x : α} {y : β} (hw : Walk.Reads v len w a x) (hf : Walk.Reads v len (f x) [] y) :
    Walk.Reads v len (w >>= f) a y := by
  have := Reads.bind hw hf
  rwa [List.append_nil] at this

/-- The loop of se() reads the codes of its values; it never stops early while they last
(42_h264_sps.md R169). -/
theorem repeatSe_reads {v : View} (hv : v.disturbed = false) {len : Nat} (h8 : len % 8 = 0)
    (m : Mode) {ds : List Int} (h : ds.all seLegal = true) :
    Walk.Reads v len (repeatSe v m ds.length) (ds.flatMap seBits) () := by
  induction ds with
  | nil => exact Reads.pure ()
  | cons d ds ih =>
    simp only [List.all_cons, Bool.and_eq_true] at h
    intro c hc hh hl
    have hr := Reads.bind (f := fun _ => repeatSe v m ds.length) (rdSe_reads hv h8 m h.1) (ih h.2)
      c hc (by simpa using hh) (by simpa using hl)
    have hs : spent m c = false := by
      have : 0 < (seBits d).length := by simp [seBits, ueBits]
      simp only [List.flatMap_cons, List.length_append] at hl
      simp only [spent, Bool.and_eq_false_iff, decide_eq_false_iff_not]
      omega
    simp only [Machine.repeatSe, List.length_cons, hs, Bool.false_eq_true, if_false]
    simpa using hr

/-! ### A strict success is a lenient success -/

/-- Where the strict walk succeeds from a cursor with STICKY = 0, so does the lenient one, with the
same value and cursor, and STICKY stays 0. -/
def Walk.StrictLeads {α : Type} (w : Mode → Walk α) : Prop :=
  ∀ c x c', c.sticky = false → w .strict c = .ok x c' →
    w .lenient c = .ok x c' ∧ c'.sticky = false

theorem StrictLeads.const {α : Type} {w : Walk α}
    (h : ∀ c x c', c.sticky = false → w c = .ok x c' → c'.sticky = false) :
    Walk.StrictLeads fun _ => w := fun c x c' hs hw => ⟨hw, h c x c' hs hw⟩

theorem StrictLeads.pure {α : Type} (x : α) : Walk.StrictLeads fun _ => (Pure.pure x : Walk α) :=
  StrictLeads.const fun c y c' hs h => by cases h; exact hs

theorem StrictLeads.fail {α : Type} (e : ErrCode) : Walk.StrictLeads fun _ => (fail e : Walk α) :=
  StrictLeads.const fun c y c' hs h => by cases h

theorem StrictLeads.bind {α β : Type} {w : Mode → Walk α} {f : Mode → α → Walk β}
    (hw : Walk.StrictLeads w) (hf : ∀ x, Walk.StrictLeads fun m => f m x) :
    Walk.StrictLeads fun m => w m >>= f m := by
  intro c x c' hs h
  change (w .strict >>= f .strict) c = _ at h
  change (w .lenient >>= f .lenient) c = _ ∧ _
  cases hc : w .strict c with
  | error e c1 => rw [walk_bind_error hc] at h; cases h
  | ok y c1 =>
    rw [walk_bind_ok hc] at h
    obtain ⟨h1, h2⟩ := hw c y c1 hs hc
    rw [walk_bind_ok h1]
    exact hf y c1 x c' h2 h

theorem StrictLeads.ite {α : Type} {p : Prop} [Decidable p] {a b : Mode → Walk α}
    (ha : Walk.StrictLeads a) (hb : Walk.StrictLeads b) :
    Walk.StrictLeads fun m => if p then a m else b m := by
  split <;> assumption

/-- An element read whose strict present value is also the lenient one. -/
theorem StrictLeads.elem {α : Type} {zero : α} {read : Mode → Cur → Option α × Cur}
    (h : ∀ c x c', read .strict c = (some x, c') → read .lenient c = (some x, c') ∧
      c'.sticky = c.sticky) : Walk.StrictLeads fun m => elem zero m (read m) := by
  intro c x c' hs hc
  change Machine.elem zero .strict (read .strict) c = _ at hc
  rcases elem_cases zero .strict (read .strict) c with ⟨y, hy, he⟩ | ⟨-, -, he⟩ | ⟨-, hm, -⟩
  · rw [he] at hc; cases hc
    have hr : read .strict c = (some x, (read .strict c).2) := by rw [← hy]
    obtain ⟨h1, h2⟩ := h c x _ hr
    exact ⟨elem_some h1, h2.trans hs⟩
  · rw [he] at hc; cases hc
  · cases hm

theorem readBits_strict_lenient {v : View} {n : Nat} {c c' : Cur} {x : Nat}
    (h : readBits v .strict n c = (some x, c')) :
    readBits v .lenient n c = (some x, c') ∧ c'.sticky = c.sticky := by
  rcases readBits_cases v .strict n c with ⟨hr, -⟩ | ⟨h1, h2, h3, hr⟩ | ⟨-, -, -, -, hm, -⟩
  · rw [hr] at h; cases h
  · rw [hr] at h; cases h
    exact ⟨readBits_full h1 h2 h3 v .lenient, rfl⟩
  · cases hm

theorem ue_strict_lenient {v : View} {c c' : Cur} {x : Nat} (h : ue v .strict c = (some x, c')) :
    ue v .lenient c = (some x, c') ∧ c'.sticky = c.sticky := by
  unfold ue at h ⊢
  rcases hr : readBits v .strict ((clz v c).1 + 1) ((clz v c).2.moveTo (c.pos + (clz v c).1))
    with ⟨_ | y, c1⟩
  · simp [hr] at h
  · simp only [hr] at h
    have ⟨h1, h2⟩ := readBits_strict_lenient hr
    simp only [h1]
    refine ⟨h, ?_⟩
    cases h
    rw [h2, moveTo_sticky, (clz_cursor v c).2.2]

theorem se_strict_lenient {v : View} {c c' : Cur} {x : Int} (h : se v .strict c = (some x, c')) :
    se v .lenient c = (some x, c') ∧ c'.sticky = c.sticky := by
  unfold se at h ⊢
  rcases hr : ue v .strict c with ⟨_ | u, c1⟩
  · simp [hr] at h
  · simp only [hr] at h
    have ⟨h1, h2⟩ := ue_strict_lenient hr
    simp only [h1]
    refine ⟨h, ?_⟩
    cases h; exact h2

theorem alignTo_strict_lenient {v : View} {c c' : Cur} {x : Nat}
    (h : alignTo v .strict c = (some x, c')) :
    alignTo v .lenient c = (some x, c') ∧ c'.sticky = c.sticky := by
  unfold alignTo at h ⊢
  simp only at h ⊢
  split at h
  · rename_i ha; rw [if_pos ha]; cases h; exact ⟨rfl, rfl⟩
  · rename_i ha; rw [if_neg ha]
    rcases hr : readBits v .strict (8 - c.pos % 8) c with ⟨_ | u, c1⟩
    · simp [hr] at h
    · simp only [hr] at h
      have ⟨h1, h2⟩ := readBits_strict_lenient hr
      simp only [h1]
      refine ⟨h, ?_⟩
      cases h; exact h2

theorem rd_strictLeads (v : View) (n : Nat) : Walk.StrictLeads fun m => rd v m n :=
  StrictLeads.elem fun _ _ _ => readBits_strict_lenient

theorem rdUe_strictLeads (v : View) : Walk.StrictLeads fun m => rdUe v m :=
  StrictLeads.elem fun _ _ _ => ue_strict_lenient

theorem rdSe_strictLeads (v : View) : Walk.StrictLeads fun m => rdSe v m :=
  StrictLeads.elem fun _ _ _ => se_strict_lenient

theorem rdAlign_strictLeads (v : View) : Walk.StrictLeads fun m => rdAlign v m :=
  StrictLeads.elem fun _ _ _ => alignTo_strict_lenient

theorem repeatSe_strictLeads (v : View) (n : Nat) : Walk.StrictLeads fun m => repeatSe v m n := by
  induction n with
  | zero => exact StrictLeads.pure ()
  | succ n ih =>
    intro c x c' hs h
    simp only [Machine.repeatSe] at h ⊢
    have h1 : spent .strict c = false := by simp [spent]
    have h2 : spent .lenient c = false := by simp [spent, hs]
    simp only [h1, h2, Bool.false_eq_true, if_false] at h ⊢
    exact StrictLeads.bind (rdSe_strictLeads v) (fun _ => ih) c x c' hs h

/-! ### A walk depends on nothing but the buffer -/

/-- The two views give the same bytes to a cursor of `len` bits: `BUF(i)` for `i < len div 8`
(20_memory.md R62). -/
def View.agrees (len : Nat) (v w : View) : Prop :=
  v.disturbed = w.disturbed ∧ v.epoch = w.epoch ∧
  (∀ i < len / 8, memRead v.mem (bufAddr v i) = memRead w.mem (bufAddr w i))

theorem buf_agrees {len : Nat} {v w : View} (h : View.agrees len v w) (e : Nat) {i : Nat}
    (hi : i < len / 8) : buf v e i = buf w e i := by
  obtain ⟨h1, h2, h3⟩ := h
  simp only [buf, h1, h2, h3 i hi]

theorem streamBit_agrees {len : Nat} {v w : View} (h : View.agrees len v w) (h8 : len % 8 = 0)
    (e : Nat) {k : Nat} (hk : k < len) : streamBit v e k = streamBit w e k := by
  simp only [streamBit, buf_agrees h e (show k / 8 < len / 8 by omega)]

theorem readBits_agrees {v w : View} {c : Cur} (h : View.agrees c.lenbits v w)
    (h8 : c.lenbits % 8 = 0) (m : Mode) (n : Nat) : readBits v m n c = readBits w m n c := by
  rcases readBits_cases v m n c with ⟨hr, hc⟩ | ⟨h1, h2, h3, hr⟩ | ⟨h1, h2, h3, h4, rfl, hr⟩
  · rw [hr]
    rcases hc with hc | hc | ⟨rfl, hc⟩
    · rw [readBits_badWidth hc]
    · rw [readBits_exhausted hc]
    · rw [readBits_short_strict hc]
  · rw [hr, readBits_full h1 h2 h3,
      streamField_congr fun i hi => streamBit_agrees h h8 _ (by omega)]
  · rw [hr, readBits_short_lenient h2 h3 h4,
      streamField_congr fun i hi => streamBit_agrees h h8 _ (by omega)]

theorem clzBytes_agrees {len : Nat} {v w : View} (h : View.agrees len v w) (e i z left : Nat)
    (hl : i + left ≤ len / 8) : clzBytes v e i z left = clzBytes w e i z left := by
  induction left generalizing e i z with
  | zero => rfl
  | succ left ih =>
    simp only [clzBytes, buf_agrees h e (show i < len / 8 by omega),
      ih (e + 1) (i + 1) (z + 8) (by omega)]

theorem clz_agrees {v w : View} {c : Cur} (h : View.agrees c.lenbits v w)
    (h8 : c.lenbits % 8 = 0) : clz v c = clz w c := by
  by_cases hlt : c.lenbits ≤ c.pos
  · rw [clz_exhausted hlt, clz_exhausted hlt]
  · simp only [clz, if_neg hlt, buf_agrees h c.serial (show c.pos / 8 < c.lenbits / 8 by omega),
      clzBytes_agrees h (c.serial + 1) (c.pos / 8 + 1) (8 - c.pos % 8)
        (c.lenbits / 8 - (c.pos / 8 + 1)) (by omega)]

theorem ue_agrees {v w : View} {c : Cur} (h : View.agrees c.lenbits v w) (h8 : c.lenbits % 8 = 0)
    (m : Mode) : ue v m c = ue w m c := by
  have hc := clz_agrees h h8
  have hl : (clz w c).2.lenbits = c.lenbits := (clz_cursor w c).2.1
  simp only [ue, hc]
  rw [readBits_agrees (c := (clz w c).2.moveTo (c.pos + (clz w c).1)) (by simpa [hl] using h)
    (by simpa [hl] using h8)]

theorem se_agrees {v w : View} {c : Cur} (h : View.agrees c.lenbits v w) (h8 : c.lenbits % 8 = 0)
    (m : Mode) : se v m c = se w m c := by simp only [se, ue_agrees h h8]

theorem alignTo_agrees {v w : View} {c : Cur} (h : View.agrees c.lenbits v w)
    (h8 : c.lenbits % 8 = 0) (m : Mode) : alignTo v m c = alignTo w m c := by
  simp only [alignTo, readBits_agrees h h8]

/-- The two walks do the same from every cursor of `len` bits, and leave one of `len` bits. -/
def Walk.Same {α : Type} (len : Nat) (a b : Walk α) : Prop :=
  ∀ c, c.lenbits = len → a c = b c ∧ ∀ x c', a c = .ok x c' → c'.lenbits = len

theorem Same.pure {α : Type} (len : Nat) (x : α) :
    Walk.Same len (Pure.pure x : Walk α) (Pure.pure x) :=
  fun c hc => ⟨rfl, fun y c' h => by cases h; exact hc⟩

theorem Same.fail {α : Type} (len : Nat) (e : ErrCode) :
    Walk.Same len (fail e : Walk α) (Machine.fail e) :=
  fun c _ => ⟨rfl, fun y c' h => by cases h⟩

theorem Same.bind {α β : Type} {len : Nat} {a b : Walk α} {f g : α → Walk β}
    (h : Walk.Same len a b) (hf : ∀ x, Walk.Same len (f x) (g x)) :
    Walk.Same len (a >>= f) (b >>= g) := by
  intro c hc
  obtain ⟨h1, h2⟩ := h c hc
  cases ha : a c with
  | error e c1 =>
    rw [walk_bind_error ha, walk_bind_error (h1 ▸ ha)]
    exact ⟨rfl, fun y c' h' => (nomatch h')⟩
  | ok x c1 =>
    rw [walk_bind_ok ha, walk_bind_ok (h1 ▸ ha)]
    exact hf x c1 (h2 x c1 ha)

theorem Same.ite {α : Type} {len : Nat} {p : Prop} [Decidable p] {a b a' b' : Walk α}
    (h : Walk.Same len a a') (h' : Walk.Same len b b') :
    Walk.Same len (if p then a else b) (if p then a' else b') := by
  split <;> assumption

theorem Same.elem {α : Type} {len : Nat} {zero : α} {m : Mode}
    {r r' : Cur → Option α × Cur} (h : ∀ c, c.lenbits = len → r c = r' c)
    (hl : ∀ c, (r c).2.lenbits = c.lenbits) :
    Walk.Same len (elem zero m r) (Machine.elem zero m r') := by
  intro c hc
  have he : Machine.elem zero m r c = Machine.elem zero m r' c := by simp only [Machine.elem, h c hc]
  refine ⟨he, fun x c' hx => ?_⟩
  have := hl c
  rcases elem_cases zero m r c with ⟨y, -, hr⟩ | ⟨-, -, hr⟩ | ⟨-, -, hr⟩ <;> rw [hr] at hx <;>
    cases hx <;> simp [this, hc]

theorem rd_same {len : Nat} {v w : View} (h : View.agrees len v w) (h8 : len % 8 = 0) (m : Mode)
    (n : Nat) : Walk.Same len (rd v m n) (rd w m n) :=
  Same.elem (fun c hc => readBits_agrees (by rw [hc]; exact h) (by rw [hc]; exact h8) m n)
    fun c => (readBits_within v m n c).1

theorem rdUe_same {len : Nat} {v w : View} (h : View.agrees len v w) (h8 : len % 8 = 0) (m : Mode) :
    Walk.Same len (rdUe v m) (rdUe w m) :=
  Same.elem (fun c hc => ue_agrees (by rw [hc]; exact h) (by rw [hc]; exact h8) m)
    fun c => (ue_within v m c).1

theorem rdSe_same {len : Nat} {v w : View} (h : View.agrees len v w) (h8 : len % 8 = 0) (m : Mode) :
    Walk.Same len (rdSe v m) (rdSe w m) :=
  Same.elem (fun c hc => se_agrees (by rw [hc]; exact h) (by rw [hc]; exact h8) m)
    fun c => (se_within v m c).1

theorem rdAlign_same {len : Nat} {v w : View} (h : View.agrees len v w) (h8 : len % 8 = 0)
    (m : Mode) : Walk.Same len (rdAlign v m) (rdAlign w m) :=
  Same.elem (fun c hc => alignTo_agrees (by rw [hc]; exact h) (by rw [hc]; exact h8) m)
    fun c => (alignTo_within v m c).1

theorem repeatSe_same {len : Nat} {v w : View} (h : View.agrees len v w) (h8 : len % 8 = 0)
    (m : Mode) (n : Nat) : Walk.Same len (repeatSe v m n) (repeatSe w m n) := by
  induction n with
  | zero => exact Same.pure len ()
  | succ n ih =>
    intro c hc
    simp only [Machine.repeatSe]
    split
    · exact ⟨rfl, fun x c' hx => by cases hx; exact hc⟩
    · exact Same.bind (rdSe_same h h8 m) (fun _ => ih) c hc

end Sys2Proof.Machine
end

