-- ==== Sys2Proof/Laws/Cut.lean ====
section
/-! SUPPORT. How to reason about the walks of the extraction commands on a buffer that ends inside the
elements they read (40_cursor.md R101, R103, R106): one rule per connective and per element read, for the
strict policy (`Walk.StopsCut`) and for the lenient one (`Walk.ReadsCut`, `Walk.Drained`). -/

namespace Sys2Proof

/-! ### Lists of elements -/

@[simp] theorem bitsOf_nil : bitsOf [] = [] := rfl
@[simp] theorem bitsOf_cons (e : Element) (es : List Element) :
    bitsOf (e :: es) = e.bits ++ bitsOf es := by simp [bitsOf]
@[simp] theorem bitsOf_append (a b : List Element) : bitsOf (a ++ b) = bitsOf a ++ bitsOf b := by
  simp [bitsOf]
@[simp] theorem bits_u (bs : List Bool) : (Element.u bs).bits = bs := rfl
@[simp] theorem bits_ue (n : Nat) : (Element.ue n).bits = ueBits n := rfl
@[simp] theorem bits_flag (b : Bool) : (Element.flag b).bits = [b] := rfl
@[simp] theorem bits_se (k : Int) : (Element.se k).bits = seBits k := rfl

theorem Element.needs_pos (e : Element) : 0 < e.needs := by cases e <;> simp [Element.needs]

@[simp] theorem bitsOf_map_se (ds : List Int) : bitsOf (ds.map .se) = ds.flatMap seBits := by
  induction ds with
  | nil => rfl
  | cons d ds ih => simp [ih]

/-- The strict policy stops in front of the first element that is not whole, wherever the list is
split. -/
theorem strictStop_append (left : Nat) (a b : List Element) : strictStop left (a ++ b) =
    if (bitsOf a).length ≤ left then (bitsOf a).length + strictStop (left - (bitsOf a).length) b
    else strictStop left a := by
  induction a generalizing left with
  | nil => simp
  | cons e es ih =>
    simp only [List.cons_append, strictStop, bitsOf_cons, List.length_append, ih]
    by_cases h : e.bits.length ≤ left
    · simp only [h, if_true]
      by_cases h' : (bitsOf es).length ≤ left - e.bits.length
      · rw [if_pos h', if_pos (by omega),
          show left - (e.bits.length + (bitsOf es).length) =
            left - e.bits.length - (bitsOf es).length by omega]
        omega
      · rw [if_neg h', if_neg (by omega)]
    · rw [if_neg h, if_neg (by omega), if_neg h]

theorem lenientStop_one (left : Nat) (e : Element) :
    lenientStop left [e] = if left < e.needs then left else e.bits.length := by simp [lenientStop]

theorem absentIn_one (left : Nat) (e : Element) : absentIn left [e] = decide (left < e.needs) := by
  simp [absentIn]

/-- Every element is at least as long as what the lenient policy needs of it. -/
def allReadable (es : List Element) : Prop := ∀ e ∈ es, e.needs ≤ e.bits.length

theorem allReadable_flag (b : Bool) : allReadable [.flag b] := by
  simp [allReadable, Element.flag, Element.needs]

/-- Elements that are all there are all read. -/
theorem lenientStop_whole {left : Nat} {es : List Element} (hes : allReadable es)
    (h : (bitsOf es).length ≤ left) :
    lenientStop left es = (bitsOf es).length ∧ absentIn left es = false := by
  induction es generalizing left with
  | nil => exact ⟨rfl, rfl⟩
  | cons e es ih =>
    simp only [bitsOf_cons, List.length_append] at h ⊢
    have hn := hes e (by simp)
    obtain ⟨h1, h2⟩ := ih (fun x hx => hes x (by simp [hx])) (left := left - e.bits.length) (by omega)
    refine ⟨?_, ?_⟩
    · simp only [lenientStop]
      rw [if_neg (by omega), if_pos (by omega), h1]
    · simp only [absentIn, h2, Bool.or_false, decide_eq_false_iff_not]; omega

/-- Where the list is cut, the lenient policy ends no earlier than the end. -/
theorem le_lenientStop {left : Nat} {es : List Element} (h : left ≤ (bitsOf es).length) :
    left ≤ lenientStop left es := by
  induction es generalizing left with
  | nil => simp at h; simp [h]
  | cons e es ih =>
    simp only [bitsOf_cons, List.length_append] at h
    simp only [lenientStop]
    split
    · exact Nat.le_refl _
    · split
      · have := ih (left := left - e.bits.length) (by omega); omega
      · omega

/-- Where an element is absent, so is every one behind it. -/
theorem absentIn_zero {es : List Element} (h : es ≠ []) : absentIn 0 es = true := by
  cases es with
  | nil => exact absurd rfl h
  | cons e es => simp [absentIn, e.needs_pos]

theorem absentIn_append (left : Nat) (a b : List Element) : absentIn left (a ++ b) =
    (absentIn left a || absentIn (left - (bitsOf a).length) b) := by
  induction a generalizing left with
  | nil => simp [absentIn]
  | cons e es ih => simp [absentIn, ih, Bool.or_assoc, Nat.sub_sub]

theorem lenientStop_append {left : Nat} {a b : List Element} (ha : allReadable a) :
    lenientStop left (a ++ b) = lenientStop left a +
      if (bitsOf a).length ≤ left then lenientStop (left - (bitsOf a).length) b else 0 := by
  induction a generalizing left with
  | nil => simp [lenientStop]
  | cons e es ih =>
    have hn := ha e (by simp)
    have := e.needs_pos
    simp only [List.cons_append, lenientStop, bitsOf_cons, List.length_append,
      ih (fun x hx => ha x (by simp [hx]))]
    by_cases h : left < e.needs
    · rw [if_pos h, if_pos h, if_neg (by omega)]; rfl
    · rw [if_neg h, if_neg h]
      by_cases h1 : e.bits.length ≤ left
      · rw [if_pos h1, if_pos h1]
        by_cases h2 : e.bits.length + (bitsOf es).length ≤ left
        · rw [if_pos h2, if_pos (by omega), Nat.sub_sub, Nat.add_assoc]
        · rw [if_neg h2, if_neg (by omega)]; rfl
      · rw [if_neg h1, if_neg h1, if_neg (by omega)]

/-! ### Codes as fields -/

/-- The first bits of a field are the field of its high bits. -/
theorem uBits_take {n r : Nat} (x : Nat) (h : r ≤ n) :
    (uBits n x).take r = uBits r (x / 2 ^ (n - r)) := by
  induction n generalizing r with
  | zero => simp_all [uBits]
  | succ n ih =>
    cases r with
    | zero => rfl
    | succ r =>
      simp only [uBits, List.take_succ_cons, ih (show r ≤ n by omega), Nat.add_sub_add_right,
        List.cons.injEq, and_true]
      rw [Nat.testBit_div_two_pow, show r + (n - r) = n by omega]

/-- The low bits decide a field. -/
theorem uBits_mod (n x : Nat) : uBits n (x % 2 ^ n) = uBits n x := by
  have key : ∀ m ≤ n, uBits m (x % 2 ^ n) = uBits m x := by
    intro m
    induction m with
    | zero => intro _; rfl
    | succ m ih =>
      intro hm
      rw [uBits, uBits, ih (by omega), Nat.testBit_mod_two_pow]
      simp [show m < n by omega]
  exact key n (Nat.le_refl n)

/-- A code is its zeros and the field of its codeNum plus 1 (30_encoding.md R90). -/
theorem ueBits_eq (u : Nat) : ueBits u =
    List.replicate (Nat.log2 (u + 1)) false ++ uBits (Nat.log2 (u + 1) + 1) (u + 1) := by
  have hlo : 2 ^ Nat.log2 (u + 1) ≤ u + 1 := Nat.log2_self_le (by omega)
  have hhi : u + 1 < 2 ^ (Nat.log2 (u + 1) + 1) := Nat.lt_log2_self
  unfold ueBits
  generalize Nat.log2 (u + 1) = z at *
  have hmod : (u + 1) % 2 ^ z = u + 1 - 2 ^ z := by
    rw [Nat.mod_eq_sub_mod hlo, Nat.mod_eq_of_lt (by rw [Nat.pow_succ] at hhi; omega)]
  have hbit : (u + 1).testBit z = true := by
    rw [Nat.testBit_eq_decide_div_mod_eq,
      Nat.div_eq_of_lt_le (k := 1) (by omega) (by rw [Nat.pow_succ] at hhi; omega)]
    rfl
  simp only [uBits, hbit, ← hmod, uBits_mod]

theorem allReadable_ue (u : Nat) : allReadable [.ue u] := by
  simp [allReadable, Element.needs, Machine.ueBits_length]; omega

theorem cutField_zero {n x : Nat} (h : x < 2 ^ n) : cutField n 0 x = 0 := by
  simp [cutField, Nat.div_eq_of_lt h]

theorem cutField_whole {n left x : Nat} (h : n ≤ left) : cutField n left x = x := by
  simp [cutField, show n - left = 0 by omega]

/-- A whole code reads as its codeNum, an absent one as 0. -/
theorem cutCode_whole {left u : Nat} (h : (ueBits u).length ≤ left) : cutCode left u = u := by
  rw [Machine.ueBits_length] at h
  simp only [cutCode]
  rw [if_neg (by omega), cutField_whole (by omega)]; omega

theorem cutCode_zero (u : Nat) : cutCode 0 u = 0 := by simp [cutCode]

/-- The code of 0 reads as 0, there or not. -/
theorem cutCode_of_zero (left : Nat) : cutCode left 0 = 0 := by
  have h1 : (ueBits 0).length = 1 := rfl
  rcases Nat.eq_zero_or_pos left with rfl | h
  · exact cutCode_zero 0
  · exact cutCode_whole (by omega)

namespace Machine

/-! ### The reading functions on a cut element -/

/-- A field of which `r` bits are left, read over the bits left. -/
theorem streamField_cut {v : View} (hv : v.disturbed = false) {n x p r : Nat} (e : Nat)
    (hx : x < 2 ^ n) (hr : r ≤ n) (h : v.holds p ((uBits n x).take r)) :
    streamField v e p r = x / 2 ^ (n - r) := by
  rw [uBits_take x hr] at h
  rw [streamField_uBits hv e h, Nat.mod_eq_of_lt]
  rw [Nat.div_lt_iff_lt_mul (Nat.two_pow_pos _), ← Nat.pow_add]
  rwa [show r + (n - r) = n by omega]

/-- The lenient read of a field, however much of it is left (R101). -/
theorem readBits_cutField {v : View} (hv : v.disturbed = false) {n x : Nat} {c : Cur} (hn : 1 ≤ n)
    (hn' : n ≤ 64) (hx : x < 2 ^ n) (hlt : c.pos < c.lenbits)
    (h : v.holds c.pos ((uBits n x).take (c.lenbits - c.pos))) :
    ∃ e, readBits v .lenient n c =
      (some (cutField n (c.lenbits - c.pos) x), { c with pos := c.pos + n, serial := e }) := by
  by_cases hw : c.pos + n ≤ c.lenbits
  · rw [List.take_of_length_le (by simp; omega)] at h
    exact ⟨_, by rw [readBits_uBits hv .lenient hn hn' hx h hw, cutField_whole (by omega)]⟩
  · exact ⟨_, by rw [readBits_short_lenient hn' hlt (by omega),
      streamField_cut hv _ hx (by omega) h, cutField]⟩

/-- What UE counts on a cut code: its zeros, as far as they are there (R103). -/
theorem clz_cutCode {v : View} (hv : v.disturbed = false) {u : Nat} {c : Cur}
    (h8 : c.lenbits % 8 = 0) (h : v.holds c.pos ((ueBits u).take (c.lenbits - c.pos))) :
    (clz v c).1 = min (Nat.log2 (u + 1)) (c.lenbits - c.pos) := by
  by_cases hlt : c.lenbits ≤ c.pos
  · rw [clz_exhausted hlt]; simp; omega
  have hlen := ueBits_length u
  have hget : ∀ i (hi : i < (ueBits u).length), i < c.lenbits - c.pos →
      streamBit v 0 (c.pos + i) = ((ueBits u)[i]).toNat := by
    intro i hi hi'
    have := h i (by simp; omega)
    simpa using this
  refine clz_eq hv h8 (fun j hj => ?_) (by omega) (fun hj => ?_)
  · rw [hget j (by omega) (by omega)]
    simp [ueBits, show j < Nat.log2 (u + 1) by omega]
  · have hz : min (Nat.log2 (u + 1)) (c.lenbits - c.pos) = Nat.log2 (u + 1) := by omega
    rw [hz, hget _ (by omega) (by omega)]
    simp [ueBits]

/-- UE where the zeros of the code, or more of it, are cut off: absent (R103). -/
theorem ue_absent {v : View} (hv : v.disturbed = false) (m : Mode) {u : Nat} {c : Cur}
    (h8 : c.lenbits % 8 = 0) (h : v.holds c.pos ((ueBits u).take (c.lenbits - c.pos)))
    (hz : c.lenbits - c.pos ≤ Nat.log2 (u + 1)) :
    ∃ e, ue v m c = (none, { c with
      pos := if m = .strict then c.pos else c.pos + (c.lenbits - c.pos), serial := e }) := by
  obtain ⟨-, hl, hs⟩ := clz_cursor v c
  have hc : (clz v c).1 = c.lenbits - c.pos := by rw [clz_cutCode hv h8 h]; omega
  refine ⟨(clz v c).2.serial, ?_⟩
  simp only [ue]
  rw [readBits_exhausted (by simp only [moveTo_pos, moveTo_lenbits, hl, hc]; omega)]
  cases m <;> simp [hc, Cur.moveTo, ← hl, ← hs]

/-- UE where information bits are cut off: absent under the strict policy (R103). -/
theorem ue_cut_strict {v : View} (hv : v.disturbed = false) {u : Nat} {c : Cur}
    (h8 : c.lenbits % 8 = 0) (h : v.holds c.pos ((ueBits u).take (c.lenbits - c.pos)))
    (hcut : c.lenbits < c.pos + (ueBits u).length) :
    ∃ e, ue v .strict c = (none, { c with serial := e }) := by
  by_cases hz : c.lenbits - c.pos ≤ Nat.log2 (u + 1)
  · simpa using ue_absent hv .strict h8 h hz
  obtain ⟨-, hl, hs⟩ := clz_cursor v c
  have hc : (clz v c).1 = Nat.log2 (u + 1) := by rw [clz_cutCode hv h8 h]; omega
  rw [ueBits_length] at hcut
  refine ⟨(clz v c).2.serial, ?_⟩
  simp only [ue]
  rw [readBits_short_strict (by simp only [moveTo_pos, moveTo_lenbits, hl, hc]; omega)]
  simp [Cur.moveTo, ← hl, ← hs]

/-- The lenient UE where the zeros and the one bit are there (R103). -/
theorem ue_cut_lenient {v : View} (hv : v.disturbed = false) {u : Nat} {c : Cur}
    (hu : ueLegal u = true) (h8 : c.lenbits % 8 = 0)
    (h : v.holds c.pos ((ueBits u).take (c.lenbits - c.pos)))
    (hz : Nat.log2 (u + 1) < c.lenbits - c.pos) :
    ∃ e, ue v .lenient c = (some (cutCode (c.lenbits - c.pos) u),
      { c with pos := c.pos + (ueBits u).length, serial := e }) := by
  have hu' : u ≤ 2 ^ 64 - 2 := by simpa [ueLegal] using hu
  have hz64 : Nat.log2 (u + 1) < 64 := (Nat.log2_lt (by omega)).mpr (by omega)
  have hlo : 2 ^ Nat.log2 (u + 1) ≤ u + 1 := Nat.log2_self_le (by omega)
  have hhi : u + 1 < 2 ^ (Nat.log2 (u + 1) + 1) := Nat.lt_log2_self
  obtain ⟨-, hl, hs⟩ := clz_cursor v c
  have hc : (clz v c).1 = Nat.log2 (u + 1) := by rw [clz_cutCode hv h8 h]; omega
  rw [ueBits_length]
  rw [ueBits_eq, List.take_append, List.length_replicate, View.holds_append] at h
  simp only [List.length_take, List.length_replicate] at h
  simp only [cutCode]
  rw [if_neg (by omega)]
  generalize Nat.log2 (u + 1) = z at *
  rw [show min (c.lenbits - c.pos) z = z by omega] at h
  obtain ⟨e, he⟩ := readBits_cutField hv (n := z + 1) (x := u + 1)
    (c := (clz v c).2.moveTo (c.pos + z)) (by omega) (by omega) hhi
    (by simp only [moveTo_pos, moveTo_lenbits, hl]; omega)
    (by simp only [moveTo_pos, moveTo_lenbits, hl, ← Nat.sub_sub]; exact h.2)
  have hval : 0 < cutField (z + 1) (c.lenbits - c.pos - z) (u + 1) := by
    have hd : 2 ^ (z + 1 - (c.lenbits - c.pos - z)) ≤ u + 1 :=
      le_trans (Nat.pow_le_pow_right (by omega) (by omega)) hlo
    exact Nat.mul_pos (Nat.div_pos hd (Nat.two_pow_pos _)) (Nat.two_pow_pos _)
  refine ⟨e, ?_⟩
  simp only [ue, hc]
  rw [he]
  simp only [moveTo_pos, moveTo_lenbits, moveTo_sticky, hl, hs, Nat.sub_sub] at hval ⊢
  rw [if_pos hval]
  simp only [Prod.mk.injEq, Cur.mk.injEq, true_and, and_true]
  omega

/-! ### The strict policy -/

/-- Under the strict policy the walk fails, ABSENT, in front of the first element of `es` that is not
whole, where the buffer of `len` bits ends inside `es`. -/
def Walk.StopsCut {α : Type} (v : View) (len : Nat) (w : Walk α) (es : List Element) : Prop :=
  ∀ c, c.lenbits = len → c.pos ≤ len → v.holds c.pos ((bitsOf es).take (len - c.pos)) →
    len < c.pos + (bitsOf es).length →
    ∃ e, w c = .error .absent { c with
      pos := c.pos + strictStop (len - c.pos) es, sticky := true, serial := e }

theorem StopsCut.nil {α : Type} (v : View) (len : Nat) (w : Walk α) : Walk.StopsCut v len w [] :=
  fun c _ hp _ hcut => absurd hcut (by simp; omega)

theorem StopsCut.bind {α β : Type} {v : View} {len : Nat} {w : Walk α} {f : α → Walk β}
    {a b : List Element} {x : α} (hr : Walk.Reads v len w (bitsOf a) x)
    (hw : Walk.StopsCut v len w a) (hf : Walk.StopsCut v len (f x) b) :
    Walk.StopsCut v len (w >>= f) (a ++ b) := by
  intro c hc hp hh hcut
  rw [bitsOf_append, List.take_append, View.holds_append] at hh
  rw [bitsOf_append, List.length_append] at hcut
  rw [strictStop_append]
  by_cases hl : c.pos + (bitsOf a).length ≤ len
  · have hta : (bitsOf a).take (len - c.pos) = bitsOf a := List.take_of_length_le (by omega)
    rw [hta] at hh
    obtain ⟨e1, h1⟩ := hr c hc hh.1 hl
    obtain ⟨e2, h2⟩ := hf { c with pos := c.pos + (bitsOf a).length, serial := e1 } hc hl
      (by simpa only [← Nat.sub_sub] using hh.2) (by simp only; omega)
    refine ⟨e2, ?_⟩
    rw [walk_bind_ok h1, h2, if_pos (by omega)]
    simp [Nat.add_assoc, Nat.sub_sub]
  · obtain ⟨e1, h1⟩ := hw c hc hp hh.1 (by omega)
    exact ⟨e1, by rw [walk_bind_error h1, if_neg (by omega)]⟩

/-- The last element of a walk. -/
theorem StopsCut.last {α β : Type} {v : View} {len : Nat} {w : Walk α} {f : α → Walk β}
    {a : List Element} (hw : Walk.StopsCut v len w a) : Walk.StopsCut v len (w >>= f) a := by
  intro c hc hp hh hcut
  obtain ⟨e, he⟩ := hw c hc hp hh hcut
  exact ⟨e, walk_bind_error he⟩

/-- An element read whose reading function answers nothing where its element is cut. -/
theorem StopsCut.elem {α : Type} {v : View} {len : Nat} {zero : α} {read : Cur → Option α × Cur}
    {x : Element} (h : ∀ c, c.lenbits = len → v.holds c.pos (x.bits.take (len - c.pos)) →
      len < c.pos + x.bits.length → ∃ e, read c = (none, { c with serial := e })) :
    Walk.StopsCut v len (elem zero .strict read) [x] := by
  intro c hc hp hh hcut
  simp only [bitsOf_cons, bitsOf_nil, List.append_nil] at hh hcut
  obtain ⟨e, he⟩ := h c hc hh hcut
  refine ⟨e, ?_⟩
  rw [strictStop, if_neg (by omega)]
  simp [Machine.elem, he, Cur.markSticky]

theorem rd_stopsCut (v : View) (len n x : Nat) : Walk.StopsCut v len (rd v .strict n) [.u (uBits n x)] :=
  StopsCut.elem fun c hc _ hcut => ⟨c.serial, readBits_short_strict (by simp at hcut; omega) v⟩

theorem rd_stopsCut_flag (v : View) (len : Nat) (b : Bool) :
    Walk.StopsCut v len (rd v .strict 1) [.flag b] :=
  StopsCut.elem fun c hc _ hcut => ⟨c.serial, readBits_short_strict (by simp at hcut; omega) v⟩

theorem rdUe_stopsCut {v : View} (hv : v.disturbed = false) {len : Nat} (h8 : len % 8 = 0) (u : Nat) :
    Walk.StopsCut v len (rdUe v .strict) [.ue u] :=
  StopsCut.elem fun c hc hh hcut => by
    subst hc; exact ue_cut_strict hv h8 hh hcut

theorem rdSe_stopsCut {v : View} (hv : v.disturbed = false) {len : Nat} (h8 : len % 8 = 0) (k : Int) :
    Walk.StopsCut v len (rdSe v .strict) [.se k] :=
  StopsCut.elem fun c hc hh hcut => by
    subst hc
    obtain ⟨e, he⟩ := ue_cut_strict hv h8 hh hcut
    exact ⟨e, by simp [se, he]⟩

theorem repeatSe_stopsCut {v : View} (hv : v.disturbed = false) {len : Nat} (h8 : len % 8 = 0)
    {ds : List Int} (h : ds.all seLegal = true) :
    Walk.StopsCut v len (repeatSe v .strict ds.length) (ds.map .se) := by
  induction ds with
  | nil => exact StopsCut.nil v len _
  | cons d ds ih =>
    simp only [List.all_cons, Bool.and_eq_true] at h
    intro c
    simp only [repeatSe, List.length_cons, spent, reduceCtorEq, decide_false, Bool.false_and,
      Bool.false_eq_true, if_false, List.map_cons]
    exact StopsCut.bind (by simpa using rdSe_reads hv h8 .strict h.1) (rdSe_stopsCut hv h8 d)
      (ih h.2) c

/-! ### The lenient policy -/

/-- At or past the end the walk answers `x`, reads nothing, and sets STICKY if `k`. -/
def Walk.Drained {α : Type} (len : Nat) (w : Walk α) (k : Bool) (x : α) : Prop :=
  ∀ c, c.lenbits = len → len ≤ c.pos →
    ∃ e, w c = .ok x { c with sticky := c.sticky || k, serial := e }

theorem Drained.pure {α : Type} (len : Nat) (x : α) :
    Walk.Drained len (Pure.pure x : Walk α) false x := fun c _ _ => ⟨c.serial, by simp⟩

theorem Drained.bind {α β : Type} {len : Nat} {w : Walk α} {f : α → Walk β} {j k : Bool} {x : α}
    {y : β} (hw : Walk.Drained len w j x) (hf : Walk.Drained len (f x) k y) :
    Walk.Drained len (w >>= f) (j || k) y := by
  intro c hc hp
  obtain ⟨e1, h1⟩ := hw c hc hp
  obtain ⟨e2, h2⟩ := hf { c with sticky := c.sticky || j, serial := e1 } hc hp
  exact ⟨e2, by rw [walk_bind_ok h1, h2]; simp [Bool.or_assoc]⟩

theorem rd_drained (v : View) (len n : Nat) : Walk.Drained len (rd v .lenient n) true 0 :=
  fun c hc hp => ⟨c.serial, by
    simp [rd, elem, readBits_exhausted (show c.lenbits ≤ c.pos by omega), Cur.markSticky]⟩

theorem ue_exhausted {c : Cur} (h : c.lenbits ≤ c.pos) (v : View) (m : Mode) :
    ue v m c = (none, c) := by
  simp only [ue, clz_exhausted h, Nat.add_zero]
  rw [readBits_exhausted (by simpa using h)]
  cases m <;> rfl

theorem rdUe_drained (v : View) (len : Nat) : Walk.Drained len (rdUe v .lenient) true 0 :=
  fun c hc hp => ⟨c.serial, by
    simp [rdUe, elem, ue_exhausted (show c.lenbits ≤ c.pos by omega), Cur.markSticky]⟩

theorem rdSe_drained (v : View) (len : Nat) : Walk.Drained len (rdSe v .lenient) true 0 :=
  fun c hc hp => ⟨c.serial, by
    simp [rdSe, elem, se, ue_exhausted (show c.lenbits ≤ c.pos by omega), Cur.markSticky]⟩

theorem repeatSe_drained (v : View) (len n : Nat) :
    Walk.Drained len (repeatSe v .lenient n) (decide (n ≠ 0)) () := by
  induction n with
  | zero => exact Drained.pure len ()
  | succ n ih =>
    intro c hc hp
    simp only [repeatSe]
    split
    · rename_i hs
      simp only [spent, Bool.and_eq_true] at hs
      exact ⟨c.serial, by simp [← hs.2]⟩
    · simpa using Drained.bind (rdSe_drained v len) ih c hc hp

/-- Under the lenient policy the walk reads the elements `es` as far as the buffer of `len` bits holds
them, and answers `val` of the bits left for them. -/
def Walk.ReadsCut {α : Type} (v : View) (len : Nat) (w : Walk α) (es : List Element)
    (val : Nat → α) : Prop :=
  ∀ c, c.lenbits = len → v.holds c.pos ((bitsOf es).take (len - c.pos)) →
    ∃ e, w c = .ok (val (len - c.pos)) { c with
      pos := c.pos + lenientStop (len - c.pos) es
      sticky := c.sticky || absentIn (len - c.pos) es, serial := e }

theorem ReadsCut.pure {α : Type} (v : View) (len : Nat) (x : α) :
    Walk.ReadsCut v len (Pure.pure x : Walk α) [] fun _ => x :=
  fun c _ _ => ⟨c.serial, by simp [lenientStop, absentIn]⟩

/-- The last element of a walk. -/
theorem ReadsCut.last {α β : Type} {v : View} {len : Nat} {w : Walk α} {f : α → Walk β}
    {a : List Element} {x : Nat → α} {y : Nat → β} (hw : Walk.ReadsCut v len w a x)
    (hf : ∀ left c, ∃ e, f (x left) c = .ok (y left) { c with serial := e }) :
    Walk.ReadsCut v len (w >>= f) a y := by
  intro c hc hh
  obtain ⟨e1, h1⟩ := hw c hc hh
  rw [walk_bind_ok h1]
  obtain ⟨e2, h2⟩ := hf (len - c.pos) { c with
      pos := c.pos + lenientStop (len - c.pos) a
      sticky := c.sticky || absentIn (len - c.pos) a, serial := e1 }
  exact ⟨e2, h2⟩

/-- A sequence: where the first part is all there the second one reads on; where it is cut the second one
finds nothing, and one of the two sets STICKY. -/
theorem ReadsCut.bind {α β : Type} {v : View} {len : Nat} {w : Walk α} {f : α → Walk β}
    {a b : List Element} {x : Nat → α} {y : Nat → β} {z : Nat → β} (ha : allReadable a) (hb : b ≠ [])
    (hw : Walk.ReadsCut v len w a x)
    (hf : ∀ left, (bitsOf a).length ≤ left → Walk.ReadsCut v len (f (x left)) b y)
    (hd : ∀ left < (bitsOf a).length, ∃ k, (absentIn left a || k) = true ∧
      Walk.Drained len (f (x left)) k (z left))
    (hy : ∀ left, (bitsOf a).length ≤ left → z left = y (left - (bitsOf a).length)) :
    Walk.ReadsCut v len (w >>= f) (a ++ b) z := by
  intro c hc hh
  rw [bitsOf_append, List.take_append, View.holds_append] at hh
  obtain ⟨e1, h1⟩ := hw c hc hh.1
  rw [walk_bind_ok h1, lenientStop_append ha, absentIn_append]
  by_cases hl : (bitsOf a).length ≤ len - c.pos
  · obtain ⟨hs, hn⟩ := lenientStop_whole ha hl
    rw [List.take_of_length_le hl] at hh
    rw [hs, hn, if_pos hl]
    obtain ⟨e2, h2⟩ := hf _ hl { c with
        pos := c.pos + (bitsOf a).length, sticky := c.sticky || false, serial := e1 } hc
      (by simpa only [← Nat.sub_sub] using hh.2)
    refine ⟨e2, ?_⟩
    rw [h2, hy _ hl]
    simp [Nat.add_assoc, Nat.sub_sub]
  · have hle := le_lenientStop (left := len - c.pos) (es := a) (by omega)
    obtain ⟨k, hk, hd'⟩ := hd (len - c.pos) (by omega)
    obtain ⟨e2, h2⟩ := hd' { c with
        pos := c.pos + lenientStop (len - c.pos) a
        sticky := c.sticky || absentIn (len - c.pos) a, serial := e1 } hc (by simp only; omega)
    refine ⟨e2, ?_⟩
    rw [h2, if_neg hl, show len - c.pos - (bitsOf a).length = 0 by omega, absentIn_zero hb]
    simp [Bool.or_assoc, hk]

/-- rd(n) of a field, however much of it is left. -/
theorem rd_readsCut {v : View} (hv : v.disturbed = false) (len : Nat) {n x : Nat} (hn : 1 ≤ n)
    (hn' : n ≤ 64) (hx : x < 2 ^ n) :
    Walk.ReadsCut v len (rd v .lenient n) [.u (uBits n x)] fun left => cutField n left x := by
  intro c hc hh
  subst hc
  simp only [bitsOf_cons, bitsOf_nil, List.append_nil, bits_u] at hh
  by_cases hlt : c.pos < c.lenbits
  · obtain ⟨e, he⟩ := readBits_cutField hv hn hn' hx hlt hh
    refine ⟨e, ?_⟩
    rw [rd, elem_some he]
    have : ¬c.lenbits - c.pos < 1 := by omega
    simp [lenientStop_one, absentIn_one, Element.needs, this]
  · refine ⟨c.serial, ?_⟩
    rw [show c.lenbits - c.pos = 0 by omega]
    simp [cutField_zero hx, rd, elem, readBits_exhausted (show c.lenbits ≤ c.pos by omega), Cur.markSticky, lenientStop_one,
      absentIn_one, Element.needs]

/-- rd(1) of a flag: it reads as 0 where it is absent. -/
theorem rd_readsCut_flag {v : View} (hv : v.disturbed = false) (len : Nat) (b : Bool) :
    Walk.ReadsCut v len (rd v .lenient 1) [.flag b] fun left => if left = 0 then 0 else b.toNat := by
  have h := rd_readsCut hv len (n := 1) (x := b.toNat) (by omega) (by omega) (by cases b <;> decide)
  have hb : uBits 1 b.toNat = [b] := by cases b <;> rfl
  have hc : (fun left => cutField 1 left b.toNat) = fun left => if left = 0 then 0 else b.toNat := by
    funext left
    split
    · subst left; exact cutField_zero (by cases b <;> decide)
    · exact cutField_whole (by omega)
  rw [hb, hc] at h
  exact h

/-- ue() of a code, however much of it is left. -/
theorem rdUe_readsCut {v : View} (hv : v.disturbed = false) {len : Nat} (h8 : len % 8 = 0) {u : Nat}
    (hu : ueLegal u = true) :
    Walk.ReadsCut v len (rdUe v .lenient) [.ue u] fun left => cutCode left u := by
  intro c hc hh
  subst hc
  simp only [bitsOf_cons, bitsOf_nil, List.append_nil, bits_ue] at hh
  by_cases hz : c.lenbits - c.pos ≤ Nat.log2 (u + 1)
  · obtain ⟨e, he⟩ := ue_absent hv .lenient h8 hh hz
    refine ⟨e, ?_⟩
    have : c.lenbits - c.pos < Nat.log2 (u + 1) + 1 := by omega
    simp [rdUe, elem, he, Cur.markSticky, lenientStop_one, absentIn_one, Element.needs, this, cutCode, hz]
  · obtain ⟨e, he⟩ := ue_cut_lenient hv hu h8 hh (by omega)
    refine ⟨e, ?_⟩
    have : ¬c.lenbits - c.pos < Nat.log2 (u + 1) + 1 := by omega
    rw [rdUe, elem_some he]
    simp [lenientStop_one, absentIn_one, Element.needs, this]

/-- se() of a code, however much of it is left. -/
theorem rdSe_readsCut {v : View} (hv : v.disturbed = false) {len : Nat} (h8 : len % 8 = 0) {k : Int}
    (hk : seLegal k = true) : Walk.ReadsCut v len (rdSe v .lenient) [.se k]
      fun left => seValue (cutCode left (seCodeNum k)) := by
  intro c hc hh
  subst hc
  simp only [bitsOf_cons, bitsOf_nil, List.append_nil, Element.se, bits_ue] at hh
  by_cases hz : c.lenbits - c.pos ≤ Nat.log2 (seCodeNum k + 1)
  · obtain ⟨e, he⟩ := ue_absent hv .lenient h8 hh hz
    refine ⟨e, ?_⟩
    have : c.lenbits - c.pos < Nat.log2 (seCodeNum k + 1) + 1 := by omega
    simp [rdSe, elem, se, he, Cur.markSticky, lenientStop_one, absentIn_one, Element.se, Element.needs, this,
      cutCode, hz, seValue]
  · obtain ⟨e, he⟩ := ue_cut_lenient hv (ueLegal_seCodeNum hk) h8 hh (by omega)
    refine ⟨e, ?_⟩
    have : ¬c.lenbits - c.pos < Nat.log2 (seCodeNum k + 1) + 1 := by omega
    have hse : se v .lenient c = (some (seValue (cutCode (c.lenbits - c.pos) (seCodeNum k))),
        { c with pos := c.pos + (ueBits (seCodeNum k)).length, serial := e }) := by simp only [se, he]
    rw [rdSe, elem_some hse]
    simp [lenientStop_one, absentIn_one, Element.se, Element.needs, this]

end Machine

end Sys2Proof
end

