-- ==== Sys2Proof/Laws/Memory.lean ====
section
/-! SUPPORT. The laws of memory: a read after a write, and the canonical form, which every memory
operation keeps. -/

namespace Sys2Proof.Machine

/-- In canonical form above `l`, an address at or below `l` is not listed. -/
theorem memRead_of_le {m : Memory} {l x : Nat} (h : memWfAbove (some l) m = true) (hx : x ≤ l) :
    memRead m x = memDefault := by
  induction m generalizing l with
  | nil => rfl
  | cons c m ih =>
    obtain ⟨a, b⟩ := c
    simp only [memWfAbove, aboveBound, Bool.and_eq_true, decide_eq_true_eq] at h
    have hne : a ≠ x := by omega
    simp only [memRead, hne, if_false]
    exact ih h.2 (by omega)

/-- The canonical form above `l` is the canonical form. -/
theorem memWfAbove_none {m : Memory} {lo : Option Nat} (h : memWfAbove lo m = true) :
    memWfAbove none m = true := by
  cases m with
  | nil => rfl
  | cons c m =>
    simp only [memWfAbove, Bool.and_eq_true] at h ⊢
    exact ⟨⟨rfl, h.1.2⟩, h.2⟩

/-- A lower bound can be lowered. -/
theorem memWfAbove_lower {m : Memory} {l l' : Nat} (h : memWfAbove (some l) m = true) (hl : l' ≤ l) :
    memWfAbove (some l') m = true := by
  cases m with
  | nil => rfl
  | cons c m =>
    simp only [memWfAbove, aboveBound, Bool.and_eq_true, decide_eq_true_eq] at h ⊢
    exact ⟨⟨by omega, h.1.2⟩, h.2⟩

/-- Reading the byte just written. -/
theorem memRead_memWrite_same {m : Memory} (x : Nat) (v : Byte) {lo : Option Nat}
    (h : memWfAbove lo m = true) : memRead (memWrite m x v) x = v := by
  induction m generalizing lo with
  | nil => by_cases hv : v = memDefault <;> simp [memWrite, memRead, hv]
  | cons c m ih =>
    obtain ⟨a, b⟩ := c
    have hm : memWfAbove (some a) m = true := by
      simp only [memWfAbove, Bool.and_eq_true] at h; exact h.2
    simp only [memWrite]
    split
    · rename_i hxa
      split
      · rename_i hv
        have hne : a ≠ x := by omega
        simp only [memRead, hne, if_false, hv]
        exact memRead_of_le hm (by omega)
      · simp [memRead]
    · split
      · rename_i hxa
        split
        · rename_i hv
          rw [hv]; exact memRead_of_le hm (by omega)
        · simp [memRead, hxa]
      · rename_i h1 h2
        have hne : a ≠ x := fun e => h2 e.symm
        simp only [memRead, hne, if_false]
        exact ih hm

/-- A write leaves every other address alone. -/
theorem memRead_memWrite_other (m : Memory) {x y : Nat} (v : Byte) (hxy : x ≠ y) :
    memRead (memWrite m x v) y = memRead m y := by
  induction m with
  | nil => by_cases hv : v = memDefault <;> simp [memWrite, memRead, hv, hxy]
  | cons c m ih =>
    obtain ⟨a, b⟩ := c
    simp only [memWrite]
    split
    · split <;> simp [memRead, hxy]
    · split
      · rename_i hxa
        have hne : a ≠ y := by omega
        split <;> simp [memRead, hne]
      · by_cases hay : a = y <;> simp [memRead, hay, ih]

/-- A write keeps the canonical form above a bound below the address written. -/
theorem memWfAbove_memWrite {m : Memory} {x : Nat} (v : Byte) {lo : Option Nat}
    (h : memWfAbove lo m = true) (hb : aboveBound lo x = true) :
    memWfAbove lo (memWrite m x v) = true := by
  induction m generalizing lo with
  | nil =>
    by_cases hv : v = memDefault
    · simp [memWrite, hv, memWfAbove]
    · simp [memWrite, hv, memWfAbove, hb]
  | cons c m ih =>
    obtain ⟨a, b⟩ := c
    have hc := h
    simp only [memWfAbove, Bool.and_eq_true] at hc
    obtain ⟨⟨ha, hbne⟩, hm⟩ := hc
    simp only [memWrite]
    split
    · rename_i hxa
      split
      · exact h
      · rename_i hv
        simp only [memWfAbove, Bool.and_eq_true]
        exact ⟨⟨hb, by simpa using hv⟩, ⟨by simpa [aboveBound] using hxa, hbne⟩, hm⟩
    · split
      · rename_i hxa
        subst hxa
        split
        · cases lo with
          | none => exact memWfAbove_none hm
          | some l => exact memWfAbove_lower hm (by simpa [aboveBound] using Nat.le_of_lt (by simpa [aboveBound] using ha))
        · rename_i hv
          simp only [memWfAbove, Bool.and_eq_true]
          exact ⟨⟨ha, by simpa using hv⟩, hm⟩
      · rename_i h1 h2
        simp only [memWfAbove, Bool.and_eq_true]
        have hax : a < x := by omega
        exact ⟨⟨ha, hbne⟩, ih hm (by simpa [aboveBound] using hax)⟩

/-- A write keeps the canonical form. -/
theorem Memory.wf_memWrite {m : Memory} (h : Memory.wf m = true) (x : Nat) (v : Byte) :
    Memory.wf (memWrite m x v) = true :=
  memWfAbove_memWrite v h rfl

/-- The reset memory is in canonical form. -/
theorem Memory.wf_reset : Memory.wf State.reset.mem = true := rfl

end Sys2Proof.Machine
end

