-- ==== Sys2Proof/Laws/PerInstr.lean ====
section
/-! SUPPORT. Statements about every command as syntax, one lemma per constructor. -/

namespace Sys2Proof.Laws

/-- The shape of a command's word (30_encoding.md R80, R81, R83): OPC in bits 7:0, bit 15 and bits
31:19 zero, N zero but for RDBITS, REQ zero but for AACCFG. -/
def EncodingShape.Statement (i : Instr) : Prop :=
  i.WellFormed → opcField (encode i) = BitVec.ofNat 8 i.opcode ∧ bit15Field (encode i) = 0 ∧
    topField (encode i) = 0 ∧ (i.opcode ≠ 0x02 → nField (encode i) = 0) ∧
    (i.opcode ≠ 0x10 → reqField (encode i) = 0)

theorem EncodingShape.nop : EncodingShape.Statement .nop := by
  unfold EncodingShape.Statement; decide

theorem EncodingShape.cinit : EncodingShape.Statement .cinit := by
  unfold EncodingShape.Statement; decide

theorem EncodingShape.rdbits (n : Nat) : EncodingShape.Statement (.rdbits n) := by
  have key : ∀ n < 128, opcField (encode (.rdbits n)) = 0x02 ∧ bit15Field (encode (.rdbits n)) = 0 ∧
      topField (encode (.rdbits n)) = 0 ∧ reqField (encode (.rdbits n)) = 0 := by decide +kernel
  intro h
  obtain ⟨h1, h2, h3, h4⟩ := key n (decide_eq_true_eq.mp h)
  exact ⟨h1, h2, h3, fun hn => absurd rfl hn, fun _ => h4⟩

theorem EncodingShape.clz : EncodingShape.Statement .clz := by
  unfold EncodingShape.Statement; decide

theorem EncodingShape.ue : EncodingShape.Statement .ue := by
  unfold EncodingShape.Statement; decide

theorem EncodingShape.se : EncodingShape.Statement .se := by
  unfold EncodingShape.Statement; decide

theorem EncodingShape.balign : EncodingShape.Statement .balign := by
  unfold EncodingShape.Statement; decide

theorem EncodingShape.align : EncodingShape.Statement .align := by
  unfold EncodingShape.Statement; decide

theorem EncodingShape.aaccfg (req : BitVec 3) : EncodingShape.Statement (.aaccfg req) := by
  unfold EncodingShape.Statement
  revert req; decide

theorem EncodingShape.h264sps : EncodingShape.Statement .h264sps := by
  unfold EncodingShape.Statement; decide

theorem EncodingShape.vp9key : EncodingShape.Statement .vp9key := by
  unfold EncodingShape.Statement; decide

theorem EncodingShape.vp9props : EncodingShape.Statement .vp9props := by
  unfold EncodingShape.Statement; decide

theorem EncodingShape.selftest : EncodingShape.Statement .selftest := by
  unfold EncodingShape.Statement; decide

end Sys2Proof.Laws
end

