-- ==== Sys2Proof/Laws/State.lean ====
section
/-! SUPPORT. What each update of State does to each field, one lemma per field and update, so that no
proof unfolds a record update. -/

namespace Sys2Proof.Machine

@[simp] theorem complete_params (k : Completion) (s : State) : (complete k s).params = s.params := rfl
@[simp] theorem complete_ctrl (k : Completion) (s : State) : (complete k s).ctrl = s.ctrl := rfl
@[simp] theorem complete_status (k : Completion) (s : State) :
    (complete k s).status = { s.status with
      done := true, ok := k.ok, valid := k.valid, err := k.err,
      outwCh := k.outw.ch, outwSr := k.outw.sr, outwSpf := k.outw.spf } := rfl
@[simp] theorem complete_len (k : Completion) (s : State) : (complete k s).len = s.len := rfl
@[simp] theorem complete_base (k : Completion) (s : State) : (complete k s).base = s.base := rfl
@[simp] theorem complete_pos (k : Completion) (s : State) : (complete k s).pos = s.pos := rfl
@[simp] theorem complete_lenbits (k : Completion) (s : State) : (complete k s).lenbits = s.lenbits := rfl
@[simp] theorem complete_res (k : Completion) (s : State) : (complete k s).res = s.res := rfl
@[simp] theorem complete_outWidth (k : Completion) (s : State) : (complete k s).outWidth = s.outWidth := rfl
@[simp] theorem complete_outHeight (k : Completion) (s : State) : (complete k s).outHeight = s.outHeight := rfl
@[simp] theorem complete_outDwidth (k : Completion) (s : State) : (complete k s).outDwidth = s.outDwidth := rfl
@[simp] theorem complete_outDheight (k : Completion) (s : State) : (complete k s).outDheight = s.outDheight := rfl
@[simp] theorem complete_outVp9 (k : Completion) (s : State) : (complete k s).outVp9 = s.outVp9 := rfl
@[simp] theorem complete_outAacCh (k : Completion) (s : State) : (complete k s).outAacCh = s.outAacCh := rfl
@[simp] theorem complete_outAacSr (k : Completion) (s : State) : (complete k s).outAacSr = s.outAacSr := rfl
@[simp] theorem complete_outAacSpf (k : Completion) (s : State) : (complete k s).outAacSpf = s.outAacSpf := rfl
@[simp] theorem complete_running (k : Completion) (s : State) : (complete k s).running = none := rfl
@[simp] theorem complete_mem (k : Completion) (s : State) : (complete k s).mem = s.mem := rfl
@[simp] theorem complete_turns (k : Completion) (s : State) : (complete k s).turns = s.turns := rfl
@[simp] theorem complete_readData (k : Completion) (s : State) : (complete k s).readData = s.readData := rfl
@[simp] theorem complete_drawEpoch (k : Completion) (s : State) : (complete k s).drawEpoch = s.drawEpoch + s.disturbed.toNat := rfl

@[simp] theorem commitCursor_params (c : Cur) (s : State) : (commitCursor c s).params = s.params := rfl
@[simp] theorem commitCursor_ctrl (c : Cur) (s : State) : (commitCursor c s).ctrl = s.ctrl := rfl
@[simp] theorem commitCursor_status (c : Cur) (s : State) : (commitCursor c s).status = { s.status with sticky := c.sticky } := rfl
@[simp] theorem commitCursor_len (c : Cur) (s : State) : (commitCursor c s).len = s.len := rfl
@[simp] theorem commitCursor_base (c : Cur) (s : State) : (commitCursor c s).base = s.base := rfl
@[simp] theorem commitCursor_pos (c : Cur) (s : State) : (commitCursor c s).pos = BitVec.ofNat 64 c.pos := rfl
@[simp] theorem commitCursor_lenbits (c : Cur) (s : State) : (commitCursor c s).lenbits = BitVec.ofNat 64 c.lenbits := rfl
@[simp] theorem commitCursor_res (c : Cur) (s : State) : (commitCursor c s).res = s.res := rfl
@[simp] theorem commitCursor_outWidth (c : Cur) (s : State) : (commitCursor c s).outWidth = s.outWidth := rfl
@[simp] theorem commitCursor_outHeight (c : Cur) (s : State) : (commitCursor c s).outHeight = s.outHeight := rfl
@[simp] theorem commitCursor_outDwidth (c : Cur) (s : State) : (commitCursor c s).outDwidth = s.outDwidth := rfl
@[simp] theorem commitCursor_outDheight (c : Cur) (s : State) : (commitCursor c s).outDheight = s.outDheight := rfl
@[simp] theorem commitCursor_outVp9 (c : Cur) (s : State) : (commitCursor c s).outVp9 = s.outVp9 := rfl
@[simp] theorem commitCursor_outAacCh (c : Cur) (s : State) : (commitCursor c s).outAacCh = s.outAacCh := rfl
@[simp] theorem commitCursor_outAacSr (c : Cur) (s : State) : (commitCursor c s).outAacSr = s.outAacSr := rfl
@[simp] theorem commitCursor_outAacSpf (c : Cur) (s : State) : (commitCursor c s).outAacSpf = s.outAacSpf := rfl
@[simp] theorem commitCursor_running (c : Cur) (s : State) : (commitCursor c s).running = s.running := rfl
@[simp] theorem commitCursor_mem (c : Cur) (s : State) : (commitCursor c s).mem = s.mem := rfl
@[simp] theorem commitCursor_turns (c : Cur) (s : State) : (commitCursor c s).turns = s.turns := rfl
@[simp] theorem commitCursor_readData (c : Cur) (s : State) : (commitCursor c s).readData = s.readData := rfl
@[simp] theorem commitCursor_drawEpoch (c : Cur) (s : State) : (commitCursor c s).drawEpoch = s.drawEpoch := rfl

@[simp] theorem accept_params (w : Word) (s : State) : (accept w s).params = s.params := rfl
@[simp] theorem accept_ctrl (w : Word) (s : State) : (accept w s).ctrl = s.ctrl := rfl
@[simp] theorem accept_status (w : Word) (s : State) : (accept w s).status = { s.status with done := false } := rfl
@[simp] theorem accept_len (w : Word) (s : State) : (accept w s).len = s.len := rfl
@[simp] theorem accept_base (w : Word) (s : State) : (accept w s).base = s.base := rfl
@[simp] theorem accept_pos (w : Word) (s : State) : (accept w s).pos = s.pos := rfl
@[simp] theorem accept_lenbits (w : Word) (s : State) : (accept w s).lenbits = s.lenbits := rfl
@[simp] theorem accept_res (w : Word) (s : State) : (accept w s).res = s.res := rfl
@[simp] theorem accept_outWidth (w : Word) (s : State) : (accept w s).outWidth = s.outWidth := rfl
@[simp] theorem accept_outHeight (w : Word) (s : State) : (accept w s).outHeight = s.outHeight := rfl
@[simp] theorem accept_outDwidth (w : Word) (s : State) : (accept w s).outDwidth = s.outDwidth := rfl
@[simp] theorem accept_outDheight (w : Word) (s : State) : (accept w s).outDheight = s.outDheight := rfl
@[simp] theorem accept_outVp9 (w : Word) (s : State) : (accept w s).outVp9 = s.outVp9 := rfl
@[simp] theorem accept_outAacCh (w : Word) (s : State) : (accept w s).outAacCh = s.outAacCh := rfl
@[simp] theorem accept_outAacSr (w : Word) (s : State) : (accept w s).outAacSr = s.outAacSr := rfl
@[simp] theorem accept_outAacSpf (w : Word) (s : State) : (accept w s).outAacSpf = s.outAacSpf := rfl
@[simp] theorem accept_running (w : Word) (s : State) :
    (accept w s).running = some { cmd := w, mode := if s.ctrl.strict then .strict else .lenient, disturbed := false } := rfl
@[simp] theorem accept_mem (w : Word) (s : State) : (accept w s).mem = s.mem := rfl
@[simp] theorem accept_turns (w : Word) (s : State) : (accept w s).turns = s.turns := rfl
@[simp] theorem accept_readData (w : Word) (s : State) : (accept w s).readData = s.readData := rfl
@[simp] theorem accept_drawEpoch (w : Word) (s : State) : (accept w s).drawEpoch = s.drawEpoch := rfl

@[simp] theorem setDrop_params (s : State) : (setDrop s).params = s.params := rfl
@[simp] theorem setDrop_ctrl (s : State) : (setDrop s).ctrl = s.ctrl := rfl
@[simp] theorem setDrop_status (s : State) : (setDrop s).status = { s.status with drop := true } := rfl
@[simp] theorem setDrop_len (s : State) : (setDrop s).len = s.len := rfl
@[simp] theorem setDrop_base (s : State) : (setDrop s).base = s.base := rfl
@[simp] theorem setDrop_pos (s : State) : (setDrop s).pos = s.pos := rfl
@[simp] theorem setDrop_lenbits (s : State) : (setDrop s).lenbits = s.lenbits := rfl
@[simp] theorem setDrop_res (s : State) : (setDrop s).res = s.res := rfl
@[simp] theorem setDrop_outWidth (s : State) : (setDrop s).outWidth = s.outWidth := rfl
@[simp] theorem setDrop_outHeight (s : State) : (setDrop s).outHeight = s.outHeight := rfl
@[simp] theorem setDrop_outDwidth (s : State) : (setDrop s).outDwidth = s.outDwidth := rfl
@[simp] theorem setDrop_outDheight (s : State) : (setDrop s).outDheight = s.outDheight := rfl
@[simp] theorem setDrop_outVp9 (s : State) : (setDrop s).outVp9 = s.outVp9 := rfl
@[simp] theorem setDrop_outAacCh (s : State) : (setDrop s).outAacCh = s.outAacCh := rfl
@[simp] theorem setDrop_outAacSr (s : State) : (setDrop s).outAacSr = s.outAacSr := rfl
@[simp] theorem setDrop_outAacSpf (s : State) : (setDrop s).outAacSpf = s.outAacSpf := rfl
@[simp] theorem setDrop_running (s : State) : (setDrop s).running = s.running := rfl
@[simp] theorem setDrop_mem (s : State) : (setDrop s).mem = s.mem := rfl
@[simp] theorem setDrop_turns (s : State) : (setDrop s).turns = s.turns := rfl
@[simp] theorem setDrop_readData (s : State) : (setDrop s).readData = s.readData := rfl
@[simp] theorem setDrop_drawEpoch (s : State) : (setDrop s).drawEpoch = s.drawEpoch := rfl

@[simp] theorem statusW1c_params (v : Word) (s : State) : (statusW1c v s).params = s.params := rfl
@[simp] theorem statusW1c_ctrl (v : Word) (s : State) : (statusW1c v s).ctrl = s.ctrl := rfl
@[simp] theorem statusW1c_status (v : Word) (s : State) :
    (statusW1c v s).status = { s.status with
      done := s.status.done && !v.getLsbD 1, drop := s.status.drop && !v.getLsbD 11 } := rfl
@[simp] theorem statusW1c_len (v : Word) (s : State) : (statusW1c v s).len = s.len := rfl
@[simp] theorem statusW1c_base (v : Word) (s : State) : (statusW1c v s).base = s.base := rfl
@[simp] theorem statusW1c_pos (v : Word) (s : State) : (statusW1c v s).pos = s.pos := rfl
@[simp] theorem statusW1c_lenbits (v : Word) (s : State) : (statusW1c v s).lenbits = s.lenbits := rfl
@[simp] theorem statusW1c_res (v : Word) (s : State) : (statusW1c v s).res = s.res := rfl
@[simp] theorem statusW1c_outWidth (v : Word) (s : State) : (statusW1c v s).outWidth = s.outWidth := rfl
@[simp] theorem statusW1c_outHeight (v : Word) (s : State) : (statusW1c v s).outHeight = s.outHeight := rfl
@[simp] theorem statusW1c_outDwidth (v : Word) (s : State) : (statusW1c v s).outDwidth = s.outDwidth := rfl
@[simp] theorem statusW1c_outDheight (v : Word) (s : State) : (statusW1c v s).outDheight = s.outDheight := rfl
@[simp] theorem statusW1c_outVp9 (v : Word) (s : State) : (statusW1c v s).outVp9 = s.outVp9 := rfl
@[simp] theorem statusW1c_outAacCh (v : Word) (s : State) : (statusW1c v s).outAacCh = s.outAacCh := rfl
@[simp] theorem statusW1c_outAacSr (v : Word) (s : State) : (statusW1c v s).outAacSr = s.outAacSr := rfl
@[simp] theorem statusW1c_outAacSpf (v : Word) (s : State) : (statusW1c v s).outAacSpf = s.outAacSpf := rfl
@[simp] theorem statusW1c_running (v : Word) (s : State) : (statusW1c v s).running = s.running := rfl
@[simp] theorem statusW1c_mem (v : Word) (s : State) : (statusW1c v s).mem = s.mem := rfl
@[simp] theorem statusW1c_turns (v : Word) (s : State) : (statusW1c v s).turns = s.turns := rfl
@[simp] theorem statusW1c_readData (v : Word) (s : State) : (statusW1c v s).readData = s.readData := rfl
@[simp] theorem statusW1c_drawEpoch (v : Word) (s : State) : (statusW1c v s).drawEpoch = s.drawEpoch := rfl

@[simp] theorem pokeMemory_params (a : DWord) (b : Byte) (s : State) : (pokeMemory a b s).params = s.params := rfl
@[simp] theorem pokeMemory_ctrl (a : DWord) (b : Byte) (s : State) : (pokeMemory a b s).ctrl = s.ctrl := rfl
@[simp] theorem pokeMemory_status (a : DWord) (b : Byte) (s : State) : (pokeMemory a b s).status = s.status := rfl
@[simp] theorem pokeMemory_len (a : DWord) (b : Byte) (s : State) : (pokeMemory a b s).len = s.len := rfl
@[simp] theorem pokeMemory_base (a : DWord) (b : Byte) (s : State) : (pokeMemory a b s).base = s.base := rfl
@[simp] theorem pokeMemory_pos (a : DWord) (b : Byte) (s : State) : (pokeMemory a b s).pos = s.pos := rfl
@[simp] theorem pokeMemory_lenbits (a : DWord) (b : Byte) (s : State) : (pokeMemory a b s).lenbits = s.lenbits := rfl
@[simp] theorem pokeMemory_res (a : DWord) (b : Byte) (s : State) : (pokeMemory a b s).res = s.res := rfl
@[simp] theorem pokeMemory_outWidth (a : DWord) (b : Byte) (s : State) : (pokeMemory a b s).outWidth = s.outWidth := rfl
@[simp] theorem pokeMemory_outHeight (a : DWord) (b : Byte) (s : State) : (pokeMemory a b s).outHeight = s.outHeight := rfl
@[simp] theorem pokeMemory_outDwidth (a : DWord) (b : Byte) (s : State) : (pokeMemory a b s).outDwidth = s.outDwidth := rfl
@[simp] theorem pokeMemory_outDheight (a : DWord) (b : Byte) (s : State) : (pokeMemory a b s).outDheight = s.outDheight := rfl
@[simp] theorem pokeMemory_outVp9 (a : DWord) (b : Byte) (s : State) : (pokeMemory a b s).outVp9 = s.outVp9 := rfl
@[simp] theorem pokeMemory_outAacCh (a : DWord) (b : Byte) (s : State) : (pokeMemory a b s).outAacCh = s.outAacCh := rfl
@[simp] theorem pokeMemory_outAacSr (a : DWord) (b : Byte) (s : State) : (pokeMemory a b s).outAacSr = s.outAacSr := rfl
@[simp] theorem pokeMemory_outAacSpf (a : DWord) (b : Byte) (s : State) : (pokeMemory a b s).outAacSpf = s.outAacSpf := rfl
@[simp] theorem pokeMemory_running (a : DWord) (b : Byte) (s : State) : (pokeMemory a b s).running = s.running := rfl
@[simp] theorem pokeMemory_mem (a : DWord) (b : Byte) (s : State) : (pokeMemory a b s).mem = memWrite s.mem a.toNat b := rfl
@[simp] theorem pokeMemory_turns (a : DWord) (b : Byte) (s : State) : (pokeMemory a b s).turns = s.turns := rfl
@[simp] theorem pokeMemory_readData (a : DWord) (b : Byte) (s : State) : (pokeMemory a b s).readData = s.readData := rfl
@[simp] theorem pokeMemory_drawEpoch (a : DWord) (b : Byte) (s : State) : (pokeMemory a b s).drawEpoch = s.drawEpoch := rfl

@[simp] theorem disturb_params (s : State) : (disturb s).params = s.params := rfl
@[simp] theorem disturb_ctrl (s : State) : (disturb s).ctrl = s.ctrl := rfl
@[simp] theorem disturb_status (s : State) : (disturb s).status = s.status := rfl
@[simp] theorem disturb_len (s : State) : (disturb s).len = s.len := rfl
@[simp] theorem disturb_base (s : State) : (disturb s).base = s.base := rfl
@[simp] theorem disturb_pos (s : State) : (disturb s).pos = s.pos := rfl
@[simp] theorem disturb_lenbits (s : State) : (disturb s).lenbits = s.lenbits := rfl
@[simp] theorem disturb_res (s : State) : (disturb s).res = s.res := rfl
@[simp] theorem disturb_outWidth (s : State) : (disturb s).outWidth = s.outWidth := rfl
@[simp] theorem disturb_outHeight (s : State) : (disturb s).outHeight = s.outHeight := rfl
@[simp] theorem disturb_outDwidth (s : State) : (disturb s).outDwidth = s.outDwidth := rfl
@[simp] theorem disturb_outDheight (s : State) : (disturb s).outDheight = s.outDheight := rfl
@[simp] theorem disturb_outVp9 (s : State) : (disturb s).outVp9 = s.outVp9 := rfl
@[simp] theorem disturb_outAacCh (s : State) : (disturb s).outAacCh = s.outAacCh := rfl
@[simp] theorem disturb_outAacSr (s : State) : (disturb s).outAacSr = s.outAacSr := rfl
@[simp] theorem disturb_outAacSpf (s : State) : (disturb s).outAacSpf = s.outAacSpf := rfl
@[simp] theorem disturb_running (s : State) :
    (disturb s).running = s.running.map fun r => { r with disturbed := true } := rfl
@[simp] theorem disturb_mem (s : State) : (disturb s).mem = s.mem := rfl
@[simp] theorem disturb_turns (s : State) : (disturb s).turns = s.turns := rfl
@[simp] theorem disturb_readData (s : State) : (disturb s).readData = s.readData := rfl
@[simp] theorem disturb_drawEpoch (s : State) : (disturb s).drawEpoch = s.drawEpoch := rfl

@[simp] theorem popTurn_params (s : State) : (popTurn s).params = s.params := rfl
@[simp] theorem popTurn_ctrl (s : State) : (popTurn s).ctrl = s.ctrl := rfl
@[simp] theorem popTurn_status (s : State) : (popTurn s).status = s.status := rfl
@[simp] theorem popTurn_len (s : State) : (popTurn s).len = s.len := rfl
@[simp] theorem popTurn_base (s : State) : (popTurn s).base = s.base := rfl
@[simp] theorem popTurn_pos (s : State) : (popTurn s).pos = s.pos := rfl
@[simp] theorem popTurn_lenbits (s : State) : (popTurn s).lenbits = s.lenbits := rfl
@[simp] theorem popTurn_res (s : State) : (popTurn s).res = s.res := rfl
@[simp] theorem popTurn_outWidth (s : State) : (popTurn s).outWidth = s.outWidth := rfl
@[simp] theorem popTurn_outHeight (s : State) : (popTurn s).outHeight = s.outHeight := rfl
@[simp] theorem popTurn_outDwidth (s : State) : (popTurn s).outDwidth = s.outDwidth := rfl
@[simp] theorem popTurn_outDheight (s : State) : (popTurn s).outDheight = s.outDheight := rfl
@[simp] theorem popTurn_outVp9 (s : State) : (popTurn s).outVp9 = s.outVp9 := rfl
@[simp] theorem popTurn_outAacCh (s : State) : (popTurn s).outAacCh = s.outAacCh := rfl
@[simp] theorem popTurn_outAacSr (s : State) : (popTurn s).outAacSr = s.outAacSr := rfl
@[simp] theorem popTurn_outAacSpf (s : State) : (popTurn s).outAacSpf = s.outAacSpf := rfl
@[simp] theorem popTurn_running (s : State) : (popTurn s).running = s.running := rfl
@[simp] theorem popTurn_mem (s : State) : (popTurn s).mem = s.mem := rfl
@[simp] theorem popTurn_turns (s : State) : (popTurn s).turns = s.turns.tail := rfl
@[simp] theorem popTurn_readData (s : State) : (popTurn s).readData = s.readData := rfl
@[simp] theorem popTurn_drawEpoch (s : State) : (popTurn s).drawEpoch = s.drawEpoch := rfl

@[simp] theorem writeAac_params (w : Outw) (f : AacFields) (s : State) : (writeAac w f s).params = s.params := rfl
@[simp] theorem writeAac_ctrl (w : Outw) (f : AacFields) (s : State) : (writeAac w f s).ctrl = s.ctrl := rfl
@[simp] theorem writeAac_status (w : Outw) (f : AacFields) (s : State) : (writeAac w f s).status = s.status := rfl
@[simp] theorem writeAac_len (w : Outw) (f : AacFields) (s : State) : (writeAac w f s).len = s.len := rfl
@[simp] theorem writeAac_base (w : Outw) (f : AacFields) (s : State) : (writeAac w f s).base = s.base := rfl
@[simp] theorem writeAac_pos (w : Outw) (f : AacFields) (s : State) : (writeAac w f s).pos = s.pos := rfl
@[simp] theorem writeAac_lenbits (w : Outw) (f : AacFields) (s : State) : (writeAac w f s).lenbits = s.lenbits := rfl
@[simp] theorem writeAac_res (w : Outw) (f : AacFields) (s : State) : (writeAac w f s).res = s.res := rfl
@[simp] theorem writeAac_outWidth (w : Outw) (f : AacFields) (s : State) : (writeAac w f s).outWidth = s.outWidth := rfl
@[simp] theorem writeAac_outHeight (w : Outw) (f : AacFields) (s : State) : (writeAac w f s).outHeight = s.outHeight := rfl
@[simp] theorem writeAac_outDwidth (w : Outw) (f : AacFields) (s : State) : (writeAac w f s).outDwidth = s.outDwidth := rfl
@[simp] theorem writeAac_outDheight (w : Outw) (f : AacFields) (s : State) : (writeAac w f s).outDheight = s.outDheight := rfl
@[simp] theorem writeAac_outVp9 (w : Outw) (f : AacFields) (s : State) : (writeAac w f s).outVp9 = s.outVp9 := rfl
@[simp] theorem writeAac_outAacCh (w : Outw) (f : AacFields) (s : State) :
    (writeAac w f s).outAacCh = if w.ch then BitVec.ofNat 4 f.ch else s.outAacCh := rfl
@[simp] theorem writeAac_outAacSr (w : Outw) (f : AacFields) (s : State) :
    (writeAac w f s).outAacSr = if w.sr then BitVec.ofNat 24 (f.sr.getD 0) else s.outAacSr := rfl
@[simp] theorem writeAac_outAacSpf (w : Outw) (f : AacFields) (s : State) :
    (writeAac w f s).outAacSpf = if w.spf then BitVec.ofNat 11 (aacSpf f.fl) else s.outAacSpf := rfl
@[simp] theorem writeAac_running (w : Outw) (f : AacFields) (s : State) : (writeAac w f s).running = s.running := rfl
@[simp] theorem writeAac_mem (w : Outw) (f : AacFields) (s : State) : (writeAac w f s).mem = s.mem := rfl
@[simp] theorem writeAac_turns (w : Outw) (f : AacFields) (s : State) : (writeAac w f s).turns = s.turns := rfl
@[simp] theorem writeAac_readData (w : Outw) (f : AacFields) (s : State) : (writeAac w f s).readData = s.readData := rfl
@[simp] theorem writeAac_drawEpoch (w : Outw) (f : AacFields) (s : State) : (writeAac w f s).drawEpoch = s.drawEpoch := rfl

@[simp] theorem writeVp9Props_params (p : Vp9Props) (s : State) : (writeVp9Props p s).params = s.params := rfl
@[simp] theorem writeVp9Props_ctrl (p : Vp9Props) (s : State) : (writeVp9Props p s).ctrl = s.ctrl := rfl
@[simp] theorem writeVp9Props_status (p : Vp9Props) (s : State) : (writeVp9Props p s).status = s.status := rfl
@[simp] theorem writeVp9Props_len (p : Vp9Props) (s : State) : (writeVp9Props p s).len = s.len := rfl
@[simp] theorem writeVp9Props_base (p : Vp9Props) (s : State) : (writeVp9Props p s).base = s.base := rfl
@[simp] theorem writeVp9Props_pos (p : Vp9Props) (s : State) : (writeVp9Props p s).pos = s.pos := rfl
@[simp] theorem writeVp9Props_lenbits (p : Vp9Props) (s : State) : (writeVp9Props p s).lenbits = s.lenbits := rfl
@[simp] theorem writeVp9Props_res (p : Vp9Props) (s : State) : (writeVp9Props p s).res = s.res := rfl
@[simp] theorem writeVp9Props_outWidth (p : Vp9Props) (s : State) : (writeVp9Props p s).outWidth = BitVec.ofNat 64 p.size.w := rfl
@[simp] theorem writeVp9Props_outHeight (p : Vp9Props) (s : State) : (writeVp9Props p s).outHeight = BitVec.ofNat 64 p.size.h := rfl
@[simp] theorem writeVp9Props_outDwidth (p : Vp9Props) (s : State) : (writeVp9Props p s).outDwidth = BitVec.ofNat 32 p.size.dw := rfl
@[simp] theorem writeVp9Props_outDheight (p : Vp9Props) (s : State) : (writeVp9Props p s).outDheight = BitVec.ofNat 32 p.size.dh := rfl
@[simp] theorem writeVp9Props_outVp9 (p : Vp9Props) (s : State) :
    (writeVp9Props p s).outVp9 = {
        bitDepth := BitVec.ofNat 4 p.bd, colorSpace := BitVec.ofNat 3 p.cs,
        ssx := p.color.ssx, ssy := p.color.ssy, fullSwing := p.color.fs,
        profile := BitVec.ofNat 2 p.profile, key := true } := rfl
@[simp] theorem writeVp9Props_outAacCh (p : Vp9Props) (s : State) : (writeVp9Props p s).outAacCh = s.outAacCh := rfl
@[simp] theorem writeVp9Props_outAacSr (p : Vp9Props) (s : State) : (writeVp9Props p s).outAacSr = s.outAacSr := rfl
@[simp] theorem writeVp9Props_outAacSpf (p : Vp9Props) (s : State) : (writeVp9Props p s).outAacSpf = s.outAacSpf := rfl
@[simp] theorem writeVp9Props_running (p : Vp9Props) (s : State) : (writeVp9Props p s).running = s.running := rfl
@[simp] theorem writeVp9Props_mem (p : Vp9Props) (s : State) : (writeVp9Props p s).mem = s.mem := rfl
@[simp] theorem writeVp9Props_turns (p : Vp9Props) (s : State) : (writeVp9Props p s).turns = s.turns := rfl
@[simp] theorem writeVp9Props_readData (p : Vp9Props) (s : State) : (writeVp9Props p s).readData = s.readData := rfl
@[simp] theorem writeVp9Props_drawEpoch (p : Vp9Props) (s : State) : (writeVp9Props p s).drawEpoch = s.drawEpoch := rfl

@[simp] theorem resetUnit_params (s : State) : (resetUnit s).params = s.params := rfl
@[simp] theorem resetUnit_ctrl (s : State) : (resetUnit s).ctrl = State.reset.ctrl := rfl
@[simp] theorem resetUnit_status (s : State) : (resetUnit s).status = State.reset.status := rfl
@[simp] theorem resetUnit_len (s : State) : (resetUnit s).len = State.reset.len := rfl
@[simp] theorem resetUnit_base (s : State) : (resetUnit s).base = State.reset.base := rfl
@[simp] theorem resetUnit_pos (s : State) : (resetUnit s).pos = State.reset.pos := rfl
@[simp] theorem resetUnit_lenbits (s : State) : (resetUnit s).lenbits = State.reset.lenbits := rfl
@[simp] theorem resetUnit_res (s : State) : (resetUnit s).res = State.reset.res := rfl
@[simp] theorem resetUnit_outWidth (s : State) : (resetUnit s).outWidth = State.reset.outWidth := rfl
@[simp] theorem resetUnit_outHeight (s : State) : (resetUnit s).outHeight = State.reset.outHeight := rfl
@[simp] theorem resetUnit_outDwidth (s : State) : (resetUnit s).outDwidth = State.reset.outDwidth := rfl
@[simp] theorem resetUnit_outDheight (s : State) : (resetUnit s).outDheight = State.reset.outDheight := rfl
@[simp] theorem resetUnit_outVp9 (s : State) : (resetUnit s).outVp9 = State.reset.outVp9 := rfl
@[simp] theorem resetUnit_outAacCh (s : State) : (resetUnit s).outAacCh = State.reset.outAacCh := rfl
@[simp] theorem resetUnit_outAacSr (s : State) : (resetUnit s).outAacSr = State.reset.outAacSr := rfl
@[simp] theorem resetUnit_outAacSpf (s : State) : (resetUnit s).outAacSpf = State.reset.outAacSpf := rfl
@[simp] theorem resetUnit_running (s : State) : (resetUnit s).running = State.reset.running := rfl
@[simp] theorem resetUnit_mem (s : State) : (resetUnit s).mem = s.mem := rfl
@[simp] theorem resetUnit_turns (s : State) : (resetUnit s).turns = s.turns := rfl
@[simp] theorem resetUnit_readData (s : State) : (resetUnit s).readData = s.readData := rfl
@[simp] theorem resetUnit_drawEpoch (s : State) : (resetUnit s).drawEpoch = s.drawEpoch := rfl

/-! ### The views of a state that an update leaves alone -/

@[simp] theorem view_popTurn (s : State) : (popTurn s).view = s.view := rfl
@[simp] theorem mode_popTurn (s : State) : (popTurn s).mode = s.mode := rfl
@[simp] theorem cursor_popTurn (s : State) : (popTurn s).cursor = s.cursor := rfl
@[simp] theorem freshCursor_popTurn (s : State) : (popTurn s).freshCursor = s.freshCursor := rfl
@[simp] theorem disturbed_popTurn (s : State) : (popTurn s).disturbed = s.disturbed := rfl
@[simp] theorem disturbed_commitCursor (c : Cur) (s : State) :
    (commitCursor c s).disturbed = s.disturbed := rfl
@[simp] theorem disturbed_writeAac (w : Outw) (f : AacFields) (s : State) :
    (writeAac w f s).disturbed = s.disturbed := rfl
@[simp] theorem disturbed_writeVp9Props (p : Vp9Props) (s : State) :
    (writeVp9Props p s).disturbed = s.disturbed := rfl
@[simp] theorem busy_complete (k : Completion) (s : State) : (complete k s).busy = false := rfl
@[simp] theorem busy_accept (w : Word) (s : State) : (accept w s).busy = true := rfl
@[simp] theorem disturbed_complete (k : Completion) (s : State) :
    (complete k s).disturbed = false := rfl

/-- What a state's cursor commits back to it changes nothing. -/
theorem commitCursor_cursor (s : State) : commitCursor s.cursor s = s := by
  simp [commitCursor, State.cursor]

/-- The two cases of a write that BUSY drops. -/
theorem unlessBusy_cases (s t : State) :
    (s.busy = true ∧ unlessBusy s t = setDrop s) ∨ (s.busy = false ∧ unlessBusy s t = t) := by
  cases h : s.busy <;> simp [unlessBusy, h]

/-- The two completions of RDBITS, UE, SE and ALIGN. -/
theorem completeRead_cases (e : ErrCode) (r : Option DWord) (c : Cur) (s : State) :
    (r = none ∧ completeRead e r c s =
      complete (failed e) { commitCursor c.markSticky s with res := 0 }) ∨
    (∃ x, r = some x ∧ completeRead e r c s =
      complete (succeeded true) { commitCursor c s with res := x }) := by
  cases r with
  | none => exact .inl ⟨rfl, rfl⟩
  | some x => exact .inr ⟨x, rfl, rfl⟩

end Sys2Proof.Machine
end

