-- ==== Sys2Proof/Laws/Turns.lean ====
section
/-! SUPPORT. What each turn can do, said once: the guarded addresses, the register window, and the
actions of the host, the other agents and the memory. -/

namespace Sys2Proof.Machine

/-- An address is guarded exactly when it is that of a buffer byte the running command may read
(20_memory.md R61, R70). -/
theorem guards_iff (s : State) (a : Nat) : s.guards a = true ↔
    ∃ k < protectedBytes s, a = (s.base.toNat + k) % 2 ^ s.params.addrW := by
  unfold State.guards
  have hp := Nat.two_pow_pos s.params.addrW
  generalize 2 ^ s.params.addrW = M at *
  generalize protectedBytes s = n
  generalize s.base.toNat = b
  simp only [Bool.and_eq_true, decide_eq_true_eq]
  have hb := Nat.mod_lt b hp
  have hba : b % M + M * (b / M) = b := Nat.mod_add_div b M
  constructor
  · rintro ⟨h1, h2⟩
    refine ⟨_, h2, ?_⟩
    rw [Nat.add_mod_mod]
    generalize b % M = x at *
    generalize b / M = y at *
    rw [show b + (a + M - x) = a + M * (y + 1) by rw [Nat.mul_add]; omega,
      Nat.add_mul_mod_self_left, Nat.mod_eq_of_lt h1]
  · rintro ⟨k, hk, rfl⟩
    refine ⟨Nat.mod_lt _ hp, lt_of_le_of_lt ?_ hk⟩
    rw [← Nat.mod_add_mod b]
    generalize b % M = x at *
    have h1 : ((x + k) % M + M - x) % M = k % M := by
      rw [show (x + k) % M + M - x = (x + k) % M + (M - x) by omega, Nat.mod_add_mod,
        show x + k + (M - x) = k + M by omega, Nat.add_mod_right]
    rw [h1]; exact Nat.mod_le _ _

/-- The bytes a command may read do not depend on the turns. -/
@[simp] theorem mayReadBytes_popTurn (i : Instr) (s : State) :
    mayReadBytes i (popTurn s) = mayReadBytes i s := by cases i <;> rfl

/-- The bytes the running command may read (20_memory.md R70). -/
theorem protectedBytes_running {s : State} {r : Running} {i : Instr} (hr : s.running = some r)
    (hd : decode r.cmd = .ok i) : protectedBytes s = mayReadBytes i s := by
  simp only [protectedBytes, hr, hd]

/-- Everything a register write can change: CTRL, LEN, BASE, STATUS.DONE, STATUS.DROP and, by an
acceptance, the running command (10_state.md R35, R36). -/
theorem regWrite_frame (off : Nat) (v : Word) (s : State) :
    let t := regWrite off v s
    t = { s with
      ctrl := t.ctrl, len := t.len, base := t.base, running := t.running
      status := { s.status with done := t.status.done, drop := t.status.drop } } := by
  simp only [regWrite, unlessBusy]
  split <;> (try split) <;> rfl

/-- A busy unit stays busy under a register write, its command stays, and DONE is not set. -/
theorem regWrite_busy (off : Nat) (v : Word) {s : State} (h : s.busy = true) :
    (regWrite off v s).running = s.running ∧
    (s.status.done = false → (regWrite off v s).status.done = false) := by
  simp only [regWrite, unlessBusy, h, if_true]
  split <;> simp_all

/-- Everything a host action can do (70_reset_and_hazards.md R271). -/
theorem hostAct_cases (a : HostAction) (s : State) :
    (∃ off bytes, a = .read off bytes ∧ alignedWord off bytes = true ∧
      hostAct a s = .next { s with readData := regRead s off.toNat }) ∨
    (∃ off bytes v, a = .write off bytes v ∧ alignedWord off bytes = true ∧
      hostAct a s = .next (regWrite off.toNat v s)) ∨
    (∃ x b, a = .memWrite x b ∧ s.guards x.toNat = false ∧
      hostAct a s = .next (pokeMemory x b s)) ∨
    (∃ r, hostAct a s = .refused r) := by
  cases a with
  | read off bytes =>
    by_cases h : alignedWord off bytes = true
    · exact .inl ⟨off, bytes, rfl, h, by simp only [hostAct, h, if_true]⟩
    · exact .inr (.inr (.inr ⟨_, by simp only [hostAct, h, if_false, Bool.false_eq_true]; rfl⟩))
  | write off bytes v =>
    by_cases h : alignedWord off bytes = true
    · exact .inr (.inl ⟨off, bytes, v, rfl, h, by simp only [hostAct, h, if_true]⟩)
    · exact .inr (.inr (.inr ⟨_, by simp only [hostAct, h, if_false, Bool.false_eq_true]; rfl⟩))
  | memWrite x b =>
    cases h : s.guards x.toNat with
    | false =>
      exact .inr (.inr (.inl ⟨x, b, rfl, h, by
        simp only [hostAct, h, Bool.false_eq_true, if_false]⟩))
    | true => exact .inr (.inr (.inr ⟨_, by simp only [hostAct, h, if_true]; rfl⟩))

/-- The two things another agent's write can do (20_memory.md R70). -/
theorem agentAct_cases (x : DWord) (b : Byte) (s : State) :
    (s.guards x.toNat = true ∧ agentAct x b s = disturb (pokeMemory x b s)) ∨
    (s.guards x.toNat = false ∧ agentAct x b s = pokeMemory x b s) := by
  cases h : s.guards x.toNat <;> simp [agentAct, h]

/-- The two things an error answer can do (20_memory.md R75). -/
theorem memErrorAct_cases (s : State) :
    (protectedBytes s = 0 ∧ memErrorAct s = .next s) ∨
    (protectedBytes s ≠ 0 ∧ memErrorAct s = .refused .memoryPortError) := by
  by_cases h : protectedBytes s = 0 <;> simp [memErrorAct, h]

end Sys2Proof.Machine
end

