-- ==== Sys2Proof/Tests/Slice0.lean ====
section
/-! SUPPORT. Tests: the well-formedness checks, the decoding of words written out from the spec's
encoding, at most two small tests per command with results taken from 95_test_vectors.md, and, for each
statement with hypotheses, a witness: a concrete state and operands that meet them together. -/

namespace Sys2Proof.Tests

set_option Elab.async false

open Sys2Proof Sys2Proof.Machine

/-! ### Helpers -/

/-- Memory with the given bytes from address 0x1000 on. -/
def bytesAt1000 (bytes : List Nat) : Memory :=
  (bytes.foldl (fun p b => (memWrite p.1 p.2 (BitVec.ofNat 8 b), p.2 + 1))
    (([], 0x1000) : Memory × Nat)).1

/-- The reset state with a buffer at 0x1000, under a policy (95_test_vectors.md, Conventions). -/
def unit (strict : Bool) (bytes : List Nat) : State :=
  { State.reset with
    ctrl := { strict := strict, ie := false }
    len := BitVec.ofNat 32 bytes.length
    base := 0x1000
    mem := bytesAt1000 bytes }

/-- The same in a cursor session at `pos`. -/
def session (strict : Bool) (bytes : List Nat) (pos : Nat) : State :=
  { unit strict bytes with
    pos := BitVec.ofNat 64 pos
    lenbits := BitVec.ofNat 64 (8 * bytes.length) }

/-- What `f` sees of the next state. -/
def after {α : Type} (o : Host.Outcome State Fault Refusal) (f : State → α) : Option α :=
  match o with
  | .next t => some (f t)
  | .fault _ => none
  | .refused _ => none

/-- RES, POS and STATUS, which the vectors give. -/
def seen (s : State) : Nat × Nat × Nat := (s.res.toNat, s.pos.toNat, (statusWord s).toNat)

/-- The unit runs the word `w`; the turns `ts` come first. -/
def busyWith (w : Word) (ts : List Turn) : State :=
  { (session true [0xB7] 0).latched w .strict with turns := ts }

/-! ### Well-formedness -/

theorem test_rdbits_128_is_ill_formed : ¬(Instr.rdbits 128).WellFormed := by decide

theorem test_rdbits_127_is_well_formed : (Instr.rdbits 127).WellFormed := by decide

/-! ### Decoding: words written bit by bit from R80 and R81 -/

theorem test_decode_nop : decode 0b0000000000000_000_0_0000000_00000000#32 = .ok .nop := by decide

theorem test_decode_cinit : decode 0b0000000000000_000_0_0000000_00000001#32 = .ok .cinit := by decide

theorem test_decode_rdbits :
    decode 0b0000000000000_000_0_1000000_00000010#32 = .ok (.rdbits 64) := by decide

theorem test_decode_clz : decode 0b0000000000000_000_0_0000000_00000011#32 = .ok .clz := by decide

theorem test_decode_ue : decode 0b0000000000000_000_0_0000000_00000100#32 = .ok .ue := by decide

theorem test_decode_se : decode 0b0000000000000_000_0_0000000_00000101#32 = .ok .se := by decide

theorem test_decode_balign :
    decode 0b0000000000000_000_0_0000000_00000110#32 = .ok .balign := by decide

theorem test_decode_align : decode 0b0000000000000_000_0_0000000_00000111#32 = .ok .align := by decide

theorem test_decode_aaccfg :
    decode 0b0000000000000_110_0_0000000_00010000#32 = .ok (.aaccfg 0b110) := by decide

theorem test_decode_h264sps :
    decode 0b0000000000000_000_0_0000000_00010001#32 = .ok .h264sps := by decide

theorem test_decode_vp9key :
    decode 0b0000000000000_000_0_0000000_00010010#32 = .ok .vp9key := by decide

theorem test_decode_vp9props :
    decode 0b0000000000000_000_0_0000000_00010011#32 = .ok .vp9props := by decide

theorem test_decode_selftest :
    decode 0b0000000000000_000_0_0000000_00011111#32 = .ok .selftest := by decide

/-- The four ways a word is illegal (R83). -/
theorem test_decode_illegal :
    decode 0b0000000000000_000_0_0000000_00001000#32 = .error .unknownOpcode ∧
    decode 0b0000000000000_000_1_0000000_00000000#32 = .error .reservedBitSet ∧
    decode 0b0000000000001_000_0_0000000_00000000#32 = .error .reservedBitSet ∧
    decode 0b0000000000000_000_0_0000001_00000100#32 = .error .strayN ∧
    decode 0b0000000000000_001_0_0000000_00000010#32 = .error .strayReq := by decide

/-- A word of the opcode table reaches `step` (R80, R232). -/
theorem test_step_runs_the_placed_word :
    after (step (State.reset.withFetchWord 32 0x1F)) seen = some (254, 0, 0x10E) := by decide +kernel

/-- The assembler's lines (R86, R87). -/
theorem test_assembler :
    assembleWord (.rdbits (.hex [4, 0])) = some 0x4002#32 ∧
    assembleWord (.aaccfg [.spf, .ch]) = some 0x00050010#32 ∧
    assembleWord (.aaccfg [.ch, .ch]) = none := by decide

/-! ### Commands: results of 95_test_vectors.md -/

/-- V-B70. -/
theorem test_nop : after (exec .nop (session true [0xFF] 0)) seen = some (0, 0, 0x006) := by
  decide +kernel

/-- V-B71: CINIT after RDBITS 4; RES stays. -/
theorem test_cinit : after (exec .cinit { session true [0xFF] 4 with res := 0xF }) seen =
    some (0xF, 0, 0x006) := by decide +kernel

/-- V-B3: a read that ends exactly at LENBITS. -/
theorem test_rdbits_across_bytes :
    after (exec (.rdbits 12) (session true [0xA5, 0x3C, 0xFF] 12)) seen = some (0xCFF, 24, 0x10E) := by
  decide +kernel

/-- V-B7: a lenient short read overshoots. -/
theorem test_rdbits_lenient_short :
    after (exec (.rdbits 12) (session false [0xB7] 0)) seen = some (0xB70, 12, 0x30E) := by
  decide +kernel

/-- V-B21. -/
theorem test_clz : after (exec .clz (session true [0x01, 0xFF] 3)) seen = some (4, 3, 0x00E) := by
  decide +kernel

/-- V-B24: no one bit before the end. -/
theorem test_clz_no_one_bit :
    after (exec .clz (session true [0x00, 0x00] 0)) seen = some (16, 0, 0x00E) := by decide +kernel

/-- W3a, the source's fixture. -/
theorem test_ue_fixture :
    after (exec .ue (session true [0x01, 0xFF] 0)) seen = some (254, 15, 0x00E) := by decide +kernel

/-- V-B32: information bits cut off under the lenient policy. -/
theorem test_ue_lenient_cut :
    after (exec .ue (session false [0x00, 0x07] 0)) seen = some (14335, 27, 0x30E) := by
  decide +kernel

/-- W2, k = 6. -/
theorem test_se_negative :
    after (exec .se (session true [0x38] 0)) seen = some (0xFFFFFFFFFFFFFFFD, 5, 0x00E) := by
  decide +kernel

/-- V-B38: the most negative value. -/
theorem test_se_extreme : after (exec .se (session true [0, 0, 0, 0, 0, 0, 0, 1, 0xFF, 0xFF, 0xFF,
    0xFF, 0xFF, 0xFF, 0xFF, 0xFF] 0)) seen = some (0x8000000000000001, 127, 0x00E) := by
  decide +kernel

/-- V-B54. -/
theorem test_balign : after (exec .balign (session true [0xFF, 0x00] 9)) seen =
    some (1, 9, 0x00E) := by decide +kernel

/-- V-B60: ALIGN to the end of the buffer. -/
theorem test_align : after (exec .align (session true [0xFF, 0xFF] 9)) seen =
    some (7, 16, 0x10E) := by decide +kernel

/-- V-B62: ALIGN after an overshoot. -/
theorem test_align_overshot : after (exec .align (session false [0xB7] 12)) seen =
    some (0, 12, 0x732) := by decide +kernel

/-- The AAC outputs and STATUS. -/
def seenAac (s : State) : Nat × Nat × Nat × Nat :=
  (s.outAacCh.toNat, s.outAacSr.toNat, s.outAacSpf.toNat, (statusWord s).toNat)

/-- W4b, the corrected fixture. -/
theorem test_aaccfg_table : after (exec (.aaccfg 7) (unit true [0x14, 0x00])) seenAac =
    some (0, 16000, 1024, 0x7106) := by decide +kernel

/-- V-A9: the explicit rate. -/
theorem test_aaccfg_explicit :
    after (exec (.aaccfg 7) (unit true [0x17, 0x80, 0x00, 0x7D, 0x10])) seenAac =
      some (2, 250, 1024, 0x7106) := by decide +kernel

/-- The bytes of V-H1. -/
def spsBytes : List Nat := [0x67, 0x42, 0x00, 0x1F, 0xF4, 0x02, 0x80, 0x2D, 0xC8]

/-- V-H1, the source's H.264 fixture. -/
theorem test_h264sps : after (exec .h264sps (unit true spsBytes)) (fun s =>
    (s.outWidth.toNat, s.outHeight.toNat, seen s)) = some (1280, 720, 0, 67, 0x006) := by
  decide +kernel

/-- V-H8: a negative width is RANGE under the strict policy. -/
theorem test_h264sps_range : after (exec .h264sps (unit true [0x67, 0x42, 0x00, 0x1F, 0xDA, 0x7C,
    0x57, 0x80])) (fun s => (s.outWidth.toNat, seen s)) = some (0, 0, 56, 0x0A2) := by decide +kernel

/-- The bytes of V-V1. -/
def vp9Bytes : List Nat := [0x80, 0x49, 0x83, 0x42, 0x20, 0x04, 0xFF, 0x02, 0xCF, 0x00]

/-- V-V1k. -/
theorem test_vp9key : after (exec .vp9key (unit true vp9Bytes)) (fun s =>
    (s.outVp9.key, seen s)) = some (true, 0, 6, 0x006) := by decide +kernel

/-- R191's example: byte 0 = 0x84 is an inter frame, a success with KEY = 0. -/
theorem test_vp9key_inter : after (exec .vp9key (unit true [0x84])) (fun s =>
    (s.outVp9.key, s.status.ok)) = some (false, true) := by decide +kernel

/-- V-V1, the source's VP9 fixture. -/
theorem test_vp9props : after (exec .vp9props (unit true vp9Bytes)) (fun s =>
    (s.outWidth.toNat, s.outDheight.toNat, (vp9Word s.outVp9).toNat, seen s)) =
      some (1280, 720, 0x1198, 0, 73, 0x006) := by decide +kernel

/-- R193's example: a lenient sync code whose last bit is missing. -/
theorem test_vp9props_short_sync : after (exec .vp9props (unit false [0xB0, 0x24, 0xC1, 0xA1]))
    (fun s => (s.outWidth.toNat, s.pos.toNat, s.status.sticky)) = some (1, 33, true) := by
  decide +kernel

/-- V-B73: SELFTEST from the reset state. -/
theorem test_selftest : after (exec .selftest State.reset) seen = some (254, 0, 0x10E) := by
  decide +kernel

/-! ### Turns -/

/-- A dropped write sets DROP (R237); DONE falls at acceptance (R232). -/
theorem test_dropped_write :
    after (step (busyWith 0x04 [.host (.write 0x0C 4 5)])) (fun s => (s.status.drop, s.len)) =
      some (true, 1) := by decide +kernel

/-- A whole session as turns: load, run, wait, read (R88, R272). -/
theorem test_program : (programTurns Params.default [.buf 0x1000 [0x01, 0xFF], .wr 0x10 0x1000,
    .wr 0x0C 2, .cmd (.plain .cinit), .wait, .rd 0x20]).map List.length = some 9 := by decide +kernel

/-! ### Witnesses: states and operands that meet the statements' hypotheses

Each is named after its statement. Where a statement has several clauses, each gets one. -/

/-- The step has a next state. -/
def goesOn (o : Host.Outcome State Fault Refusal) : Bool := (after o fun _ => ()).isSome

theorem witness_DecodeInvertsEncode : (Instr.rdbits 127).WellFormed ∧ (Instr.aaccfg 7).WellFormed := by
  decide

theorem witness_EncodeInvertsDecode : decode 0x7F02#32 = .ok (.rdbits 127) := by decide

theorem witness_IllegalWordsCompleteWithIllegal :
    nextTurn (busyWith 0x80000000 []) = .unit ∧
    decode 0x80000000#32 = .error .reservedBitSet := by decide

theorem witness_AssemblerLinesGiveTheirWords :
    Instr.takesNoOperand .selftest = true ∧ (Numeral.dec [1, 2, 7]).nonempty = true ∧
    (Numeral.dec [1, 2, 7]).value = 127 ∧ 127 < (Numeral.hex [8, 0]).value ∧
    ([.spf, .sr, .ch] : List AacKeyword).Nodup := by decide

theorem witness_StepRunsTheDecodedCommand :
    nextTurn (busyWith 0x07 []) = .unit ∧ decode 0x07#32 = .ok .align ∧
    decodeTableWord 32 0x13 = some .vp9props := by decide

/-- An idle and a busy unit with the host's turn next. -/
def hostNext (busy : Bool) (a : HostAction) : State :=
  if busy then busyWith 0x04 [.host a] else { session true [0xB7] 0 with turns := [.host a] }

theorem witness_CommandAcceptance :
    (hostNext false (.write 0x04 4 0x04)).busy = false ∧
    (hostNext true (.write 0x04 4 0x04)).busy = true ∧
    (hostNext true (.write 0x04 4 0x04)).turns = [.host (.write 0x04 4 0x04)] := by decide

theorem witness_BusyWritesAreDropped :
    ([0x00, 0x04, 0x0C, 0x10, 0x14, 0x08] : List (BitVec 8)).all (fun off =>
      (hostNext true (.write off 4 1)).busy &&
      decide (off.toNat ∈ [0x00, 0x04, 0x0C, 0x10, 0x14] ∨ off.toNat = 0x08)) = true := by decide

theorem witness_StatusWriteClearsDoneAndDrop :
    (hostNext false (.write 0x08 4 0x802)).turns = [.host (.write 0x08 4 0x802)] := by decide

theorem witness_RegisterReadsFollowTheMap : (0xFC#8).toNat % 4 = 0 ∧
    (hostNext true (.read 0xFC 4)).turns = [.host (.read 0xFC 4)] := by decide

theorem witness_ReservedSpaceReadsZero : 0x58 ≤ 0x58 ∧ 0x18 ≤ (0x18#8).toNat ∧
    (0x18#8).toNat % 4 = 0 ∧ 0x18 ≤ (0xFC#8).toNat ∧ (0xFC#8).toNat % 4 = 0 ∧
    (hostNext true (.write 0x18 4 1)).turns = [.host (.write 0x18 4 1)] := by decide

theorem witness_IdleRegisterWrites :
    ([0x00, 0x0C, 0x10, 0x14] : List (BitVec 8)).all (fun off =>
      !(hostNext false (.write off 4 3)).busy &&
      decide ((hostNext false (.write off 4 3)).turns = [.host (.write off 4 3)])) = true := by decide

theorem witness_ActionsOutsideTheModelAreRefused :
    (hostNext false (.read 0x02 4)).turns = [.host (.read 0x02 4)] ∧ (0x02#8).toNat % 4 ≠ 0 ∧
    (hostNext true (.write 0x00 2 0)).turns = [.host (.write 0x00 2 0)] ∧ 2 ≠ 4 ∧
    decode 0x04#32 = .ok .ue ∧ 0 < mayReadBytes .ue (busyWith 0x04 [.memError]) ∧
    0 < mayReadBytes .ue (hostNext true (.memWrite 0x1000 5)) ∧
    (0x1000#64).toNat = ((hostNext true (.memWrite 0x1000 5)).base.toNat + 0) % 2 ^ 64 ∧
    (busyWith 0x06 [.memError]).turns = [.memError] ∧ decode 0x06#32 = .ok .balign ∧
    mayReadBytes .balign (busyWith 0x06 [.memError]) = 0 ∧
    State.reset.running = none ∧ decode 0x08#32 = .error .unknownOpcode := by decide

/-- An idle unit, an illegal word latched, and the byte after the running command's buffer. -/
theorem witness_HostMemoryWritesChangeTheByte :
    (hostNext false (.memWrite 0x1000 5)).turns = [.host (.memWrite 0x1000 5)] ∧
    (hostNext false (.memWrite 0x1000 5)).mem.wf = true ∧
    (hostNext false (.memWrite 0x1000 5)).running = none ∧
    decode 0x08#32 = .error .unknownOpcode ∧ decode 0x04#32 = .ok .ue ∧
    (∀ k < mayReadBytes .ue (hostNext true (.memWrite 0x1001 5)),
      (0x1001#64).toNat ≠ ((hostNext true (.memWrite 0x1001 5)).base.toNat + k) % 2 ^ 64) := by
  have h : mayReadBytes .ue (hostNext true (.memWrite 0x1001 5)) = 1 := by decide
  rw [h]; decide

/-- The byte read, the byte after the buffer, an idle unit, and an illegal word. -/
theorem witness_AgentWritesDisturbTheCommand :
    (busyWith 0x04 [.agentWrite 0x1000 5]).mem.wf = true ∧ decode 0x04#32 = .ok .ue ∧
    (∃ k < mayReadBytes .ue (busyWith 0x04 []),
      (0x1000#64).toNat = ((busyWith 0x04 []).base.toNat + k) % 2 ^ 64) ∧
    (∀ k < mayReadBytes .ue (busyWith 0x04 []),
      (0x1001#64).toNat ≠ ((busyWith 0x04 []).base.toNat + k) % 2 ^ 64) ∧
    State.reset.running = none ∧ decode 0x08#32 = .error .unknownOpcode := by
  have h : mayReadBytes .ue (busyWith 0x04 []) = 1 := by decide
  rw [h]
  exact ⟨by decide, by decide, ⟨0, by decide, by decide⟩, by decide, by decide, by decide⟩

theorem witness_ResetFromAnyState : (busyWith 0x11 [.rst]).turns = [.rst] := by decide

theorem witness_IrqIsDoneAndEnable : goesOn (exec .nop State.reset) = true ∧
    (0x2#32).getLsbD 1 = true ∧ State.reset.busy = false ∧ (0x1#32).getLsbD 1 = false ∧
    (busyWith 0x04 []).StatusInv ∧ (busyWith 0x04 []).busy = true := by decide +kernel

theorem witness_BusyUnitCompletes :
    (busyWith 0x04 [.memError]).busy = true ∧
    (busyWith 0x04 [.host (.write 0x04 4 1), .agentWrite 0x1000 3]).busy = true ∧
    (busyWith 0x04 [.host (.write 0x04 4 1), .agentWrite 0x1000 3]).turns.all Turn.plain = true := by
  decide

/-- The turns of R272's cases: the last command's completion with a write, a WAIT or a reset around it. -/
def runOf (ts : List Turn) : State := busyWith 0x1F ts

/-- R272: the run ends at the completion of the last command, where LEN is still 1, whatever the host
does after it; not at an earlier command's, and not where rst abandons the last one. -/
theorem test_run_end :
    ((runEnd 9 (.start (runOf [.unit, .host (.write 0x0C 4 5)]))).map fun t => (t.len, seen t)) =
      some (1, 254, 0, 0x00E) ∧
    ((runEnd 9 (.start (runOf [.unit, .host (.read 0x08 4), .host (.write 0x08 4 2)]))).map seen) =
      some (254, 0, 0x00E) ∧
    ((runEnd 9 (.start (runOf [.unit, .host (.write 0x04 4 0x06)]))).map seen) =
      some (0, 0, 0x00E) ∧
    ((runEnd 9 (.start (runOf [.unit, .host (.write 0x04 4 0x06), .rst]))).map seen) = none ∧
    ((runEnd 9 (.start (session true [0xB7] 0))).map seen) = none := by decide +kernel

/-- A run that ends, and one of plain turns with no CMD write left. -/
theorem witness_RunEndsWithTheLastCommand :
    (runEnd 9 (.start (runOf [.unit, .host (.write 0x04 4 0x06)]))).isSome = true ∧
    (let s := runOf [.host (.read 0x08 4), .agentWrite 0x1000 3];
      s.busy = true ∧ s.turns.all Turn.plain = true ∧ ∀ x ∈ s.turns, x.writesCmd = false) := by
  decide +kernel

theorem witness_UnitNeverWritesMemory : nextTurn (busyWith 0x13 []) = .unit := by decide

theorem witness_CommandsKeepToTheirWriteSets :
    ([.nop, .cinit, .rdbits 8, .clz, .ue, .se, .balign, .align, .aaccfg 7, .h264sps, .vp9key,
      .vp9props, .selftest] : List Instr).all (fun i => goesOn (exec i (session true vp9Bytes 0))) =
      true := by decide +kernel

theorem witness_FailureWritesNoOutput :
    after (exec .vp9props (unit true [0x84])) (fun t => t.status.ok) = some false := by decide +kernel

/-- Another memory: the same buffer byte, another byte after it. -/
theorem witness_CommandsReadOnlyTheirBuffer :
    (session true [0xB7] 0).lenbits.toNat % 8 = 0 ∧
    bytesAt1000 [0xB7, 0x55] ≠ (session true [0xB7] 0).mem ∧
    (∀ k < mayReadBytes .ue (session true [0xB7] 0),
      memRead (bytesAt1000 [0xB7, 0x55]) (((session true [0xB7] 0).base.toNat + k) % 2 ^ 64) =
        memRead (session true [0xB7] 0).mem (((session true [0xB7] 0).base.toNat + k) % 2 ^ 64)) ∧
    goesOn (exec .ue (session true [0xB7] 0)) = true := by decide +kernel

theorem witness_ExtractionIsRepeatable : Instr.extracts .h264sps = true ∧
    (unit true spsBytes).disturbed = false ∧ goesOn (exec .h264sps (unit true spsBytes)) = true := by
  decide +kernel

theorem witness_StrictSuccessIsLenientSuccess :
    after (exec .vp9props ((unit true vp9Bytes).latched 0x13 .strict)) (fun t => t.status.ok) =
      some true := by decide +kernel

theorem witness_StrictNeverOvershoots : (session true [0xB7] 8).mode = .strict ∧
    (session true [0xB7] 8).lenbits.toNat % 8 = 0 ∧
    (session true [0xB7] 8).pos.toNat ≤ (session true [0xB7] 8).lenbits.toNat ∧
    goesOn (exec (.rdbits 1) (session true [0xB7] 8)) = true := by decide +kernel

/-- One state for the four invariants that every step keeps. -/
theorem witness_StepKeepsInvs : (busyWith 0x04 []).MemoryInv ∧ (busyWith 0x04 []).CursorInv ∧
    (busyWith 0x04 []).StatusInv ∧ (busyWith 0x04 []).OutputInv ∧
    goesOn (step (busyWith 0x04 [])) = true := by decide +kernel

/-- BADWIDTH at 0, 65 and 127; exhausted; short under each policy; a full read to the end. -/
theorem witness_RdbitsReads : (0 < 1 ∧ 64 < 65 ∧ 127 < 128) ∧
    (session true [0xB7] 8).lenbits.toNat ≤ (session true [0xB7] 8).pos.toNat ∧
    (session true [0xB7] 0).lenbits.toNat < (session true [0xB7] 0).pos.toNat + 9 ∧
    (session true [0xB7] 0).mode = .strict ∧ (session false [0xB7] 0).mode = .lenient ∧
    (session false [0xB7] 0).disturbed = false ∧
    (session false [0xB7] 0).pos.toNat + 8 ≤ (session false [0xB7] 0).lenbits.toNat ∧
    (session false [0xB7] 0).pos.toNat < (session false [0xB7] 0).lenbits.toNat ∧
    (session false [0xB7] 0).lenbits.toNat < (session false [0xB7] 0).pos.toNat + 9 := by decide

theorem witness_ExhaustedCodesAreAbsent :
    (session false [0xB7] 12).lenbits.toNat ≤ (session false [0xB7] 12).pos.toNat := by decide

theorem witness_ClzCountsZeroBits : (session true [0x00] 7).disturbed = false ∧
    (session true [0x00] 7).lenbits.toNat % 8 = 0 ∧
    (session true [0x00] 7).pos.toNat < (session true [0x00] 7).lenbits.toNat ∧
    (session true [0x00] 8).lenbits.toNat ≤ (session true [0x00] 8).pos.toNat := by decide

/-- The longest decodable code, 2^64 − 2 (V-B37). -/
theorem witness_UeDecodesItsCode :
    let s := session true [0, 0, 0, 0, 0, 0, 0, 1, 255, 255, 255, 255, 255, 255, 255, 255] 0
    s.disturbed = false ∧ s.lenbits.toNat % 8 = 0 ∧
    s.carries s.pos.toNat (ueBits (2 ^ 64 - 2)) ∧
    s.pos.toNat + (ueBits (2 ^ 64 - 2)).length ≤ s.lenbits.toNat := by decide +kernel

/-- Only zeros to the end (z = 8); 64 zeros in front of a one; information bits cut off (z = 5). -/
theorem witness_UeWithoutAWholeCode :
    (let s := session false [0x00] 0;
      (∀ j < 8, streamBit s.view 0 (s.pos.toNat + j) = 0) ∧ s.pos.toNat + 8 = s.lenbits.toNat) ∧
    (let s := session false [0, 0, 0, 0, 0, 0, 0, 0, 0x80] 0;
      (∀ j < 64, streamBit s.view 0 (s.pos.toNat + j) = 0) ∧ s.pos.toNat + 64 < s.lenbits.toNat ∧
      streamBit s.view 0 (s.pos.toNat + 64) = 1) ∧
    (let s := session false [0x07] 0;
      s.disturbed = false ∧ s.lenbits.toNat % 8 = 0 ∧
      (∀ j < 5, streamBit s.view 0 (s.pos.toNat + j) = 0) ∧ s.pos.toNat + 5 < s.lenbits.toNat ∧
      streamBit s.view 0 (s.pos.toNat + 5) = 1 ∧ s.lenbits.toNat < s.pos.toNat + (2 * 5 + 1) ∧
      s.mode = .lenient) ∧
    (session true [0x07] 0).mode = .strict := by decide +kernel

/-- The most negative decodable value (V-B38). -/
theorem witness_SeDecodesItsCode :
    let s := session true [0, 0, 0, 0, 0, 0, 0, 1, 255, 255, 255, 255, 255, 255, 255, 255] 0
    s.disturbed = false ∧ s.lenbits.toNat % 8 = 0 ∧
    s.carries s.pos.toNat (seBits (-(2 ^ 63 - 1))) ∧
    s.pos.toNat + (seBits (-(2 ^ 63 - 1))).length ≤ s.lenbits.toNat := by decide +kernel

/-- UE absent, even and odd. -/
theorem witness_SeFollowsUe :
    after (exec .ue (session true [0x00] 0)) (fun t => t.status.valid) = some false ∧
    after (exec .ue (session true [0x60] 0)) (fun t => (t.status.valid, t.res.toNat % 2)) =
      some (true, 0) ∧
    after (exec .ue (session true [0x40] 0)) (fun t => (t.status.valid, t.res.toNat % 2)) =
      some (true, 1) := by decide +kernel

/-- On a boundary past the end; before the end; off a boundary past the end. -/
theorem witness_AlignSkipsToTheBoundary :
    (session false [0xB7] 16).pos.toNat % 8 = 0 ∧ (session false [0xB7] 16).lenbits.toNat % 8 = 0 ∧
    (session false [0xB7] 7).pos.toNat ≤ (session false [0xB7] 7).lenbits.toNat ∧
    (session false [0xB7] 12).pos.toNat % 8 ≠ 0 ∧
    (session false [0xB7] 12).lenbits.toNat < (session false [0xB7] 12).pos.toNat := by decide

theorem witness_AaccfgFailsOnlyBelowTwoBytes : (unit true [0x12]).len.toNat < 2 ∧
    2 ≤ (unit true [0x12, 0x10]).len.toNat := by decide

theorem field_eq (s : State) (p n : Nat) : s.field p n =
    ((List.range n).map fun i => streamBit s.view 0 (p + i) * 2 ^ (n - 1 - i)).sum := rfl

/-- Index 12, the last of the table. -/
theorem witness_AaccfgTableRate : (unit true [0x16, 0x00]).disturbed = false ∧
    2 ≤ (unit true [0x16, 0x00]).len.toNat ∧ (unit true [0x16, 0x00]).field 5 4 = 12 := by
  rw [field_eq]; decide +kernel

theorem witness_AaccfgExplicitRate :
    let s := unit true [0x17, 0x80, 0x00, 0x7D, 0x10]
    s.disturbed = false ∧ 4 < s.len.toNat ∧ s.field 5 4 = 15 := by
  simp only [field_eq]; decide +kernel

/-- Indexes 13 and 14, and index 15 with 4 bytes. -/
theorem witness_AaccfgUnresolvedRate : (unit true [0x16, 0x80]).field 5 4 = 13 ∧
    (unit true [0x17, 0x00]).field 5 4 = 14 ∧
    (unit true [0x17, 0x80, 0x00, 0x7D]).field 5 4 = 15 ∧
    (unit true [0x17, 0x80, 0x00, 0x7D]).len.toNat ≤ 4 ∧
    (unit true [0x16, 0x80]).disturbed = false ∧ 2 ≤ (unit true [0x16, 0x80]).len.toNat := by
  simp only [field_eq]; decide +kernel

theorem witness_EmptyBufferFailsWithInput : (unit true []).len = 0 := by decide

/-- The parameter set of V-H1 (W5). -/
def sps : Sps :=
  { nal := 0x67, profile := 66, flagsLevel := 31, spsId := 0
    high := { cf := 1, separatePlane := false, bdLuma := 0, bdChroma := 0, qpprime := false
              lists := none }
    log2FrameNum := 0, poc := .type0 0, numRef := 1, gaps := false, wm1 := 79, hm1 := 44
    fmo := true, mbaff := false, direct := true, crop := none }

/-- A parameter set whose crop makes the width negative (wm1 = 0, cl = 9). -/
def spsOut : Sps := { sps with numRef := 0, wm1 := 0, hm1 := 0, crop := some ⟨9, 0, 0, 0⟩ }

/-- The size in range under both policies, and out of range. -/
theorem witness_H264spsReadsTheSpsSyntax :
    (unit true spsBytes).disturbed = false ∧ sps.legal 32 = true ∧
    (unit true spsBytes).carries 0 sps.bits ∧ sps.bits.length ≤ 8 * (unit true spsBytes).len.toNat ∧
    (unit true spsBytes).mode = .strict ∧ (unit false spsBytes).mode = .lenient ∧
    spsOut.legal 32 = true ∧
    (let s := unit true [0x67, 0x42, 0x00, 0x1F, 0xFB, 0xE2, 0xB8];
      s.carries 0 spsOut.bits ∧ spsOut.bits.length ≤ 8 * s.len.toNat) ∧
    ¬(0 ≤ ((spsOut.wm1 : Int) + 1) * 16 - 2 * (spsOut.cropOr0.cl + spsOut.cropOr0.cr)) := by
  decide +kernel

/-- V-H1 cut at every byte: at an element's end (1, 2, 4), inside the level (3), inside the codes of
the width and the height (5 to 7), and in the frame flags (8). Under both policies. -/
theorem witness_H264spsOnACutSps : sps.legal 32 = true ∧
    ∀ n ∈ [1, 2, 3, 4, 5, 6, 7, 8], ∀ b : Bool, let s := unit b (spsBytes.take n);
      s.disturbed = false ∧ s.len ≠ 0 ∧ s.carries 0 (sps.bits.take (8 * s.len.toNat)) ∧
      8 * s.len.toNat < sps.bits.length ∧ s.mode = if b then .strict else .lenient := by
  decide +kernel

/-- A bad marker; show_existing, an inter frame and a key frame, in profile 0 and in profile 3. -/
theorem witness_Vp9keyReadsThePreamble :
    (unit true []).len = 0 ∧ (unit true [0x00]).disturbed = false ∧ (unit true [0x00]).len ≠ 0 ∧
    (unit true [0x00]).field 0 2 ≠ 2 ∧
    ((unit true [0x88]).field 0 2 = 2 ∧ (unit true [0x88]).field 4 1 = 1) ∧
    ((unit true [0x84]).field 0 2 = 2 ∧ (unit true [0x84]).field 4 1 = 0 ∧
      (unit true [0x84]).field 5 1 = 1) ∧
    ((unit true [0xB0]).field 2 2 = 3 ∧ (unit true [0xB0]).field 0 2 = 2 ∧
      (unit true [0xB0]).field 5 1 = 0 ∧ (unit true [0xB0]).field 6 1 = 0) ∧
    ((unit true [0xB4]).field 2 2 = 3 ∧ (unit true [0xB4]).field 5 1 = 1) := by
  simp only [field_eq]; decide +kernel

/-- The header of V-V1 (W6). -/
def header : Vp9Header :=
  { profile := 0, reserved := false, showFrame := false, errorResilient := false, twelve := false
    cs := 1, fs := false, ssx := false, ssy := false, colorReserved := false
    pad := [false, false, false, false], w := 1280, h := 720, render := none }

/-- A profile-3 header with a render size, of the greatest length: 113 bits. -/
def longHeader : Vp9Header :=
  { profile := 3, reserved := false, showFrame := true, errorResilient := false, twelve := true
    cs := 6, fs := true, ssx := true, ssy := false, colorReserved := false
    pad := [false, false, false, false, false, false, false], w := 65536, h := 1
    render := some (1, 65536) }

theorem witness_Vp9propsReadsTheHeaderSyntax :
    (unit true vp9Bytes).disturbed = false ∧ header.legal = true ∧
    (unit true vp9Bytes).carries 0 header.bits ∧
    header.bits.length ≤ 8 * (unit true vp9Bytes).len.toNat ∧
    longHeader.legal = true ∧ longHeader.bits.length = 113 := by decide +kernel

/-- Marker, show_existing and inter frame, each wrong in turn on 1 byte; a wrong sync code on 4 bytes,
and in profile 3 on 5. -/
theorem witness_Vp9propsRejectsBadHeaders :
    (unit true [0x00]).disturbed = false ∧ (unit true [0x00]).len ≠ 0 ∧
    (unit true [0x00]).field 0 2 ≠ 2 ∧
    (unit true [0x88]).field 0 2 = 2 ∧ (unit true [0x88]).field 2 2 ≠ 3 ∧
    (unit true [0x88]).field 4 1 = 1 ∧
    (unit true [0x84]).field 4 1 = 0 ∧ (unit true [0x84]).field 5 1 = 1 ∧
    (let s := unit true [0x80, 0x49, 0x83, 0x43];
      s.field 4 1 = 0 ∧ s.field 5 1 = 0 ∧ s.field 2 2 ≠ 3 ∧ 32 + 0 ≤ 8 * s.len.toNat ∧
      s.field 8 24 ≠ 0x498342) ∧
    (let s := unit true [0xB0, 0x24, 0xC1, 0xA2, 0x80];
      s.field 0 2 = 2 ∧ s.field 2 2 = 3 ∧ s.field 5 1 = 0 ∧ s.field 6 1 = 0 ∧
      32 + 1 ≤ 8 * s.len.toNat ∧ s.field 9 24 ≠ 0x498342) := by
  simp only [field_eq]; decide +kernel

/-- sRGB in profile 0. -/
theorem witness_Vp9propsRejectsSrgbInEvenProfiles :
    let s := unit true [0x80, 0x49, 0x83, 0x42, 0xE0]
    s.disturbed = false ∧ 5 ≤ s.len.toNat ∧ s.field 0 2 = 2 ∧ s.field 2 1 = 0 ∧ s.field 4 1 = 0 ∧
    s.field 5 1 = 0 ∧ s.field 8 24 = 0x498342 ∧ s.field (32 + s.field 3 1) 3 = 7 := by
  simp only [field_eq]; decide +kernel

theorem witness_Vp9ConsumesBoundedBits : (unit true vp9Bytes).len ≠ 0 ∧
    goesOn (exec .vp9key (unit true vp9Bytes)) = true ∧
    goesOn (exec .vp9props (unit true vp9Bytes)) = true := by decide +kernel

/-- V-V1 cut at every byte: inside the sync code (2), behind the colour configuration (5), inside the
width (6), behind the height (9); and the long header cut inside its sync code (4) and in front of its
last colour bit (5). Under both policies. -/
theorem witness_Vp9propsOnACutHeader :
    header.legal = true ∧ longHeader.legal = true ∧
    (∀ n ∈ [1, 2, 3, 4, 5, 6, 7, 8, 9], ∀ b : Bool, let s := unit b (vp9Bytes.take n);
      s.disturbed = false ∧ s.len ≠ 0 ∧ s.carries 0 (header.bits.take (8 * s.len.toNat)) ∧
      8 * s.len.toNat < header.bits.length ∧ s.mode = if b then .strict else .lenient) ∧
    (∀ n ∈ [4, 5], let s := unit false ([0xB1, 0x24, 0xC1, 0xA1, 0x76].take n);
      s.carries 0 (longHeader.bits.take (8 * s.len.toNat)) ∧
      8 * s.len.toNat < longHeader.bits.length) := by decide +kernel

/-- R106's two outcomes on V-V1 cut behind the height: ABSENT at the render flag, or a mirrored size. -/
theorem test_vp9props_cut :
    after (exec .vp9props (unit true (vp9Bytes.take 9))) (fun s => (s.outWidth.toNat, seen s)) =
      some (0, 0, 72, 0x532) ∧
    after (exec .vp9props (unit false (vp9Bytes.take 9))) (fun s =>
      (s.outWidth.toNat, s.outDwidth.toNat, s.pos.toNat, s.status.sticky)) =
      some (1280, 1280, 72, true) := by decide +kernel

end Sys2Proof.Tests
end

section
/-! SUPPORT. The unit's turn (00_scope.md R5, 60_exceptions.md R233): a step in which the unit acts is the
completion of the latched word, and `withFetchWord` sets up such a step. -/

namespace Sys2Proof.Machine

/-- A legal word completes as the command it decodes to. -/
theorem execWord_of_decode_ok {w : Word} {i : Instr} (hw : decode w = .ok i) (s : State) :
    execWord w s = exec i s := by
  simp only [execWord, hw]

/-- In its turn a busy unit completes the latched word. -/
theorem step_of_unit_of_running {s : State} {r : Running} (ht : nextTurn s = .unit)
    (hr : s.running = some r) : step s = execWord r.cmd (popTurn s) := by
  have hpop : (popTurn s).running = some r := by rw [popTurn_running, hr]
  simp only [step, ht, takeTurn, unitTurn, hpop]

/-- The table's decoder reads `i` exactly when the command word it stands for is legal and decodes to
`i`. -/
theorem decodeTableWord_eq_some_iff {nbits w : Nat} {i : Instr} :
    decodeTableWord nbits w = some i ↔ decode (tableWord nbits w) = .ok i := by
  cases hw : decode (tableWord nbits w) with
  | ok j => simp [decodeTableWord, hw]
  | error e => simp [decodeTableWord, hw]

/-- After `withFetchWord` the unit acts next: either its turn was put first, or the list is empty. -/
@[simp] theorem nextTurn_withFetchWord (s : State) (nbits w : Nat) :
    nextTurn (s.withFetchWord nbits w) = .unit := by
  cases hts : s.turns with
  | nil => simp [nextTurn, State.withFetchWord, unitFirst, hts]
  | cons t ts => simp [nextTurn, State.withFetchWord, unitFirst, hts]

/-- `withFetchWord` latches the word just as an acceptance does (60_exceptions.md R232). -/
@[simp] theorem withFetchWord_running (s : State) (nbits w : Nat) :
    (s.withFetchWord nbits w).running = (accept (tableWord nbits w) s).running := rfl

/-- A busy unit's turn is the meaning of the command the latched word decodes to. -/
theorem step_of_unit_of_decode {s : State} {r : Running} {i : Instr} (ht : nextTurn s = .unit)
    (hr : s.running = some r) (hw : decode r.cmd = .ok i) : step s = exec i (popTurn s) := by
  rw [step_of_unit_of_running ht hr, execWord_of_decode_ok hw]

/-- Settles O6: a busy unit's turn runs the decoded command, and so does the turn `withFetchWord` sets up. -/
theorem stepRunsTheDecodedCommand : Obligations.StepRunsTheDecodedCommand := by
  refine ⟨fun s r i ht hr hw => step_of_unit_of_decode ht hr hw, fun s nbits w i hw => ?_⟩
  have hlatched := (withFetchWord_running s nbits w).trans (accept_running _ s)
  exact step_of_unit_of_decode (nextTurn_withFetchWord s nbits w) hlatched
    (decodeTableWord_eq_some_iff.mp hw)

end Sys2Proof.Machine
end

section
/-! SUPPORT. What the walks of the extraction commands do to the cursor (42_h264_sps.md R160 to R165,
43_vp9.md R190 to R199): stage by stage, for every relation that their element reads respect. -/

namespace Sys2Proof.Machine

/-- `R` is a preorder on cursors that each element read respects, so a walk made of such reads does. -/
structure Walk.ReadRel (v : View) (m : Mode) (R : Cur → Cur → Prop) : Prop where
  refl : ∀ c, R c c
  trans : ∀ a b c, R a b → R b c → R a c
  rd : ∀ n, Walk.Moves R (rd v m n)
  ue : Walk.Moves R (rdUe v m)
  se : Walk.Moves R (rdSe v m)
  align : Walk.Moves R (rdAlign v m)

/-- The bounds of 10_state.md R22 are such a relation. -/
theorem readRel_within (v : View) (m : Mode) : Walk.ReadRel v m Cur.Within where
  refl := Cur.Within.refl
  trans := Cur.Within.trans
  rd := rd_within v m
  ue := rdUe_within v m
  se := rdSe_within v m
  align := rdAlign_within v m

section
variable {v : View} {m : Mode} {R : Cur → Cur → Prop}

theorem Walk.ReadRel.pure (h : Walk.ReadRel v m R) {α : Type} (x : α) :
    Walk.Moves R (Pure.pure x : Walk α) := Moves.pure h.refl x

theorem Walk.ReadRel.fail (h : Walk.ReadRel v m R) {α : Type} (e : ErrCode) :
    Walk.Moves R (fail e : Walk α) := Moves.fail h.refl e

theorem Walk.ReadRel.bind (h : Walk.ReadRel v m R) {α β : Type} {w : Walk α} {f : α → Walk β}
    (hw : Walk.Moves R w) (hf : ∀ x, Walk.Moves R (f x)) : Walk.Moves R (w >>= f) :=
  Moves.bind h.trans hw hf

/-- A conditional part followed by the rest of the walk, in the shape `do` gives it. -/
theorem Walk.ReadRel.when (h : Walk.ReadRel v m R) {β : Type} {p : Prop} [Decidable p]
    {w : Walk Unit} {rest : Unit → Walk β} (hw : Walk.Moves R w)
    (hrest : ∀ u, Walk.Moves R (rest u)) :
    Walk.Moves R (if p then w >>= rest else rest ()) :=
  Moves.ite (h.bind hw hrest) (hrest ())

/-- A read that is made under a condition, followed by the rest of the walk. -/
theorem Walk.ReadRel.whenRead (h : Walk.ReadRel v m R) {α β : Type} {p : Prop} [Decidable p]
    {w : Walk α} {rest : Walk β} (hw : Walk.Moves R w) (hrest : Walk.Moves R rest) :
    Walk.Moves R (if p then w >>= fun _ => rest else rest) :=
  Moves.ite (h.bind hw fun _ => hrest) hrest

/-! ### H264SPS -/

theorem stageHeader_moves (h : Walk.ReadRel v m R) : Walk.Moves R (stageHeader v m) :=
  h.bind (h.rd 8) fun _ => h.bind (h.rd 8) fun _ => h.bind (h.rd 16) fun _ =>
  h.bind h.ue fun _ => h.pure _

theorem scalingListsFrom_moves (h : Walk.ReadRel v m R) (slLarge i left : Nat) :
    Walk.Moves R (scalingListsFrom v m slLarge i left) := by
  induction left generalizing i with
  | zero => exact h.pure ()
  | succ left ih =>
    exact h.bind (h.rd 1) fun _ =>
      h.when (Moves.repeatSe h.refl h.trans h.se _) fun _ => ih (i + 1)

theorem stageHighProfile_moves (h : Walk.ReadRel v m R) (slLarge profile : Nat) :
    Walk.Moves R (stageHighProfile v m slLarge profile) :=
  Moves.ite
    (h.bind h.ue fun _ => h.whenRead (h.rd 1) <|
      h.bind h.ue fun _ => h.bind h.ue fun _ => h.bind (h.rd 1) fun _ => h.bind (h.rd 1) fun _ =>
      Moves.ite (scalingListsFrom_moves h _ _ _) (h.pure ()))
    (h.pure ())

theorem stagePoc_moves (h : Walk.ReadRel v m R) : Walk.Moves R (stagePoc v m) :=
  h.bind h.ue fun _ => h.bind h.ue fun _ => Moves.ite
    (h.bind h.ue fun _ => h.pure ())
    (Moves.ite
      (h.bind (h.rd 1) fun _ => h.bind h.se fun _ => h.bind h.se fun _ => h.bind h.ue fun n =>
        Moves.repeatSe h.refl h.trans h.se n)
      (h.pure ()))

theorem stageGeometry_moves (h : Walk.ReadRel v m R) : Walk.Moves R (stageGeometry v m) :=
  h.bind h.ue fun _ => h.bind (h.rd 1) fun _ => h.bind h.ue fun _ => h.bind h.ue fun _ =>
  h.bind (h.rd 1) fun _ => h.whenRead (h.rd 1) <|
  h.bind (h.rd 1) fun _ => h.bind (h.rd 1) fun _ => Moves.ite
    (h.bind h.ue fun _ => h.bind h.ue fun _ => h.bind h.ue fun _ => h.bind h.ue fun _ => h.pure _)
    (h.pure _)

theorem checkRange_moves (h : Walk.ReadRel v m R) (g : Geometry) :
    Walk.Moves R (checkRange m g) := by
  cases m with
  | strict => exact Moves.ite (h.pure ()) (h.fail .range)
  | lenient => exact h.pure ()

theorem h264Walk_moves (h : Walk.ReadRel v m R) (slLarge : Nat) :
    Walk.Moves R (h264Walk v m slLarge) :=
  h.bind (stageHeader_moves h) fun _ => h.bind (stageHighProfile_moves h _ _) fun _ =>
  h.bind (stagePoc_moves h) fun _ => h.bind (stageGeometry_moves h) fun g =>
  h.bind (checkRange_moves h g) fun _ => h.pure g

/-! ### VP9KEY and VP9PROPS -/

theorem vp9Preamble_moves (h : Walk.ReadRel v m R) : Walk.Moves R (vp9Preamble v m) :=
  h.bind (h.rd 2) fun _ => h.when (h.fail .marker) fun _ =>
  h.bind (h.rd 1) fun _ => h.bind (h.rd 1) fun _ =>
  h.whenRead (h.rd 1) <|
  h.bind (h.rd 1) fun _ => h.when (h.fail .showExisting) fun _ =>
  h.bind (h.rd 1) fun _ => h.pure _

theorem stageKeyframeSync_moves (h : Walk.ReadRel v m R) (ft : Nat) :
    Walk.Moves R (stageKeyframeSync v m ft) := by
  unfold stageKeyframeSync
  exact h.when (h.fail .notKeyframe) fun _ => h.bind (h.rd 1) fun _ => h.bind (h.rd 1) fun _ =>
    h.bind (h.rd 24) fun _ => Moves.ite (h.fail .sync) (h.pure ())

theorem stageBitdepth_moves (h : Walk.ReadRel v m R) (profile : Nat) :
    Walk.Moves R (stageBitdepth v m profile) :=
  Moves.ite (h.bind (h.rd 1) fun _ => h.pure _) (h.pure _)

theorem stageColor_moves (h : Walk.ReadRel v m R) (srgbFullSwing : Bool) (profile cs : Nat) :
    Walk.Moves R (stageColor v m srgbFullSwing profile cs) :=
  Moves.ite
    (h.bind (h.rd 1) fun _ => Moves.ite
      (h.bind (h.rd 1) fun _ => h.bind (h.rd 1) fun _ => h.bind (h.rd 1) fun _ => h.pure _)
      (h.pure _))
    (h.bind (h.rd 1) fun _ => h.when (h.fail .color) fun _ => h.pure _)

theorem stageSize_moves (h : Walk.ReadRel v m R) : Walk.Moves R (stageSize v m) :=
  h.bind (h.rd 16) fun _ => h.bind (h.rd 16) fun _ => h.bind (h.rd 1) fun _ => Moves.ite
    (h.bind (h.rd 16) fun _ => h.bind (h.rd 16) fun _ => h.pure _) (h.pure _)

theorem vp9PropsWalk_moves (h : Walk.ReadRel v m R) (srgbFullSwing : Bool) :
    Walk.Moves R (vp9PropsWalk v m srgbFullSwing) :=
  h.bind (vp9Preamble_moves h) fun (_, ft) => h.bind (stageKeyframeSync_moves h ft) fun _ =>
  h.bind (stageBitdepth_moves h _) fun _ => h.bind (h.rd 3) fun _ =>
  h.bind (stageColor_moves h _ _ _) fun _ => h.bind h.align fun _ =>
  h.bind (stageSize_moves h) fun _ => h.pure _

end

end Sys2Proof.Machine
end

section
/-! SUPPORT. What values a walk can answer: the ranges of the fields VP9PROPS extracts (43_vp9.md R194,
R199). -/

namespace Sys2Proof.Machine

/-- Every value the walk answers satisfies `P`. -/
def Walk.Yields {α : Type} (P : α → Prop) (w : Walk α) : Prop := ∀ c x c', w c = .ok x c' → P x

theorem Yields.pure {α : Type} {P : α → Prop} {x : α} (h : P x) :
    Walk.Yields P (Pure.pure x : Walk α) := by
  rintro c y c' ⟨⟩; exact h

/-- A walk yields what its second part yields after any value the first part yields. -/
theorem Yields.bind {α β : Type} {P : α → Prop} {Q : β → Prop} {w : Walk α} {f : α → Walk β}
    (hw : Walk.Yields P w) (hf : ∀ x, P x → Walk.Yields Q (f x)) : Walk.Yields Q (w >>= f) := by
  intro c y c' h
  cases hc : w c with
  | ok x c1 =>
    rw [walk_bind_ok hc] at h
    exact hf x (hw c x c1 hc) c1 y c' h
  | error e c1 => rw [walk_bind_error hc] at h; cases h

/-- A part whose value does not matter. -/
theorem Yields.after {α β : Type} {Q : β → Prop} (w : Walk α) {f : α → Walk β}
    (hf : ∀ x, Walk.Yields Q (f x)) : Walk.Yields Q (w >>= f) :=
  Yields.bind (P := fun _ => True) (fun _ _ _ _ => trivial) fun x _ => hf x

theorem Yields.ite {α : Type} {P : α → Prop} {p : Prop} [Decidable p] {a b : Walk α}
    (ha : Walk.Yields P a) (hb : Walk.Yields P b) : Walk.Yields P (if p then a else b) := by
  split <;> assumption

/-- rd(n) answers a number below 2^n; an ABSENT element reads as 0 (40_cursor.md R101, R106). -/
theorem rd_yields (v : View) (m : Mode) (n : Nat) : Walk.Yields (· < 2 ^ n) (rd v m n) := by
  intro c x c' h
  unfold rd at h
  rcases elem_cases 0 m (readBits v m n) c with ⟨y, hy, he⟩ | ⟨-, -, he⟩ | ⟨-, -, he⟩ <;>
    rw [he] at h <;> cases h
  · exact (readBits_bounds v m n c).1 x hy
  · exact Nat.two_pow_pos n

/-- BITDEPTH is 8, 10 or 12 (43_vp9.md R194). -/
theorem stageBitdepth_yields (v : View) (m : Mode) (profile : Nat) :
    Walk.Yields (· ∈ [8, 10, 12]) (stageBitdepth v m profile) :=
  Yields.ite (Yields.after _ fun b => Yields.pure (by split <;> decide))
    (Yields.pure (by decide))

/-- The display size is at most 65536 (43_vp9.md R199). -/
theorem stageSize_yields (v : View) (m : Mode) :
    Walk.Yields (fun z => z.dw ≤ 65536 ∧ z.dh ≤ 65536) (stageSize v m) :=
  Yields.bind (rd_yields v m 16) fun _ hw => Yields.bind (rd_yields v m 16) fun _ hh =>
  Yields.after _ fun _ => Yields.ite
    (Yields.bind (rd_yields v m 16) fun _ hdw => Yields.bind (rd_yields v m 16) fun _ hdh =>
      Yields.pure ⟨hdw, hdh⟩)
    (Yields.pure ⟨hw, hh⟩)

/-- The ranges of what VP9PROPS extracts (10_state.md R29, R30). -/
def Vp9Props.InRange (p : Vp9Props) : Prop :=
  p.bd ∈ [8, 10, 12] ∧ p.size.dw ≤ 65536 ∧ p.size.dh ≤ 65536

theorem vp9PropsWalk_yields (v : View) (m : Mode) (srgbFullSwing : Bool) :
    Walk.Yields Vp9Props.InRange (vp9PropsWalk v m srgbFullSwing) :=
  Yields.after _ fun (_, _) => Yields.after _ fun _ =>
  Yields.bind (stageBitdepth_yields v m _) fun _ hbd => Yields.after _ fun _ =>
  Yields.after _ fun _ => Yields.after _ fun _ =>
  Yields.bind (stageSize_yields v m) fun _ hz => Yields.pure ⟨hbd, hz⟩

end Sys2Proof.Machine
end

section
/-! SUPPORT. What the completion of a command can be (60_exceptions.md R233, 10_state.md R38), said once
for all commands, and what it leaves of the state. -/

namespace Sys2Proof.Machine

/-- `c` is a cursor a command may leave: within the bounds of 10_state.md R22 of the session it
continues or of the one it starts. -/
def State.Leaves (s : State) (c : Cur) : Prop := s.cursor.Within c ∨ s.freshCursor.Within c

theorem State.leaves_cursor (s : State) : s.Leaves s.cursor := .inl (Cur.Within.refl _)

/-- The completions of a command, by group of commands (10_state.md R38). A command that does not use
the cursor leaves it, and one that does not write RES leaves that. -/
inductive Completed (s : State) : Instr → State → Prop
  /-- a primitive command (40_cursor.md R110 to R120) -/
  | primitive {i : Instr} {k : Completion} {c : Cur} {r : DWord} (hi : i.extracts = false)
      (hk : k.outw = Outw.none) (hc : s.Leaves c) (hpos : i.movesCursor = false → c = s.cursor)
      (hres : i.writesRes = false → r = s.res) :
      Completed s i (complete k { commitCursor c s with res := r })
  /-- a failed extraction (60_exceptions.md R233) -/
  | extractFailed {i : Instr} {c : Cur} (code : ErrCode) (hi : i.extracts = true)
      (hc : s.Leaves c) (hpos : i.movesCursor = false → c = s.cursor) :
      Completed s i (complete (failed code) (commitCursor c s))
  /-- AACCFG (41_aac.md R144) -/
  | aaccfg (req : BitVec 3) (w : Outw) (f : AacFields) :
      Completed s (.aaccfg req) (complete { succeeded false with outw := w } (writeAac w f s))
  /-- H264SPS (42_h264_sps.md R168) -/
  | h264sps {c : Cur} (w h : DWord) (hc : s.Leaves c) :
      Completed s .h264sps
        (complete (succeeded false) { commitCursor c s with outWidth := w, outHeight := h })
  /-- VP9KEY (43_vp9.md R191) -/
  | vp9key {c : Cur} (key : Bool) (hc : s.Leaves c) :
      Completed s .vp9key
        (complete (succeeded false) { commitCursor c s with outVp9 := { s.outVp9 with key := key } })
  /-- VP9PROPS (43_vp9.md R200) -/
  | vp9props {c : Cur} {p : Vp9Props} (hc : s.Leaves c) (hp : p.InRange) :
      Completed s .vp9props (complete (succeeded false) (writeVp9Props p (commitCursor c s)))

/-- A primitive command that leaves the cursor. -/
theorem Completed.inPlace {s : State} {i : Instr} (k : Completion) (r : DWord)
    (hi : i.extracts = false) (hk : k.outw = Outw.none) (hres : i.writesRes = false → r = s.res) :
    Completed s i (complete k { s with res := r }) := by
  have h := Completed.primitive hi hk s.leaves_cursor (fun _ => rfl) hres
  rwa [commitCursor_cursor] at h

/-- RDBITS, UE, SE and ALIGN, whose reads stay within the bounds of the cursor. -/
theorem Completed.read {s : State} {i : Instr} (e : ErrCode) (r : Option DWord) {c : Cur}
    (hi : i.extracts = false) (hm : i.movesCursor = true) (hw : i.writesRes = true)
    (hc : s.cursor.Within c) : Completed s i (completeRead e r c s) := by
  have hm' : ¬i.movesCursor = false := by simp [hm]
  have hw' : ¬i.writesRes = false := by simp [hw]
  rcases completeRead_cases e r c s with ⟨-, h⟩ | ⟨x, -, h⟩ <;> rw [h]
  · exact .primitive hi rfl (.inl (Cur.Within.sticky _ _ hc)) (absurd · hm') (absurd · hw')
  · exact .primitive hi rfl (.inl hc) (absurd · hm') (absurd · hw')

/-- An extraction command that fails with INPUT, before any session starts. -/
theorem Completed.input {s : State} {i : Instr} (hi : i.extracts = true) :
    Completed s i (complete (failed .input) s) := by
  have h := Completed.extractFailed (i := i) .input hi s.leaves_cursor fun _ => rfl
  rwa [commitCursor_cursor] at h

theorem execRdbits_completed (n : Nat) (s : State) :
    ∃ t, execRdbits n s = .next t ∧ Completed s (.rdbits n) t := by
  unfold execRdbits
  split
  · exact ⟨_, rfl, .read _ _ rfl rfl rfl (Cur.Within.refl _)⟩
  · exact ⟨_, rfl, .read _ _ rfl rfl rfl (readBits_within ..)⟩

theorem execAaccfg_completed (req : BitVec 3) (s : State) :
    ∃ t, execAaccfg req s = .next t ∧ Completed s (.aaccfg req) t := by
  unfold execAaccfg
  split
  · exact ⟨_, rfl, .input rfl⟩
  · exact ⟨_, rfl, .aaccfg req _ _⟩

theorem execH264sps_completed (s : State) :
    ∃ t, execH264sps s = .next t ∧ Completed s .h264sps t := by
  have hmoves := h264Walk_moves (readRel_within s.view s.mode) s.params.slLarge s.freshCursor
  unfold execH264sps
  split
  · exact ⟨_, rfl, .input rfl⟩
  · cases hw : h264Walk s.view s.mode s.params.slLarge s.freshCursor with
    | error code c => exact ⟨_, rfl, .extractFailed code rfl (.inr (hmoves.2 _ _ hw)) nofun⟩
    | ok g c => exact ⟨_, rfl, .h264sps _ _ (.inr (hmoves.1 _ _ hw))⟩

theorem execVp9key_completed (s : State) :
    ∃ t, execVp9key s = .next t ∧ Completed s .vp9key t := by
  have hmoves := vp9Preamble_moves (readRel_within s.view s.mode) s.freshCursor
  unfold execVp9key
  split
  · exact ⟨_, rfl, .input rfl⟩
  · cases hw : vp9Preamble s.view s.mode s.freshCursor with
    | error code c => exact ⟨_, rfl, .extractFailed code rfl (.inr (hmoves.2 _ _ hw)) nofun⟩
    | ok x c => exact ⟨_, rfl, .vp9key _ (.inr (hmoves.1 _ _ hw))⟩

theorem execVp9props_completed (s : State) :
    ∃ t, execVp9props s = .next t ∧ Completed s .vp9props t := by
  have hmoves := vp9PropsWalk_moves (readRel_within s.view s.mode) s.params.srgbFullSwing
    s.freshCursor
  have hrange := vp9PropsWalk_yields s.view s.mode s.params.srgbFullSwing s.freshCursor
  unfold execVp9props
  split
  · exact ⟨_, rfl, .input rfl⟩
  · cases hw : vp9PropsWalk s.view s.mode s.params.srgbFullSwing s.freshCursor with
    | error code c => exact ⟨_, rfl, .extractFailed code rfl (.inr (hmoves.2 _ _ hw)) nofun⟩
    | ok p c => exact ⟨_, rfl, .vp9props (.inr (hmoves.1 _ _ hw)) (hrange _ _ hw)⟩

/-- Every command completes, from every state, in one of the forms of its group. -/
theorem exec_completed (i : Instr) (s : State) : ∃ t, exec i s = .next t ∧ Completed s i t := by
  cases i with
  | nop => exact ⟨_, rfl, .inPlace (succeeded false) s.res rfl rfl fun _ => rfl⟩
  | cinit => exact ⟨_, rfl, .primitive rfl rfl (.inr (Cur.Within.refl _)) nofun fun _ => rfl⟩
  | rdbits n => exact execRdbits_completed n s
  | clz => exact ⟨_, rfl, .inPlace _ _ rfl rfl nofun⟩
  | ue => exact ⟨_, rfl, .read _ _ rfl rfl rfl (ue_within ..)⟩
  | se => exact ⟨_, rfl, .read _ _ rfl rfl rfl (se_within ..)⟩
  | balign => exact ⟨_, rfl, .inPlace _ _ rfl rfl nofun⟩
  | align => exact ⟨_, rfl, .read _ _ rfl rfl rfl (alignTo_within ..)⟩
  | aaccfg req => exact execAaccfg_completed req s
  | h264sps => exact execH264sps_completed s
  | vp9key => exact execVp9key_completed s
  | vp9props => exact execVp9props_completed s
  | selftest => exact ⟨_, rfl, .inPlace _ _ rfl rfl nofun⟩

theorem completed_of_exec {i : Instr} {s t : State} (h : exec i s = .next t) : Completed s i t := by
  obtain ⟨u, hu, hc⟩ := exec_completed i s
  rw [hu] at h
  cases h
  exact hc

/-! ### What a completion leaves -/

section
variable {s t : State} {i : Instr}

/-- No command writes the parameters, BASE or memory (10_state.md R38, 20_memory.md R63). -/
theorem Completed.frame (h : Completed s i t) :
    t.params = s.params ∧ t.base = s.base ∧ t.mem = s.mem := by
  cases h <;> exact ⟨rfl, rfl, rfl⟩

/-- POS, LENBITS and STICKY are those of a cursor the command may leave. -/
theorem Completed.cursor (h : Completed s i t) : ∃ c, s.Leaves c ∧
    (i.movesCursor = false → c = s.cursor) ∧ t.pos = BitVec.ofNat 64 c.pos ∧
    t.lenbits = BitVec.ofNat 64 c.lenbits ∧ t.status.sticky = c.sticky := by
  cases h with
  | @primitive _ _ c _ _ _ hc hpos => exact ⟨c, hc, hpos, rfl, rfl, rfl⟩
  | @extractFailed _ c _ _ hc hpos => exact ⟨c, hc, hpos, rfl, rfl, rfl⟩
  | aaccfg =>
    exact ⟨s.cursor, s.leaves_cursor, fun _ => rfl, by simp [State.cursor], by simp [State.cursor],
      rfl⟩
  | @h264sps c _ _ hc => exact ⟨c, hc, nofun, rfl, rfl, rfl⟩
  | @vp9key c _ hc => exact ⟨c, hc, nofun, rfl, rfl, rfl⟩
  | @vp9props c _ hc => exact ⟨c, hc, nofun, rfl, rfl, rfl⟩

end

end Sys2Proof.Machine
end

section
/-! SUPPORT. What a step can do (00_scope.md R5, 60_exceptions.md R246), said once for all turns, and the
rule that an invariant of every taken turn is an invariant of every step. -/

namespace Sys2Proof.Machine

/-- What a turn that has a next state makes of the state. -/
inductive Taken (s : State) : State → Prop
  /-- nothing: the unit is idle, or no read of memory is outstanding for an error to answer -/
  | nothing : Taken s s
  /-- the running command completes -/
  | command {i : Instr} {t : State} (h : Completed s i t) : Taken s t
  /-- an illegal word completes -/
  | illegal : Taken s (completeIllegal s)
  | hostRead (w : Word) : Taken s { s with readData := w }
  | hostWrite (off : Nat) (v : Word) : Taken s (regWrite off v s)
  /-- a byte of memory is written that no running command may read -/
  | memory (x : DWord) (b : Byte) : Taken s (pokeMemory x b s)
  /-- another agent writes a byte the running command may read -/
  | disturbed (x : DWord) (b : Byte) : Taken s (disturb (pokeMemory x b s))
  | reset : Taken s (resetUnit s)

theorem unitTurn_taken {s t : State} (h : unitTurn s = .next t) : Taken s t := by
  unfold unitTurn at h
  split at h
  · cases h; exact .nothing
  · unfold execWord at h
    split at h
    · exact .command (completed_of_exec h)
    · cases h; exact .illegal

theorem hostAct_taken {a : HostAction} {s t : State} (h : hostAct a s = .next t) : Taken s t := by
  rcases hostAct_cases a s with ⟨_, _, -, -, he⟩ | ⟨off, _, v, -, -, he⟩ | ⟨x, b, -, -, he⟩ | ⟨_, he⟩ <;>
    rw [he] at h <;> cases h
  · exact .hostRead _
  · exact .hostWrite off.toNat v
  · exact .memory x b

theorem agentAct_taken (x : DWord) (b : Byte) (s : State) : Taken s (agentAct x b s) := by
  rcases agentAct_cases x b s with ⟨-, he⟩ | ⟨-, he⟩ <;> rw [he]
  · exact .disturbed x b
  · exact .memory x b

theorem memErrorAct_taken {s t : State} (h : memErrorAct s = .next t) : Taken s t := by
  rcases memErrorAct_cases s with ⟨-, he⟩ | ⟨-, he⟩ <;> rw [he] at h <;> cases h
  exact .nothing

theorem step_taken {s t : State} (h : step s = .next t) : Taken (popTurn s) t := by
  unfold step takeTurn at h
  split at h
  · exact unitTurn_taken h
  · exact hostAct_taken h
  · cases h; exact agentAct_taken ..
  · exact memErrorAct_taken h
  · cases h; exact .reset

/-- An invariant that does not speak of the list of turns, and that every taken turn keeps, is kept by
every step. -/
theorem step_keeps {I : State → Prop} (hpop : ∀ s, I s → I (popTurn s))
    (hturn : ∀ s t, I s → Taken s t → I t) {s t : State} (hs : I s) (h : step s = .next t) : I t :=
  hturn _ _ (hpop s hs) (step_taken h)

end Sys2Proof.Machine
end

section
/-! SUPPORT. The invariants that every step keeps: memory and BASE (10_state.md R26), the cursor's bounds
(R22), and the ranges of the output registers (R29 to R31). -/

namespace Sys2Proof.Machine

/-! ### Memory, BASE and the parameters -/

/-- BASE keeps the low ADDR_W bits of what is written (10_state.md R26). -/
theorem maskBase_eq (p : Params) (x : DWord) :
    maskBase p x = BitVec.ofNat 64 (x.toNat % 2 ^ p.addrW) := by
  refine BitVec.eq_of_getLsbD_eq fun i hi => ?_
  rw [maskBase, BitVec.getLsbD_and, BitVec.getLsbD_ofNat, BitVec.getLsbD_ofNat,
    Nat.testBit_two_pow_sub_one, Nat.testBit_mod_two_pow, BitVec.testBit_toNat, Bool.and_comm,
    Bool.and_assoc]

theorem maskBase_lt (p : Params) (x : DWord) : (maskBase p x).toNat < 2 ^ p.addrW := by
  rw [maskBase_eq, BitVec.toNat_ofNat]
  exact lt_of_le_of_lt (Nat.mod_le _ _) (Nat.mod_lt _ (Nat.two_pow_pos _))

/-- A register write leaves BASE within its bits. -/
theorem regWrite_base_lt (off : Nat) (v : Word) {s : State} (h : s.base.toNat < 2 ^ s.params.addrW) :
    (regWrite off v s).base.toNat < 2 ^ s.params.addrW := by
  have hkeeps (t : State) (ht : t.base.toNat < 2 ^ s.params.addrW) :
      (unlessBusy s t).base.toNat < 2 ^ s.params.addrW := by
    rcases unlessBusy_cases s t with ⟨-, he⟩ | ⟨-, he⟩ <;> rw [he]
    · exact h
    · exact ht
  unfold regWrite
  split
  case h_3 | h_7 => exact h
  case h_5 | h_6 => exact hkeeps _ (maskBase_lt _ _)
  all_goals exact hkeeps _ h

theorem memoryInv_of_taken {s t : State} (hs : s.MemoryInv) (h : Taken s t) :
    t.MemoryInv ∧ t.params = s.params := by
  obtain ⟨hp, hb, hm⟩ := hs
  cases h with
  | command h =>
    obtain ⟨hparams, hbase, hmem⟩ := h.frame
    exact ⟨by rw [State.MemoryInv, hparams, hbase, hmem]; exact ⟨hp, hb, hm⟩, hparams⟩
  | hostWrite off v =>
    have hparams := congrArg State.params (regWrite_frame off v s)
    have hmem := congrArg State.mem (regWrite_frame off v s)
    dsimp only at hparams hmem
    refine ⟨?_, hparams⟩
    rw [State.MemoryInv, hparams, hmem]
    exact ⟨hp, regWrite_base_lt off v hb, hm⟩
  | memory x b => exact ⟨⟨hp, hb, Memory.wf_memWrite hm _ _⟩, rfl⟩
  | disturbed x b => exact ⟨⟨hp, hb, Memory.wf_memWrite hm _ _⟩, rfl⟩
  | reset => exact ⟨⟨hp, Nat.two_pow_pos _, hm⟩, rfl⟩
  | _ => exact ⟨⟨hp, hb, hm⟩, rfl⟩

/-- Settles O30: each taken turn keeps the invariant, the two writes of memory by `Memory.wf_memWrite`
and the writes of BASE by `maskBase_lt`. -/
theorem stepKeepsMemoryInv : Obligations.StepKeepsMemoryInv := by
  intro s t hs h
  exact memoryInv_of_taken (s := popTurn s) hs (step_taken h)

/-! ### The cursor -/

/-- A cursor a command leaves keeps the bounds of R22. -/
theorem State.Leaves.bounds {s : State} {c : Cur} (h : s.Leaves c) (hs : s.CursorInv) :
    c.lenbits % 8 = 0 ∧ c.lenbits ≤ 8 * (2 ^ 32 - 1) ∧ c.pos < c.lenbits + 64 := by
  obtain ⟨hmod, hmax, hpos⟩ := hs
  rcases h with ⟨hlen, -, hlt⟩ | ⟨hlen, -, hlt⟩
  · rw [hlen]
    exact ⟨hmod, hmax, hlt hmod hpos⟩
  · rw [hlen]
    have hword := s.len.isLt
    simp only [State.freshCursor] at hlt ⊢
    exact ⟨by omega, by omega, hlt (by omega) (by omega)⟩

/-- Registers of 64 bits hold the cursor a command leaves without loss (00_scope.md R10). -/
theorem cursorInv_of_completed {s t : State} {i : Instr} (hs : s.CursorInv) (h : Completed s i t) :
    t.CursorInv := by
  obtain ⟨c, hc, -, hpos, hlen, -⟩ := h.cursor
  obtain ⟨hmod, hmax, hlt⟩ := hc.bounds hs
  have hlen64 : (BitVec.ofNat 64 c.lenbits).toNat = c.lenbits := Nat.mod_eq_of_lt (by omega)
  have hpos64 : (BitVec.ofNat 64 c.pos).toNat = c.pos := Nat.mod_eq_of_lt (by omega)
  rw [State.CursorInv, hpos, hlen, hlen64, hpos64]
  exact ⟨hmod, hmax, hlt⟩

theorem cursorInv_of_taken {s t : State} (hs : s.CursorInv) (h : Taken s t) : t.CursorInv := by
  cases h with
  | command h => exact cursorInv_of_completed hs h
  | hostWrite off v =>
    have hframe := regWrite_frame off v s
    dsimp only at hframe
    rw [hframe]
    exact hs
  | reset => exact (by decide : State.reset.CursorInv)
  | _ => exact hs

/-- Settles O31: a command leaves a cursor within the bounds of its session (`State.Leaves.bounds`), and no
other turn but reset touches POS or LENBITS. -/
theorem stepKeepsCursorInv : Obligations.StepKeepsCursorInv := by
  intro s t hs h
  exact step_keeps (I := State.CursorInv) (fun _ => id) (fun _ _ => cursorInv_of_taken) hs h

/-! ### The output registers -/

/-- Samples per frame are 960 or 1024 (41_aac.md R144). -/
theorem aacSpf_range (fl : Nat) : (BitVec.ofNat 11 (aacSpf fl)).toNat ∈ [0, 960, 1024] := by
  unfold aacSpf
  split <;> decide

theorem outputInv_of_completed {s t : State} {i : Instr} (hs : s.OutputInv) (h : Completed s i t) :
    t.OutputInv := by
  obtain ⟨hbd, hdw, hdh, hspf⟩ := hs
  cases h with
  | aaccfg req w f =>
    refine ⟨hbd, hdw, hdh, ?_⟩
    rw [complete_outAacSpf, writeAac_outAacSpf]
    split
    · exact aacSpf_range f.fl
    · exact hspf
  | vp9props _ hp =>
    obtain ⟨hpbd, hpdw, hpdh⟩ := hp
    refine ⟨?_, ?_, ?_, hspf⟩
    · simp only [List.mem_cons, List.not_mem_nil, or_false] at hpbd
      rw [complete_outVp9, writeVp9Props_outVp9]
      rcases hpbd with h | h | h <;> simp [h]
    · rw [complete_outDwidth, writeVp9Props_outDwidth, BitVec.toNat_ofNat]
      exact (Nat.mod_le _ _).trans hpdw
    · rw [complete_outDheight, writeVp9Props_outDheight, BitVec.toNat_ofNat]
      exact (Nat.mod_le _ _).trans hpdh
  | _ => exact ⟨hbd, hdw, hdh, hspf⟩

theorem outputInv_of_taken {s t : State} (hs : s.OutputInv) (h : Taken s t) : t.OutputInv := by
  cases h with
  | command h => exact outputInv_of_completed hs h
  | hostWrite off v =>
    have hframe := regWrite_frame off v s
    dsimp only at hframe
    rw [hframe]
    exact hs
  | reset => exact (by decide : State.reset.OutputInv)
  | _ => exact hs

/-- Settles O33: AACCFG writes 960 or 1024 samples, VP9PROPS a bit depth and a display size that its walk
bounds (`vp9PropsWalk_yields`), and no other turn but reset touches those registers. -/
theorem stepKeepsOutputInv : Obligations.StepKeepsOutputInv := by
  intro s t hs h
  exact step_keeps (I := State.OutputInv) (fun _ => id) (fun _ _ => outputInv_of_taken) hs h

end Sys2Proof.Machine
end

section
/-! SUPPORT. The write sets of the groups of commands (10_state.md R38). -/

namespace Sys2Proof.Machine

section
variable {s t : State} {i : Instr}

theorem Completed.keeps_cursor (h : Completed s i t) (hi : i.movesCursor = false) :
    t.pos = s.pos ∧ t.lenbits = s.lenbits ∧ t.status.sticky = s.status.sticky := by
  obtain ⟨c, -, hc, hpos, hlen, hsticky⟩ := h.cursor
  rw [hpos, hlen, hsticky, hc hi]
  simp [State.cursor]

theorem Completed.keeps_res (h : Completed s i t) (hi : i.writesRes = false) : t.res = s.res := by
  cases h with
  | primitive _ _ _ _ hres => exact hres hi
  | _ => rfl

theorem Completed.keeps_outputs (h : Completed s i t) (hi : i.extracts = false) :
    s.sameOutputs t := by
  cases h with
  | primitive => exact ⟨rfl, rfl, rfl, rfl, rfl, rfl, rfl, rfl⟩
  | extractFailed _ he => rw [hi] at he; cases he
  | _ => cases hi

theorem Completed.keeps_size (h : Completed s i t) (hsps : i ≠ .h264sps) (hprops : i ≠ .vp9props) :
    t.outWidth = s.outWidth ∧ t.outHeight = s.outHeight := by
  cases h with
  | h264sps => exact absurd rfl hsps
  | vp9props => exact absurd rfl hprops
  | _ => exact ⟨rfl, rfl⟩

/-- OUT_VP9 is compared with its KEY field set aside, which VP9KEY writes too. -/
theorem Completed.keeps_display (h : Completed s i t) (hprops : i ≠ .vp9props) :
    t.outDwidth = s.outDwidth ∧ t.outDheight = s.outDheight ∧
      { t.outVp9 with key := s.outVp9.key } = s.outVp9 := by
  cases h with
  | vp9props => exact absurd rfl hprops
  | _ => exact ⟨rfl, rfl, rfl⟩

theorem Completed.keeps_vp9 (h : Completed s i t) (hprops : i ≠ .vp9props) (hkey : i ≠ .vp9key) :
    t.outVp9 = s.outVp9 := by
  cases h with
  | vp9props => exact absurd rfl hprops
  | vp9key => exact absurd rfl hkey
  | _ => rfl

theorem Completed.keeps_aac (h : Completed s i t) (hi : ∀ q, i ≠ .aaccfg q) :
    t.outAacCh = s.outAacCh ∧ t.outAacSr = s.outAacSr ∧ t.outAacSpf = s.outAacSpf ∧
      t.status.outwCh = false ∧ t.status.outwSr = false ∧ t.status.outwSpf = false := by
  cases h with
  | aaccfg req => exact absurd rfl (hi req)
  | primitive _ hk => simp [hk, Outw.none]
  | _ => exact ⟨rfl, rfl, rfl, rfl, rfl, rfl⟩

/-- VALID is 0 "for every failure and for every extraction command" (60_exceptions.md R233). -/
theorem Completed.invalid (h : Completed s i t) (hi : i.extracts = true) :
    t.status.valid = false := by
  cases h with
  | primitive hp => rw [hi] at hp; cases hp
  | _ => rfl

end

/-- Settles O22: one lemma per group, each read off the forms a completion can take. -/
theorem commandsKeepToTheirWriteSets : Obligations.CommandsKeepToTheirWriteSets := by
  intro i s t h
  have hc := completed_of_exec h
  exact ⟨hc.keeps_cursor, hc.keeps_res, hc.keeps_outputs, hc.keeps_size, hc.keeps_display,
    hc.keeps_vp9, hc.keeps_aac, hc.invalid⟩

end Sys2Proof.Machine
end

section
/-! SUPPORT. The host's register accesses (10_state.md R35 to R37): the step of a read, a write, a
refused access and an error answer, and the register window's rules. -/

namespace Sys2Proof.Machine

/-! ### The step of one turn -/

/-- The step takes the first turn of the list. -/
theorem step_of_turns_cons {s : State} {x : Turn} {ts : List Turn} (h : s.turns = x :: ts) :
    step s = takeTurn x { s with turns := ts } := by
  simp [step, nextTurn, popTurn, h]

theorem alignedWord_iff (off : BitVec 8) (bytes : Nat) :
    alignedWord off bytes = true ↔ bytes = 4 ∧ off.toNat % 4 = 0 := by
  simp [alignedWord]

theorem step_hostRead {s : State} {off : BitVec 8} {ts : List Turn} (ha : off.toNat % 4 = 0)
    (h : s.turns = .host (.read off 4) :: ts) :
    step s = .next { s with turns := ts, readData := regRead s off.toNat } := by
  rw [step_of_turns_cons h]
  simp only [takeTurn, hostAct, (alignedWord_iff off 4).mpr ⟨rfl, ha⟩, if_true]
  rfl

theorem step_hostWrite {s : State} {off : BitVec 8} {v : Word} {ts : List Turn}
    (ha : off.toNat % 4 = 0) (h : s.turns = .host (.write off 4 v) :: ts) :
    step s = .next (regWrite off.toNat v { s with turns := ts }) := by
  rw [step_of_turns_cons h]
  simp only [takeTurn, hostAct, (alignedWord_iff off 4).mpr ⟨rfl, ha⟩, if_true]

/-- The access is not an aligned 32-bit one (10_state.md R37). -/
theorem alignedWord_eq_false {off : BitVec 8} {bytes : Nat} (h : bytes ≠ 4 ∨ off.toNat % 4 ≠ 0) :
    alignedWord off bytes = false := by
  rw [Bool.eq_false_iff, ne_eq, alignedWord_iff]
  omega

theorem step_memError {s : State} {ts : List Turn} (h : s.turns = .memError :: ts) :
    step s = if protectedBytes s = 0 then .next { s with turns := ts }
      else .refused .memoryPortError := by
  rw [step_of_turns_cons h]
  rfl

/-! ### Register writes -/

theorem unlessBusy_idle {s : State} (h : s.busy = false) (t : State) : unlessBusy s t = t := by
  simp [unlessBusy, h]

/-- From 0x18 on the window has read-only registers and reserved offsets only (10_state.md R35, R36). -/
theorem regWrite_readOnly {off : Nat} (h : 0x18 ≤ off) (v : Word) (s : State) :
    regWrite off v s = s := by
  unfold regWrite
  split
  case h_7 => rfl
  all_goals omega

/-- The value a write to BASE_LO makes up (20_memory.md R65). -/
theorem toNat_hiWord_append (x : DWord) (v : Word) :
    (hiWord x ++ v).toNat = x.toNat / 2 ^ 32 * 2 ^ 32 + v.toNat := by
  have hx := x.isLt
  have hv := v.isLt
  simp only [hiWord, BitVec.toNat_append, BitVec.extractLsb'_toNat, Nat.shiftRight_eq_div_pow]
  rw [← Nat.shiftLeft_add_eq_or_of_lt hv, Nat.shiftLeft_eq]
  omega

/-- The value a write to BASE_HI makes up (20_memory.md R65). -/
theorem toNat_append_loWord (v : Word) (x : DWord) :
    (v ++ loWord x).toNat = v.toNat * 2 ^ 32 + x.toNat % 2 ^ 32 := by
  simp only [BitVec.toNat_append]
  rw [← Nat.shiftLeft_add_eq_or_of_lt (loWord x).isLt, Nat.shiftLeft_eq]
  simp [loWord]

/-- Settles O9: a write to STATUS is taken busy or idle, as `statusW1c` says. -/
theorem statusWriteClearsDoneAndDrop : Obligations.StatusWriteClearsDoneAndDrop :=
  fun _ _ _ h => step_hostWrite (by decide) h

/-- Settles O13: an idle unit takes the write, and BASE keeps its low ADDR_W bits (`maskBase_eq`). -/
theorem idleRegisterWrites : Obligations.IdleRegisterWrites := by
  intro s v ts hidle
  have htaken (off : BitVec 8) (ha : off.toNat % 4 = 0) (t : State)
      (hw : regWrite off.toNat v { s with turns := ts } = unlessBusy { s with turns := ts } t)
      (h : s.turns = .host (.write off 4 v) :: ts) : step s = .next t := by
    rw [step_hostWrite ha h, hw]
    exact congrArg _ (unlessBusy_idle (s := { s with turns := ts }) hidle t)
  refine ⟨htaken 0x00 (by decide) _ rfl, htaken 0x0C (by decide) _ rfl, fun h => ?_, fun h => ?_⟩
  · rw [htaken 0x10 (by decide) _ rfl h, maskBase_eq, toNat_hiWord_append]
  · rw [htaken 0x14 (by decide) _ rfl h, maskBase_eq, toNat_append_loWord]

/-! ### Actions with no next state -/

/-- Settles O14: the shape check, the bytes the running command may read, and the guarded addresses. -/
theorem actionsOutsideTheModelAreRefused : Obligations.ActionsOutsideTheModelAreRefused := by
  refine ⟨fun s off bytes ts hbad h => ?_, fun s off bytes v ts hbad h => ?_,
    fun s r i ts h hr hd => ?_, fun s ts h hnone => ?_, fun s r i k a b ts h hr hd hk ha => ?_⟩
  · rw [step_of_turns_cons h]
    simp [takeTurn, hostAct, alignedWord_eq_false hbad]
  · rw [step_of_turns_cons h]
    simp [takeTurn, hostAct, alignedWord_eq_false hbad]
  · rw [step_memError h, protectedBytes_running hr hd]
    exact ⟨fun hpos => if_neg (by omega), fun hzero => if_pos hzero⟩
  · have hzero : protectedBytes s = 0 := by
      rcases hnone with hr | ⟨r, e, hr, hd⟩
      · simp [protectedBytes, hr]
      · simp [protectedBytes, hr, hd]
    rw [step_memError h, if_pos hzero]
  · have hguard : State.guards { s with turns := ts } a.toNat = true :=
      (guards_iff s a.toNat).mpr ⟨k, by rwa [protectedBytes_running hr hd], ha⟩
    rw [step_of_turns_cons h]
    simp [takeTurn, hostAct, hguard]

end Sys2Proof.Machine
end

section
/-! SUPPORT. The words the registers read as (10_state.md R23, R24, R30, R35, R36): fields packed from bit
0 upwards, so that a word is the sum of its fields and its bits above them are 0. -/

namespace Sys2Proof.Machine

/-- The word is the number `x`, which lies in its low `n` bits. -/
def Packs (w : Word) (n x : Nat) : Prop := w.toNat = x ∧ x < 2 ^ n

/-- A field of `k` bits put above the `n` bits in use. -/
theorem Packs.field {w : Word} {n x : Nat} (h : Packs w n x) {k y : Nat} (hy : y < 2 ^ k)
    (hn : n + k ≤ 32) : Packs (w ||| BitVec.ofNat 32 (y * 2 ^ n)) (n + k) (x + 2 ^ n * y) := by
  obtain ⟨rfl, hx⟩ := h
  have hlt : w.toNat + 2 ^ n * y < 2 ^ (n + k) := by
    calc w.toNat + 2 ^ n * y < 2 ^ n * (y + 1) := by rw [Nat.mul_add]; omega
      _ ≤ 2 ^ n * 2 ^ k := Nat.mul_le_mul_left _ hy
      _ = 2 ^ (n + k) := (Nat.pow_add ..).symm
  have hword : 2 ^ (n + k) ≤ 2 ^ 32 := Nat.pow_le_pow_right (by omega) hn
  refine ⟨?_, hlt⟩
  rw [BitVec.toNat_or, BitVec.toNat_ofNat, Nat.mod_eq_of_lt (by rw [Nat.mul_comm]; omega),
    Nat.mul_comm, Nat.lor_comm, ← Nat.two_pow_add_eq_or_of_lt hx, Nat.add_comm]

/-- A flag put above the `n` bits in use. -/
theorem Packs.flag {w : Word} {n x : Nat} (h : Packs w n x) (b : Bool) (hn : n + 1 ≤ 32) :
    Packs (w ||| flagAt b n) (n + 1) (x + 2 ^ n * b.toNat) :=
  h.field (Bool.toNat_lt b) hn

/-- The lowest field. -/
theorem packs_ofNat {k y : Nat} (hy : y < 2 ^ k) (hk : k ≤ 32) : Packs (BitVec.ofNat 32 y) k y :=
  ⟨Nat.mod_eq_of_lt (hy.trans_le (Nat.pow_le_pow_right (by omega) hk)), hy⟩

/-- The lowest flag. -/
theorem packs_flagAt (b : Bool) : Packs (flagAt b 0) 1 b.toNat := by
  have h := packs_ofNat (k := 1) (Bool.toNat_lt b) (by omega)
  rwa [← Nat.mul_one b.toNat] at h ⊢

theorem ErrCode.code_lt (e : ErrCode) : e.code < 2 ^ 4 := by cases e <;> decide

theorem ctrlWord_packs (c : Ctrl) : Packs (ctrlWord c) 2 (c.strict.toNat + 2 * c.ie.toNat) :=
  (packs_flagAt c.strict).flag c.ie (by decide)

theorem statusWord_packs (s : State) : Packs (statusWord s) 15
    (s.busy.toNat + 2 * s.status.done.toNat + 2 ^ 2 * s.status.ok.toNat +
      2 ^ 3 * s.status.valid.toNat + 2 ^ 4 * s.status.err.code + 2 ^ 8 * s.exh.toNat +
      2 ^ 9 * s.over.toNat + 2 ^ 10 * s.status.sticky.toNat + 2 ^ 11 * s.status.drop.toNat +
      2 ^ 12 * s.status.outwCh.toNat + 2 ^ 13 * s.status.outwSr.toNat +
      2 ^ 14 * s.status.outwSpf.toNat) :=
  packs_flagAt s.busy |>.flag s.status.done (by decide) |>.flag s.status.ok (by decide)
    |>.flag s.status.valid (by decide) |>.field s.status.err.code_lt (by decide)
    |>.flag s.exh (by decide) |>.flag s.over (by decide) |>.flag s.status.sticky (by decide)
    |>.flag s.status.drop (by decide) |>.flag s.status.outwCh (by decide)
    |>.flag s.status.outwSr (by decide) |>.flag s.status.outwSpf (by decide)

theorem vp9Word_packs (o : Vp9Out) : Packs (vp9Word o) 13
    (o.bitDepth.toNat + 2 ^ 4 * o.colorSpace.toNat + 2 ^ 7 * o.ssx.toNat + 2 ^ 8 * o.ssy.toNat +
      2 ^ 9 * o.fullSwing.toNat + 2 ^ 10 * o.profile.toNat + 2 ^ 12 * o.key.toNat) :=
  packs_ofNat o.bitDepth.isLt (by decide) |>.field o.colorSpace.isLt (by decide)
    |>.flag o.ssx (by decide) |>.flag o.ssy (by decide) |>.flag o.fullSwing (by decide)
    |>.field o.profile.isLt (by decide) |>.flag o.key (by decide)

/-- Settles O11: each word is the sum of the fields it packs. -/
theorem registerFieldsStandAtTheirBits : Obligations.RegisterFieldsStandAtTheirBits := by
  intro s
  exact ⟨(ctrlWord_packs s.ctrl).1, (statusWord_packs s).1, (vp9Word_packs s.outVp9).1⟩

/-- The offsets behind the map are reserved (10_state.md R35, R36). -/
theorem regRead_reserved {k : Nat} (h : 0x58 ≤ k) (s : State) : regRead s k = 0 := by
  unfold regRead
  split
  case h_22 => rfl
  all_goals omega

/-- A field of at most 32 bits, zero-extended (10_state.md R31). -/
theorem toNat_setWidth_word {n : Nat} (hn : n ≤ 32) (x : BitVec n) :
    (x.setWidth 32).toNat = x.toNat := by
  rw [BitVec.toNat_setWidth]
  exact Nat.mod_eq_of_lt (x.isLt.trans_le (Nat.pow_le_pow_right (by omega) hn))

/-- CTRL takes bits 0 and 1 of what is written, and STATUS bits 1 and 11 (10_state.md R36). -/
theorem regWrite_ignores_reservedBits (v : Word) (s : State) :
    regWrite 0x00 v s = regWrite 0x00 (v &&& 0x003#32) s ∧
    regWrite 0x08 v s = regWrite 0x08 (v &&& 0x802#32) s := by
  have hctrl0 : (v &&& 0x003#32).getLsbD 0 = v.getLsbD 0 := by simp
  have hctrl1 : (v &&& 0x003#32).getLsbD 1 = v.getLsbD 1 := by simp
  have hdone : (v &&& 0x802#32).getLsbD 1 = v.getLsbD 1 := by simp
  have hdrop : (v &&& 0x802#32).getLsbD 11 = v.getLsbD 11 := by simp
  constructor
  · simp only [regWrite, hctrl0, hctrl1]
  · simp only [regWrite, statusW1c, hdone, hdrop]

/-- Settles O12: the bits above a word's fields are 0 (`Packs`), and the other offsets neither read nor
write a register. -/
theorem reservedSpaceReadsZero : Obligations.ReservedSpaceReadsZero := by
  refine ⟨fun s k hk => regRead_reserved hk s, fun _ => rfl, fun s off v ts hoff ha h => ?_,
    fun s => ?_, fun s v => regWrite_ignores_reservedBits v s⟩
  · rw [step_hostWrite ha h, regWrite_readOnly hoff]
  · have hctrl := ctrlWord_packs s.ctrl
    have hstatus := statusWord_packs s
    have hvp9 := vp9Word_packs s.outVp9
    exact ⟨hctrl.1 ▸ hctrl.2, hstatus.1 ▸ hstatus.2, hvp9.1 ▸ hvp9.2,
      (toNat_setWidth_word (by decide) s.outAacCh).trans_lt s.outAacCh.isLt,
      (toNat_setWidth_word (by decide) s.outAacSr).trans_lt s.outAacSr.isLt,
      (toNat_setWidth_word (by decide) s.outAacSpf).trans_lt s.outAacSpf.isLt⟩

/-- The two words of a 64-bit register make it up (20_memory.md R65). -/
theorem hiWord_append_loWord (x : DWord) : hiWord x ++ loWord x = x := by
  refine BitVec.eq_of_toNat_eq ?_
  rw [toNat_hiWord_append]
  simp only [loWord, BitVec.extractLsb'_toNat, Nat.shiftRight_zero]
  exact Nat.div_add_mod' x.toNat _

/-- Settles O10: the step of an aligned read, and each register at its offset; a 64-bit one is its two
words (`hiWord_append_loWord`). -/
theorem registerReadsFollowTheMap : Obligations.RegisterReadsFollowTheMap := by
  refine ⟨fun s off ts ha h => step_hostRead ha h, fun s => ?_⟩
  exact ⟨rfl, hiWord_append_loWord s.base, hiWord_append_loWord s.pos,
    hiWord_append_loWord s.lenbits, hiWord_append_loWord s.res, hiWord_append_loWord s.outWidth,
    hiWord_append_loWord s.outHeight, rfl, rfl, toNat_setWidth_word (by decide) s.outAacCh,
    toNat_setWidth_word (by decide) s.outAacSr, toNat_setWidth_word (by decide) s.outAacSpf⟩

end Sys2Proof.Machine
end

section
/-! SUPPORT. Who writes memory (20_memory.md R63, R70): the unit's turn leaves it alone, and what another
agent's write does to memory and to the running command. -/

namespace Sys2Proof.Machine

/-- The unit's turn always has a next state, and memory is not written (20_memory.md R63). -/
theorem unitTurn_keeps_mem (s : State) : ∃ t, unitTurn s = .next t ∧ t.mem = s.mem := by
  cases hr : s.running with
  | none => exact ⟨s, by simp only [unitTurn, hr], rfl⟩
  | some r =>
    have hturn : unitTurn s = execWord r.cmd s := by simp only [unitTurn, hr]
    cases hd : decode r.cmd with
    | ok i =>
      obtain ⟨t, ht, hc⟩ := exec_completed i s
      exact ⟨t, by rw [hturn, execWord_of_decode_ok hd, ht], hc.frame.2.2⟩
    | error e => exact ⟨completeIllegal s, by simp only [hturn, execWord, hd], rfl⟩

/-- Settles O24: `unitTurn_keeps_mem` on the state with the turn taken off the list. -/
theorem unitNeverWritesMemory : Obligations.UnitNeverWritesMemory := by
  intro s hturn
  have hstep : step s = unitTurn (popTurn s) := by simp only [step, hturn, takeTurn]
  rw [hstep]
  exact unitTurn_keeps_mem (popTurn s)

/-- An idle unit may read no byte (20_memory.md R70). -/
theorem protectedBytes_none {s : State} (hr : s.running = none) : protectedBytes s = 0 := by
  simp only [protectedBytes, hr]

/-- An illegal word reads no byte (30_encoding.md R83). -/
theorem protectedBytes_illegal {s : State} {r : Running} {e : IllegalWord} (hr : s.running = some r)
    (hd : decode r.cmd = .error e) : protectedBytes s = 0 := by
  simp only [protectedBytes, hr, hd]

/-- Where the running command may read no byte, no address is guarded. -/
theorem guards_eq_false {s : State} (h : protectedBytes s = 0) (a : Nat) : s.guards a = false := by
  rw [Bool.eq_false_iff, ne_eq, guards_iff, h]
  rintro ⟨k, hk, -⟩
  exact Nat.not_lt_zero k hk

/-- The guarded addresses while a legal command runs (20_memory.md R61, R70). -/
theorem guards_running_iff {s : State} {r : Running} {i : Instr} (hr : s.running = some r)
    (hd : decode r.cmd = .ok i) (a : Nat) : s.guards a = true ↔
      ∃ k < mayReadBytes i s, a = (s.base.toNat + k) % 2 ^ s.params.addrW := by
  rw [guards_iff, protectedBytes_running hr hd]

/-- Another agent's write changes memory and, at most, the running command. -/
theorem agentAct_frame (a : DWord) (b : Byte) (s : State) :
    agentAct a b s =
      { s with mem := memWrite s.mem a.toNat b, running := (agentAct a b s).running } := by
  rcases agentAct_cases a b s with ⟨-, he⟩ | ⟨-, he⟩ <;> rw [he] <;> rfl

theorem agentAct_running_guarded {a : DWord} {s : State} (h : s.guards a.toNat = true) (b : Byte) :
    (agentAct a b s).running = s.running.map fun r => { r with disturbed := true } := by
  simp [agentAct, h]

theorem agentAct_running_unguarded {a : DWord} {s : State} (h : s.guards a.toNat = false) (b : Byte) :
    (agentAct a b s).running = s.running := by
  simp [agentAct, h]

/-- Settles O16: the byte by the laws of memory, the mark by whether the address is guarded. -/
theorem agentWritesDisturbTheCommand : Obligations.AgentWritesDisturbTheCommand := by
  intro s a b ts h hwf
  have hstep : step s = .next (agentAct a b { s with turns := ts }) := step_of_turns_cons h
  have hframe := agentAct_frame a b { s with turns := ts }
  have hmem := congrArg State.mem hframe
  have hkeeps (hnone : protectedBytes s = 0) :=
    agentAct_running_unguarded (s := { s with turns := ts }) (guards_eq_false hnone a.toNat) b
  refine ⟨_, hstep, ?_, ?_, fun x hx => ?_, fun r i hr hd => ⟨fun hin => ?_, fun hout => ?_⟩,
    fun r e hr hd => ?_, fun hr => ?_⟩
  · rw [hmem]; exact hframe
  · rw [hmem]; exact memRead_memWrite_same a.toNat b hwf
  · rw [hmem]; exact memRead_memWrite_other s.mem b hx.symm
  · have hguard : State.guards { s with turns := ts } a.toNat = true :=
      (guards_running_iff hr hd a.toNat).mpr hin
    rw [agentAct_running_guarded hguard, hr, Option.map_some]
  · have hguard : State.guards { s with turns := ts } a.toNat = false := by
      rw [Bool.eq_false_iff, ne_eq]
      intro hg
      obtain ⟨k, hk, ha⟩ := (guards_running_iff hr hd a.toNat).mp hg
      exact hout k hk ha
    rw [agentAct_running_unguarded hguard, hr]
  · rw [hkeeps (protectedBytes_illegal hr hd), hr]
  · rw [hkeeps (protectedBytes_none hr), hr]

end Sys2Proof.Machine
end

section
/-! SUPPORT. The walks of the extraction commands depend on nothing but the buffer (20_memory.md R62):
stage by stage, two views that agree on the bytes of the session give the same walk. -/

namespace Sys2Proof.Machine

/-- A conditional part followed by the rest of the walk, in the shape `do` gives it. -/
theorem Same.when {β : Type} {len : Nat} {p : Prop} [Decidable p] {a b : Walk Unit}
    {f g : Unit → Walk β} (h : Walk.Same len a b) (hf : ∀ u, Walk.Same len (f u) (g u)) :
    Walk.Same len (if p then a >>= f else f ()) (if p then b >>= g else g ()) :=
  Same.ite (Same.bind h hf) (hf ())

/-- A read that is made under a condition, followed by the rest of the walk. -/
theorem Same.whenRead {α β : Type} {len : Nat} {p : Prop} [Decidable p] {a b : Walk α}
    {rest rest' : Walk β} (h : Walk.Same len a b) (hrest : Walk.Same len rest rest') :
    Walk.Same len (if p then a >>= fun _ => rest else rest)
      (if p then b >>= fun _ => rest' else rest') :=
  Same.ite (Same.bind h fun _ => hrest) hrest

/-- The range check reads nothing. -/
theorem checkRange_same (len : Nat) (m : Mode) (g : Geometry) :
    Walk.Same len (checkRange m g) (checkRange m g) := by
  cases m with
  | strict => exact Same.ite (Same.pure len ()) (Same.fail len .range)
  | lenient => exact Same.pure len ()

section
variable {v w : View} {len : Nat} (h : View.agrees len v w) (h8 : len % 8 = 0) (m : Mode)
include h h8

/-! ### H264SPS -/

theorem stageHeader_same : Walk.Same len (stageHeader v m) (stageHeader w m) :=
  Same.bind (rd_same h h8 m 8) fun _ => Same.bind (rd_same h h8 m 8) fun _ =>
  Same.bind (rd_same h h8 m 16) fun _ => Same.bind (rdUe_same h h8 m) fun _ => Same.pure len _

theorem scalingListsFrom_same (slLarge i left : Nat) :
    Walk.Same len (scalingListsFrom v m slLarge i left) (scalingListsFrom w m slLarge i left) := by
  induction left generalizing i with
  | zero => exact Same.pure len ()
  | succ left ih =>
    exact Same.bind (rd_same h h8 m 1) fun _ =>
      Same.when (repeatSe_same h h8 m _) fun _ => ih (i + 1)

theorem stageHighProfile_same (slLarge profile : Nat) :
    Walk.Same len (stageHighProfile v m slLarge profile) (stageHighProfile w m slLarge profile) :=
  Same.ite
    (Same.bind (rdUe_same h h8 m) fun _ => Same.whenRead (rd_same h h8 m 1) <|
      Same.bind (rdUe_same h h8 m) fun _ => Same.bind (rdUe_same h h8 m) fun _ =>
      Same.bind (rd_same h h8 m 1) fun _ => Same.bind (rd_same h h8 m 1) fun _ =>
      Same.ite (scalingListsFrom_same h h8 m _ _ _) (Same.pure len ()))
    (Same.pure len ())

theorem stagePoc_same : Walk.Same len (stagePoc v m) (stagePoc w m) :=
  Same.bind (rdUe_same h h8 m) fun _ => Same.bind (rdUe_same h h8 m) fun _ => Same.ite
    (Same.bind (rdUe_same h h8 m) fun _ => Same.pure len ())
    (Same.ite
      (Same.bind (rd_same h h8 m 1) fun _ => Same.bind (rdSe_same h h8 m) fun _ =>
        Same.bind (rdSe_same h h8 m) fun _ => Same.bind (rdUe_same h h8 m) fun n =>
        repeatSe_same h h8 m n)
      (Same.pure len ()))

theorem stageGeometry_same : Walk.Same len (stageGeometry v m) (stageGeometry w m) :=
  Same.bind (rdUe_same h h8 m) fun _ => Same.bind (rd_same h h8 m 1) fun _ =>
  Same.bind (rdUe_same h h8 m) fun _ => Same.bind (rdUe_same h h8 m) fun _ =>
  Same.bind (rd_same h h8 m 1) fun _ => Same.whenRead (rd_same h h8 m 1) <|
  Same.bind (rd_same h h8 m 1) fun _ => Same.bind (rd_same h h8 m 1) fun _ => Same.ite
    (Same.bind (rdUe_same h h8 m) fun _ => Same.bind (rdUe_same h h8 m) fun _ =>
      Same.bind (rdUe_same h h8 m) fun _ => Same.bind (rdUe_same h h8 m) fun _ => Same.pure len _)
    (Same.pure len _)

theorem h264Walk_same (slLarge : Nat) :
    Walk.Same len (h264Walk v m slLarge) (h264Walk w m slLarge) :=
  Same.bind (stageHeader_same h h8 m) fun _ => Same.bind (stageHighProfile_same h h8 m _ _) fun _ =>
  Same.bind (stagePoc_same h h8 m) fun _ => Same.bind (stageGeometry_same h h8 m) fun g =>
  Same.bind (checkRange_same len m g) fun _ => Same.pure len g

/-! ### VP9KEY and VP9PROPS -/

theorem vp9Preamble_same : Walk.Same len (vp9Preamble v m) (vp9Preamble w m) :=
  Same.bind (rd_same h h8 m 2) fun _ => Same.when (Same.fail len .marker) fun _ =>
  Same.bind (rd_same h h8 m 1) fun _ => Same.bind (rd_same h h8 m 1) fun _ =>
  Same.whenRead (rd_same h h8 m 1) <|
  Same.bind (rd_same h h8 m 1) fun _ => Same.when (Same.fail len .showExisting) fun _ =>
  Same.bind (rd_same h h8 m 1) fun _ => Same.pure len _

theorem stageKeyframeSync_same (ft : Nat) :
    Walk.Same len (stageKeyframeSync v m ft) (stageKeyframeSync w m ft) := by
  unfold stageKeyframeSync
  exact Same.when (Same.fail len .notKeyframe) fun _ => Same.bind (rd_same h h8 m 1) fun _ =>
    Same.bind (rd_same h h8 m 1) fun _ => Same.bind (rd_same h h8 m 24) fun _ =>
    Same.ite (Same.fail len .sync) (Same.pure len ())

theorem stageBitdepth_same (profile : Nat) :
    Walk.Same len (stageBitdepth v m profile) (stageBitdepth w m profile) :=
  Same.ite (Same.bind (rd_same h h8 m 1) fun _ => Same.pure len _) (Same.pure len _)

theorem stageColor_same (srgbFullSwing : Bool) (profile cs : Nat) :
    Walk.Same len (stageColor v m srgbFullSwing profile cs)
      (stageColor w m srgbFullSwing profile cs) :=
  Same.ite
    (Same.bind (rd_same h h8 m 1) fun _ => Same.ite
      (Same.bind (rd_same h h8 m 1) fun _ => Same.bind (rd_same h h8 m 1) fun _ =>
        Same.bind (rd_same h h8 m 1) fun _ => Same.pure len _)
      (Same.pure len _))
    (Same.bind (rd_same h h8 m 1) fun _ => Same.when (Same.fail len .color) fun _ =>
      Same.pure len _)

theorem stageSize_same : Walk.Same len (stageSize v m) (stageSize w m) :=
  Same.bind (rd_same h h8 m 16) fun _ => Same.bind (rd_same h h8 m 16) fun _ =>
  Same.bind (rd_same h h8 m 1) fun _ => Same.ite
    (Same.bind (rd_same h h8 m 16) fun _ => Same.bind (rd_same h h8 m 16) fun _ => Same.pure len _)
    (Same.pure len _)

theorem vp9PropsWalk_same (srgbFullSwing : Bool) :
    Walk.Same len (vp9PropsWalk v m srgbFullSwing) (vp9PropsWalk w m srgbFullSwing) :=
  Same.bind (vp9Preamble_same h h8 m) fun (_, ft) =>
  Same.bind (stageKeyframeSync_same h h8 m ft) fun _ =>
  Same.bind (stageBitdepth_same h h8 m _) fun _ => Same.bind (rd_same h h8 m 3) fun _ =>
  Same.bind (stageColor_same h h8 m _ _ _) fun _ => Same.bind (rdAlign_same h h8 m) fun _ =>
  Same.bind (stageSize_same h h8 m) fun _ => Same.pure len _

end

/-- AACCFG reads bytes 0 and 1 always, and 2 to 4 only where LEN is above 4 (41_aac.md R142, R143). -/
theorem aacFields_agrees {v w : View} {n : Nat} (h : View.agrees (8 * n) v w) (hn : 2 ≤ n) :
    aacFields v n = aacFields w n := by
  have hbuf {i : Nat} (hi : i < n) : buf v i i = buf w i i := buf_agrees h i (by omega)
  unfold aacFields
  simp only [hbuf (show 0 < n by omega), hbuf (show 1 < n by omega)]
  by_cases h4 : 4 < n
  · simp only [hbuf (show 2 < n by omega), hbuf (show 3 < n by omega), hbuf h4]
  · simp only [h4, and_false, if_false]

end Sys2Proof.Machine
end

section
/-! SUPPORT. The form the completions of H264SPS, VP9KEY and VP9PROPS share (42_h264_sps.md R160,
43_vp9.md R190, 60_exceptions.md R233). -/

namespace Sys2Proof.Machine

/-- The completion of a command that starts a session and walks it: INPUT on an empty buffer, else the
cursor where the walk ended, and the outputs where it succeeded. -/
def completeSession {α : Type} (write : α → State → State) (r : EStateM.Result ErrCode Cur α)
    (s : State) : State :=
  if s.len.toNat = 0 then complete (failed .input) s
  else
    match r with
    | .error code c => complete (failed code) (commitCursor c s)
    | .ok x c => complete (succeeded false) (write x (commitCursor c s))

theorem completeSession_empty {α : Type} (write : α → State → State)
    (r : EStateM.Result ErrCode Cur α) {s : State} (h : s.len.toNat = 0) :
    completeSession write r s = complete (failed .input) s := if_pos h

theorem completeSession_error {α : Type} (write : α → State → State) (code : ErrCode) (c : Cur)
    {s : State} (h : s.len.toNat ≠ 0) :
    completeSession write (.error code c) s = complete (failed code) (commitCursor c s) := if_neg h

theorem completeSession_ok {α : Type} (write : α → State → State) (x : α) (c : Cur)
    {s : State} (h : s.len.toNat ≠ 0) : completeSession write (.ok x c) s =
      complete (succeeded false) (write x (commitCursor c s)) := if_neg h

/-- The registers a successful H264SPS writes (42_h264_sps.md R167, R168). -/
def writeH264Size (g : Geometry) (s : State) : State :=
  { s with outWidth := BitVec.ofInt 64 g.width, outHeight := BitVec.ofInt 64 g.height }

/-- The field a successful VP9KEY writes, from the profile and frame_type (43_vp9.md R191). -/
def writeVp9Key (x : Nat × Nat) (s : State) : State :=
  { s with outVp9 := { s.outVp9 with key := decide (x.2 = 0) } }

theorem execH264sps_eq (s : State) : execH264sps s = .next (completeSession writeH264Size
    (h264Walk s.view s.mode s.params.slLarge s.freshCursor) s) := by
  unfold execH264sps completeSession
  split
  · rfl
  · cases h264Walk s.view s.mode s.params.slLarge s.freshCursor <;> rfl

theorem execVp9key_eq (s : State) : execVp9key s = .next (completeSession writeVp9Key
    (vp9Preamble s.view s.mode s.freshCursor) s) := by
  unfold execVp9key completeSession
  split
  · rfl
  · cases vp9Preamble s.view s.mode s.freshCursor <;> rfl

theorem execVp9props_eq (s : State) : execVp9props s = .next (completeSession writeVp9Props
    (vp9PropsWalk s.view s.mode s.params.srgbFullSwing s.freshCursor) s) := by
  unfold execVp9props completeSession
  split
  · rfl
  · cases vp9PropsWalk s.view s.mode s.params.srgbFullSwing s.freshCursor <;> rfl

end Sys2Proof.Machine
end

section
/-! SUPPORT. A command on another memory that holds the same buffer (20_memory.md R60 to R62): each
reads the same, so each completes the same. -/

namespace Sys2Proof.Machine

/-- The state with another memory behind the port. -/
def State.withMem (s : State) (m : Memory) : State := { s with mem := m }

@[simp] theorem withMem_mode (s : State) (m : Memory) : (s.withMem m).mode = s.mode := rfl
@[simp] theorem withMem_cursor (s : State) (m : Memory) : (s.withMem m).cursor = s.cursor := rfl
@[simp] theorem withMem_freshCursor (s : State) (m : Memory) :
    (s.withMem m).freshCursor = s.freshCursor := rfl
@[simp] theorem withMem_params (s : State) (m : Memory) : (s.withMem m).params = s.params := rfl
@[simp] theorem withMem_len (s : State) (m : Memory) : (s.withMem m).len = s.len := rfl

/-- The views through the two memories agree on a session of `len` bits (20_memory.md R61). -/
theorem agrees_withMem {s : State} {m : Memory} {n : Nat}
    (h : ∀ k < n, memRead m ((s.base.toNat + k) % 2 ^ s.params.addrW) =
      memRead s.mem ((s.base.toNat + k) % 2 ^ s.params.addrW)) {len : Nat} (hlen : len / 8 = n) :
    View.agrees len (s.withMem m).view s.view := by
  subst hlen
  exact ⟨rfl, rfl, h⟩

theorem completeRead_withMem (e : ErrCode) (r : Option DWord) (c : Cur) (s : State) (m : Memory) :
    completeRead e r c (s.withMem m) = (completeRead e r c s).withMem m := by
  cases r <;> rfl

theorem completeSession_withMem {α : Type} {write : α → State → State} {m : Memory}
    (hwrite : ∀ x s, write x (s.withMem m) = (write x s).withMem m)
    (r : EStateM.Result ErrCode Cur α) (s : State) :
    completeSession write r (s.withMem m) = (completeSession write r s).withMem m := by
  by_cases hlen : s.len.toNat = 0
  · have hlen' : (s.withMem m).len.toNat = 0 := hlen
    rw [completeSession_empty write r hlen, completeSession_empty write r hlen']
    rfl
  · have hlen' : (s.withMem m).len.toNat ≠ 0 := hlen
    cases r with
    | error code c =>
      rw [completeSession_error write code c hlen, completeSession_error write code c hlen']
      rfl
    | ok x c =>
      rw [completeSession_ok write x c hlen, completeSession_ok write x c hlen']
      exact congrArg (complete _) (hwrite x (commitCursor c s))

/-- The command's outcome on memory `m` is its outcome on the state's own memory, with `m` in it. -/
def ReadsAlike (f : State → Host.Outcome State Fault Refusal) (s : State) (m : Memory) : Prop :=
  ∀ t, f s = .next t → f (s.withMem m) = .next (t.withMem m)

section
variable {s : State} {m : Memory}

theorem ReadsAlike.of_eq {f : State → Host.Outcome State Fault Refusal} {t : State}
    (h : f s = .next t) (h' : f (s.withMem m) = .next (t.withMem m)) : ReadsAlike f s m := by
  intro u hu
  rw [h] at hu
  cases hu
  exact h'

/-! ### The primitive commands -/

section
variable (h : View.agrees s.lenbits.toNat (s.withMem m).view s.view) (h8 : s.lenbits.toNat % 8 = 0)
include h h8

theorem execRdbits_readsAlike (n : Nat) : ReadsAlike (execRdbits n) s m := by
  have hread : readBits (s.withMem m).view s.mode n s.cursor = readBits s.view s.mode n s.cursor :=
    readBits_agrees h h8 s.mode n
  unfold ReadsAlike execRdbits
  split
  · rintro t ⟨⟩; rw [completeRead_withMem]; rfl
  · rintro t ⟨⟩; simp only [withMem_mode, withMem_cursor, hread, completeRead_withMem]

theorem execClz_readsAlike : ReadsAlike execClz s m := by
  have hread : clz (s.withMem m).view s.cursor = clz s.view s.cursor := clz_agrees h h8
  refine ReadsAlike.of_eq rfl ?_
  simp only [execClz, withMem_cursor, hread]
  rfl

theorem execUe_readsAlike : ReadsAlike execUe s m := by
  have hread : ue (s.withMem m).view s.mode s.cursor = ue s.view s.mode s.cursor :=
    ue_agrees h h8 s.mode
  refine ReadsAlike.of_eq rfl ?_
  simp only [execUe, withMem_mode, withMem_cursor, hread, completeRead_withMem]

theorem execSe_readsAlike : ReadsAlike execSe s m := by
  have hread : se (s.withMem m).view s.mode s.cursor = se s.view s.mode s.cursor :=
    se_agrees h h8 s.mode
  refine ReadsAlike.of_eq rfl ?_
  simp only [execSe, withMem_mode, withMem_cursor, hread, completeRead_withMem]

theorem execAlign_readsAlike : ReadsAlike execAlign s m := by
  have hread : alignTo (s.withMem m).view s.mode s.cursor = alignTo s.view s.mode s.cursor :=
    alignTo_agrees h h8 s.mode
  refine ReadsAlike.of_eq rfl ?_
  simp only [execAlign, withMem_mode, withMem_cursor, hread, completeRead_withMem]

end

/-! ### The extraction commands -/

section
variable (h : View.agrees (8 * s.len.toNat) (s.withMem m).view s.view)
include h

theorem execAaccfg_readsAlike (req : BitVec 3) : ReadsAlike (execAaccfg req) s m := by
  intro t ht
  unfold execAaccfg at ht ⊢
  rw [withMem_len]
  by_cases hlen : s.len.toNat < 2
  · rw [if_pos hlen] at ht ⊢
    cases ht; rfl
  · rw [if_neg hlen] at ht ⊢
    rw [aacFields_agrees h (by omega)]
    cases ht; rfl

theorem execH264sps_readsAlike : ReadsAlike execH264sps s m := by
  have hwalk := (h264Walk_same h (by omega) s.mode s.params.slLarge s.freshCursor rfl).1
  refine ReadsAlike.of_eq (execH264sps_eq s) ?_
  rw [execH264sps_eq, withMem_mode, withMem_params, withMem_freshCursor, hwalk,
    completeSession_withMem fun _ _ => rfl]

theorem execVp9key_readsAlike : ReadsAlike execVp9key s m := by
  have hwalk := (vp9Preamble_same h (by omega) s.mode s.freshCursor rfl).1
  refine ReadsAlike.of_eq (execVp9key_eq s) ?_
  rw [execVp9key_eq, withMem_mode, withMem_freshCursor, hwalk,
    completeSession_withMem fun _ _ => rfl]

theorem execVp9props_readsAlike : ReadsAlike execVp9props s m := by
  have hwalk := (vp9PropsWalk_same h (by omega) s.mode s.params.srgbFullSwing s.freshCursor rfl).1
  refine ReadsAlike.of_eq (execVp9props_eq s) ?_
  rw [execVp9props_eq, withMem_mode, withMem_params, withMem_freshCursor, hwalk,
    completeSession_withMem fun _ _ => rfl]

end

end

/-- Settles O25: the commands that read memory by their reads (`_readsAlike`), the others because they
look at no memory at all. -/
theorem commandsReadOnlyTheirBuffer : Obligations.CommandsReadOnlyTheirBuffer := by
  intro i s t m h8 hsame ht
  have hlen : 8 * s.len.toNat / 8 = s.len.toNat := by omega
  suffices hread : ReadsAlike (exec i) s m from hread t ht
  cases i with
  | nop | cinit | balign | selftest => exact ReadsAlike.of_eq rfl rfl
  | rdbits n => exact execRdbits_readsAlike (agrees_withMem hsame rfl) h8 n
  | clz => exact execClz_readsAlike (agrees_withMem hsame rfl) h8
  | ue => exact execUe_readsAlike (agrees_withMem hsame rfl) h8
  | se => exact execSe_readsAlike (agrees_withMem hsame rfl) h8
  | align => exact execAlign_readsAlike (agrees_withMem hsame rfl) h8
  | aaccfg req => exact execAaccfg_readsAlike (agrees_withMem hsame hlen) req
  | h264sps => exact execH264sps_readsAlike (agrees_withMem hsame hlen)
  | vp9key => exact execVp9key_readsAlike (agrees_withMem hsame hlen)
  | vp9props => exact execVp9props_readsAlike (agrees_withMem hsame hlen)

end Sys2Proof.Machine
end

section
/-! SUPPORT. An extraction command run again (20_memory.md R67): it starts from the same inputs, and what
it writes is already there. -/

namespace Sys2Proof.Machine

/-- The state with `r` latched, in place of what was. -/
def State.relatched (t : State) (r : Option Running) : State := { t with running := r }

/-- Everything an extraction command starts from. -/
structure State.SameInputs (s u : State) : Prop where
  view : u.view = s.view
  mode : u.mode = s.mode
  params : u.params = s.params
  len : u.len = s.len
  freshCursor : u.freshCursor = s.freshCursor

/-- No command writes CTRL or LEN, and a command on drawn bytes counts as one (20_memory.md R70). -/
theorem Completed.ctrl_len_drawEpoch {s t : State} {i : Instr} (h : Completed s i t) :
    t.ctrl = s.ctrl ∧ t.len = s.len ∧ t.drawEpoch = s.drawEpoch + s.disturbed.toNat := by
  cases h <;> exact ⟨rfl, rfl, rfl⟩

/-- On an undisturbed buffer the completion, latched the same, has the inputs of the command. -/
theorem Completed.sameInputs {s t : State} {i : Instr} (h : Completed s i t)
    (hd : s.disturbed = false) : s.SameInputs (t.relatched s.running) := by
  obtain ⟨hparams, hbase, hmem⟩ := h.frame
  obtain ⟨hctrl, hlen, hepoch⟩ := h.ctrl_len_drawEpoch
  rw [hd, Bool.toNat_false, Nat.add_zero] at hepoch
  exact
    { view := by simp only [State.view, State.relatched, hmem, hbase, hparams, hepoch]; rfl
      mode := by simp only [State.mode, State.relatched, hctrl]
      params := hparams
      len := hlen
      freshCursor := by simp only [State.freshCursor, State.relatched, hlen] }

/-- A completion that finds STATUS and the counter as it leaves them changes nothing. -/
theorem complete_relatched {s u : State} (k : Completion) (hd : s.disturbed = false) :
    complete k ((complete k u).relatched s.running) = complete k u := by
  have hd' : ((complete k u).relatched s.running).disturbed = false := hd
  rw [complete, hd']
  rfl

/-- A completion whose writes `f` are already there, latched the same, is its own completion. -/
theorem complete_rerun {f : State → State} {s : State} {k : Completion} (hd : s.disturbed = false)
    (hfix : f ((complete k (f s)).relatched s.running) = (complete k (f s)).relatched s.running) :
    complete k (f ((complete k (f s)).relatched s.running)) = complete k (f s) := by
  rw [hfix, complete_relatched k hd]

theorem completeSession_rerun {α : Type} {write : α → State → State} {s : State}
    (hd : s.disturbed = false) (hwlen : ∀ x u, (write x u).len = u.len)
    (hfix : ∀ x c k, write x (commitCursor c
        ((complete k (write x (commitCursor c s))).relatched s.running)) =
      (complete k (write x (commitCursor c s))).relatched s.running)
    (r : EStateM.Result ErrCode Cur α) :
    completeSession write r ((completeSession write r s).relatched s.running) =
      completeSession write r s := by
  by_cases hlen : s.len.toNat = 0
  · have hlen' : ((complete (failed .input) s).relatched s.running).len.toNat = 0 := hlen
    rw [completeSession_empty write r hlen, completeSession_empty write r hlen']
    exact complete_rerun (f := id) hd rfl
  · cases r with
    | error code c =>
      have hlen' : ((complete (failed code) (commitCursor c s)).relatched s.running).len.toNat ≠ 0 :=
        hlen
      rw [completeSession_error write code c hlen, completeSession_error write code c hlen']
      exact complete_rerun (f := commitCursor c) hd rfl
    | ok x c =>
      have hlen' : ((complete (succeeded false) (write x (commitCursor c s))).relatched
          s.running).len.toNat ≠ 0 := (congrArg BitVec.toNat (hwlen x (commitCursor c s))).trans_ne hlen
      rw [completeSession_ok write x c hlen, completeSession_ok write x c hlen']
      exact complete_rerun (f := fun u => write x (commitCursor c u)) hd (hfix x c _)

/-- AACCFG writes the outputs the mask names and no others, so writing them again changes nothing. -/
theorem writeAac_rerun (k : Completion) (w : Outw) (f : AacFields) (s : State) (r : Option Running) :
    writeAac w f ((complete k (writeAac w f s)).relatched r) =
      (complete k (writeAac w f s)).relatched r := by
  obtain ⟨ch, sr, spf⟩ := w
  cases ch <;> cases sr <;> cases spf <;> rfl

section
variable {s t : State}

theorem execAaccfg_rerun {req : BitVec 3} (hd : s.disturbed = false)
    (hin : s.SameInputs (t.relatched s.running)) (h : execAaccfg req s = .next t) :
    execAaccfg req (t.relatched s.running) = .next t := by
  unfold execAaccfg at h ⊢
  rw [hin.len, hin.view]
  by_cases hlen : s.len.toNat < 2
  · rw [if_pos hlen] at h ⊢
    cases h
    exact congrArg _ (complete_rerun (f := id) hd rfl)
  · rw [if_neg hlen] at h ⊢
    cases h
    exact congrArg _ (complete_rerun (f := writeAac _ _) hd (writeAac_rerun ..))

theorem execH264sps_rerun (hd : s.disturbed = false) (hin : s.SameInputs (t.relatched s.running))
    (h : execH264sps s = .next t) : execH264sps (t.relatched s.running) = .next t := by
  rw [execH264sps_eq] at h ⊢
  rw [hin.view, hin.mode, hin.params, hin.freshCursor]
  cases h
  exact congrArg _ (completeSession_rerun (write := writeH264Size) hd
    (fun _ _ => rfl) (fun _ _ _ => rfl) _)

theorem execVp9key_rerun (hd : s.disturbed = false) (hin : s.SameInputs (t.relatched s.running))
    (h : execVp9key s = .next t) : execVp9key (t.relatched s.running) = .next t := by
  rw [execVp9key_eq] at h ⊢
  rw [hin.view, hin.mode, hin.freshCursor]
  cases h
  exact congrArg _ (completeSession_rerun (write := writeVp9Key) hd
    (fun _ _ => rfl) (fun _ _ _ => rfl) _)

theorem execVp9props_rerun (hd : s.disturbed = false) (hin : s.SameInputs (t.relatched s.running))
    (h : execVp9props s = .next t) : execVp9props (t.relatched s.running) = .next t := by
  rw [execVp9props_eq] at h ⊢
  rw [hin.view, hin.mode, hin.params, hin.freshCursor]
  cases h
  exact congrArg _ (completeSession_rerun (write := writeVp9Props) hd
    (fun _ _ => rfl) (fun _ _ _ => rfl) _)

end

/-- Settles O26: the second run has the inputs of the first (`Completed.sameInputs`), and its writes are
already there. -/
theorem extractionIsRepeatable : Obligations.ExtractionIsRepeatable := by
  intro i s t hi hd ht
  have hin := (completed_of_exec ht).sameInputs hd
  cases i with
  | aaccfg req => exact execAaccfg_rerun hd hin ht
  | h264sps => exact execH264sps_rerun hd hin ht
  | vp9key => exact execVp9key_rerun hd hin ht
  | vp9props => exact execVp9props_rerun hd hin ht
  | nop | cinit | rdbits _ | clz | ue | se | balign | align | selftest => cases hi

end Sys2Proof.Machine
end

section
/-! SUPPORT. Command words as numbers (30_encoding.md R80 to R84): a word is the sum of its five
fields, and it is legal exactly when it is the word of a well-formed command, so `encode` and `decode`
invert each other. -/

namespace Sys2Proof

/-! ### The fields of a word (R80) -/

theorem opcField_toNat (w : Word) : (opcField w).toNat = w.toNat % 2 ^ 8 := by
  simp [opcField]

theorem nField_toNat (w : Word) : (nField w).toNat = w.toNat / 2 ^ 8 % 2 ^ 7 := by
  simp [nField, Nat.shiftRight_eq_div_pow]

theorem bit15Field_toNat (w : Word) : (bit15Field w).toNat = w.toNat / 2 ^ 15 % 2 := by
  simp [bit15Field, Nat.shiftRight_eq_div_pow]

theorem reqField_toNat (w : Word) : (reqField w).toNat = w.toNat / 2 ^ 16 % 2 ^ 3 := by
  simp [reqField, Nat.shiftRight_eq_div_pow]

theorem topField_toNat (w : Word) : (topField w).toNat = w.toNat / 2 ^ 19 := by
  have hw := w.isLt
  simp only [topField, BitVec.extractLsb'_toNat, Nat.shiftRight_eq_div_pow]
  omega

/-- Bit 15 and bits 31:19 are 0. -/
def ReservedClear (w : Word) : Prop := bit15Field w = 0 ∧ topField w = 0

/-- N is 0 outside RDBITS, and REQ is 0 outside AACCFG (R83 c, d). -/
def OperandsFit (w : Word) : Prop :=
  ((opcField w).toNat ≠ 0x02 → nField w = 0) ∧ ((opcField w).toNat ≠ 0x10 → reqField w = 0)

/-- A word is legal when the map has its opcode and neither a reserved bit nor a stray operand stands in
it (R83). -/
theorem decode_eq_ok_iff {w : Word} {i : Instr} : decode w = .ok i ↔
    opcodeMap (opcField w).toNat (nField w).toNat (reqField w) = some i ∧
      ReservedClear w ∧ OperandsFit w := by
  have hrdbits : opcField w = 0x02 ↔ (opcField w).toNat = 0x02 := BitVec.toNat_inj.symm
  have haaccfg : opcField w = 0x10 ↔ (opcField w).toNat = 0x10 := BitVec.toNat_inj.symm
  unfold decode ReservedClear OperandsFit
  cases opcodeMap (opcField w).toNat (nField w).toNat (reqField w) with
  | none => simp
  | some j => split_ifs <;> grind

/-! ### The fields of a command (R81, R82, R84) -/

/-- What N holds in the word of a command. -/
def Instr.nOperand : Instr → Nat
  | .rdbits n => n
  | _ => 0

/-- What REQ holds in the word of a command. -/
def Instr.reqOperand : Instr → BitVec 3
  | .aaccfg req => req
  | _ => 0

theorem Instr.nOperand_lt {i : Instr} (hi : i.WellFormed) : i.nOperand < 2 ^ 7 := by
  cases i with
  | rdbits n => exact of_decide_eq_true hi
  | _ => exact Nat.two_pow_pos 7

theorem Instr.nOperand_eq_zero {i : Instr} (h : i.opcode ≠ 0x02) : i.nOperand = 0 := by
  cases i with
  | rdbits n => exact absurd rfl h
  | _ => rfl

theorem Instr.reqOperand_eq_zero {i : Instr} (h : i.opcode ≠ 0x10) : i.reqOperand = 0 := by
  cases i with
  | aaccfg req => exact absurd rfl h
  | _ => rfl

/-- The map inverts `Instr.opcode`, and takes each operand from its field. -/
theorem opcodeMap_eq_some_iff {opc n : Nat} {req : BitVec 3} {i : Instr} :
    opcodeMap opc n req = some i ↔ opc = i.opcode ∧
      (i.opcode = 0x02 → n = i.nOperand) ∧ (i.opcode = 0x10 → req = i.reqOperand) := by
  constructor
  · unfold opcodeMap
    split <;> rintro ⟨⟩ <;> exact ⟨rfl, by simp [Instr.opcode, Instr.nOperand, Instr.reqOperand]⟩
  · rintro ⟨rfl, hn, hreq⟩
    cases i with
    | rdbits m => rw [hn rfl]; rfl
    | aaccfg r => rw [hreq rfl]; rfl
    | _ => rfl

/-- The word of a command is the sum of its fields (R80, R86). -/
theorem encode_toNat {i : Instr} (hi : i.WellFormed) :
    (encode i).toNat = i.opcode + 2 ^ 8 * i.nOperand + 2 ^ 16 * i.reqOperand.toNat := by
  cases i with
  | rdbits n =>
    have hn : n < 2 ^ 7 := Instr.nOperand_lt hi
    change (n * 2 ^ 8 + 0x02) % 2 ^ 32 = 0x02 + 2 ^ 8 * n + 2 ^ 16 * 0
    omega
  | aaccfg req =>
    have hreq := req.isLt
    change (req.toNat * 2 ^ 16 + 0x10) % 2 ^ 32 = 0x10 + 2 ^ 8 * 0 + 2 ^ 16 * req.toNat
    omega
  | _ => rfl

/-- A word is the sum of its fields (R80). -/
theorem word_toNat_eq_fields (w : Word) : w.toNat = (opcField w).toNat + 2 ^ 8 * (nField w).toNat +
    2 ^ 15 * (bit15Field w).toNat + 2 ^ 16 * (reqField w).toNat + 2 ^ 19 * (topField w).toNat := by
  simp only [opcField_toNat, nField_toNat, bit15Field_toNat, reqField_toNat, topField_toNat]
  omega

/-- The word `w` holds the fields of the command `i`, and its reserved bits are 0. -/
structure HasFields (w : Word) (i : Instr) : Prop where
  opc : (opcField w).toNat = i.opcode
  n : (nField w).toNat = i.nOperand
  bit15 : bit15Field w = 0
  req : reqField w = i.reqOperand
  top : topField w = 0

theorem HasFields.wellFormed {w : Word} {i : Instr} (h : HasFields w i) : i.WellFormed := by
  cases i with
  | rdbits n =>
    have hn : (nField w).toNat = n := h.n
    exact decide_eq_true (hn ▸ (nField w).isLt)
  | _ => rfl

theorem Instr.opcode_lt (i : Instr) : i.opcode < 2 ^ 8 := by cases i <;> simp [Instr.opcode]

/-- The word of a command is the one word that holds its fields. -/
theorem encode_eq_iff {w : Word} {i : Instr} (hi : i.WellFormed) : encode i = w ↔ HasFields w i := by
  have hopc := i.opcode_lt
  have hn := Instr.nOperand_lt hi
  have hreq := i.reqOperand.isLt
  constructor
  · intro h
    have hw := encode_toNat hi
    rw [h] at hw
    have hopcw : (opcField w).toNat = i.opcode := by rw [opcField_toNat]; omega
    have hnw : (nField w).toNat = i.nOperand := by rw [nField_toNat]; omega
    have h15 : (bit15Field w).toNat = 0 := by rw [bit15Field_toNat]; omega
    have hreqw : (reqField w).toNat = i.reqOperand.toNat := by rw [reqField_toNat]; omega
    have htop : (topField w).toNat = 0 := by rw [topField_toNat]; omega
    exact ⟨hopcw, hnw, BitVec.eq_of_toNat_eq h15, BitVec.eq_of_toNat_eq hreqw,
      BitVec.eq_of_toNat_eq htop⟩
  · intro h
    rw [← BitVec.toNat_inj, encode_toNat hi, word_toNat_eq_fields w, h.opc, h.n, h.bit15, h.req, h.top]
    simp

/-- The decoder answers the one command whose fields the word holds. -/
theorem decode_eq_ok_iff_hasFields {w : Word} {i : Instr} : decode w = .ok i ↔ HasFields w i := by
  rw [decode_eq_ok_iff, opcodeMap_eq_some_iff]
  constructor
  · rintro ⟨⟨hopc, hn, hreq⟩, ⟨h15, htop⟩, hN, hREQ⟩
    refine ⟨hopc, ?_, h15, ?_, htop⟩
    · by_cases h : i.opcode = 0x02
      · exact hn h
      · rw [hN (hopc ▸ h), Instr.nOperand_eq_zero h]; rfl
    · by_cases h : i.opcode = 0x10
      · exact hreq h
      · rw [hREQ (hopc ▸ h), Instr.reqOperand_eq_zero h]
  · rintro ⟨hopc, hn, h15, hreq, htop⟩
    refine ⟨⟨hopc, fun _ => hn, fun _ => hreq⟩, ⟨h15, htop⟩, fun h => ?_, fun h => ?_⟩
    · rw [← BitVec.toNat_inj, hn, Instr.nOperand_eq_zero (hopc ▸ h)]; rfl
    · rw [hreq, Instr.reqOperand_eq_zero (hopc ▸ h)]

/-- `decode` inverts `encode` and `encode` inverts `decode`. -/
theorem decode_eq_ok_iff_encode_eq {w : Word} {i : Instr} :
    decode w = .ok i ↔ i.WellFormed ∧ encode i = w := by
  rw [decode_eq_ok_iff_hasFields]
  exact ⟨fun h => ⟨h.wellFormed, (encode_eq_iff h.wellFormed).mpr h⟩,
    fun ⟨hi, h⟩ => (encode_eq_iff hi).mp h⟩

/-- Settles O1: the one word that holds the fields of a command decodes to it. -/
theorem decodeInvertsEncode : Obligations.DecodeInvertsEncode :=
  fun _ hi => decode_eq_ok_iff_encode_eq.mpr ⟨hi, rfl⟩

/-- Settles O2: a legal word is the sum of the fields the decoder reads. -/
theorem encodeInvertsDecode : Obligations.EncodeInvertsDecode :=
  fun _ _ => decode_eq_ok_iff_encode_eq.mp

/-- Settles O4: each word is that of its command. -/
theorem opcodeMapWords : Obligations.OpcodeMapWords := by
  refine ⟨?_, ?_, ?_, ?_, ?_, ?_, ?_, ?_⟩ <;> exact decode_eq_ok_iff_encode_eq.mpr ⟨rfl, rfl⟩

/-! ### Which words are illegal (R83) -/

/-- The map has an entry for the opcodes of R81 and no other. -/
theorem opcodeMap_eq_none_iff {opc n : Nat} {req : BitVec 3} : opcodeMap opc n req = none ↔
    opc ∉ [0, 1, 2, 3, 4, 5, 6, 7, 0x10, 0x11, 0x12, 0x13, 0x1F] := by
  unfold opcodeMap
  split
  case h_14 => simp; tauto
  all_goals simp

theorem not_reservedClear_iff {w : Word} :
    ¬ReservedClear w ↔ w.getLsbD 15 = true ∨ w.toNat / 2 ^ 19 ≠ 0 := by
  have h15 : bit15Field w = 0 ↔ w.getLsbD 15 = false := by
    simp only [← BitVec.toNat_inj, bit15Field_toNat, BitVec.getLsbD, Nat.testBit_eq_decide_div_mod_eq]
    simp
  have htop : topField w = 0 ↔ w.toNat / 2 ^ 19 = 0 := by
    rw [← BitVec.toNat_inj, topField_toNat]; rfl
  rw [ReservedClear, h15, htop, not_and_or, Bool.not_eq_false]

theorem not_operandsFit_iff {w : Word} : ¬OperandsFit w ↔
    (w.toNat % 2 ^ 8 ≠ 0x02 ∧ w.toNat / 2 ^ 8 % 2 ^ 7 ≠ 0) ∨
      (w.toNat % 2 ^ 8 ≠ 0x10 ∧ w.toNat / 2 ^ 16 % 2 ^ 3 ≠ 0) := by
  have hn : nField w = 0 ↔ w.toNat / 2 ^ 8 % 2 ^ 7 = 0 := by
    rw [← BitVec.toNat_inj, nField_toNat]; rfl
  have hreq : reqField w = 0 ↔ w.toNat / 2 ^ 16 % 2 ^ 3 = 0 := by
    rw [← BitVec.toNat_inj, reqField_toNat]; rfl
  rw [OperandsFit, opcField_toNat, hn, hreq, not_and_or, Classical.not_imp, Classical.not_imp]

theorem decode_error_iff {w : Word} : (∃ e, decode w = .error e) ↔
    opcodeMap (opcField w).toNat (nField w).toNat (reqField w) = none ∨
      ¬ReservedClear w ∨ ¬OperandsFit w := by
  have hok : (∃ e, decode w = .error e) ↔ ∀ i, decode w ≠ .ok i := by
    cases decode w <;> simp
  rw [hok]
  simp only [ne_eq, decode_eq_ok_iff]
  cases opcodeMap (opcField w).toNat (nField w).toNat (reqField w) with
  | none => simp
  | some j => simp; tauto

end Sys2Proof

namespace Sys2Proof.Machine

theorem execWord_of_decode_error {w : Word} {e : IllegalWord} (hw : decode w = .error e)
    (s : State) : execWord w s = .next (completeIllegal s) := by
  simp only [execWord, hw]

/-- Settles O3: the decoder's cases (a) to (d) on the word's number, and the completion of an illegal
word. -/
theorem illegalWordsCompleteWithIllegal : Obligations.IllegalWordsCompleteWithIllegal := by
  refine ⟨fun w => ?_, fun s r e ht hr hw => ?_⟩
  · rw [decode_error_iff, opcodeMap_eq_none_iff, not_reservedClear_iff, not_operandsFit_iff,
      opcField_toNat]
  · rw [step_of_unit_of_running ht hr, execWord_of_decode_error hw]
    rfl

end Sys2Proof.Machine
end

section
/-! SUPPORT. The words of the assembler's lines (30_encoding.md R86, R87). -/

namespace Sys2Proof

theorem encode_of_takesNoOperand {op : Instr} (h : op.takesNoOperand = true) :
    encode op = BitVec.ofNat 32 op.opcode := by
  cases op with
  | rdbits n => cases h
  | aaccfg req => cases h
  | _ => rfl

theorem assembleWord_plain {op : Instr} (h : op.takesNoOperand = true) :
    assembleWord (.plain op) = some (BitVec.ofNat 32 op.opcode) := by
  simp [assembleWord, assemble, h, encode_of_takesNoOperand h]

theorem assembleWord_rdbits {n : Numeral} (hn : n.nonempty = true) (h : n.value ≤ 127) :
    assembleWord (.rdbits n) = some (BitVec.ofNat 32 (n.value * 256 + 0x02)) := by
  have hlt : n.value < 128 := by omega
  simp [assembleWord, assemble, hn, hlt, encode]

theorem assembleWord_rdbits_of_lt {n : Numeral} (h : 127 < n.value) :
    assembleWord (.rdbits n) = none := by
  have hlt : ¬n.value < 128 := by omega
  simp [assembleWord, assemble, hlt]

/-- R87: `SKIP n` expands to `RDBITS n`. -/
theorem assembleWord_skip (n : Numeral) : assembleWord (.skip n) = assembleWord (.rdbits n) := rfl

/-! ### AACCFG's operand list -/

/-- The REQ bit of a keyword (R84, R86). -/
def AacKeyword.bit : AacKeyword → Nat
  | .ch => 0
  | .sr => 1
  | .spf => 2

/-- A keyword sets its own bit of REQ and no other. -/
theorem AacKeyword.mask_getLsbD (k j : AacKeyword) : k.mask.getLsbD j.bit = true ↔ j = k := by
  cases k <;> cases j <;> decide

/-- The mask of a list has the bits of its keywords (R86). -/
theorem aacMask_getLsbD (ks : List AacKeyword) (j : AacKeyword) :
    (aacMask ks).getLsbD j.bit = true ↔ j ∈ ks := by
  induction ks with
  | nil => simp [aacMask]
  | cons k ks ih =>
    have hcons : aacMask (k :: ks) = k.mask ||| aacMask ks := rfl
    rw [hcons, BitVec.getLsbD_or, Bool.or_eq_true, k.mask_getLsbD, ih, List.mem_cons]

/-- REQ stands at bits 18:16 over the opcode 0x10, and the other bits are those of the opcode
(R80, R86). -/
theorem encode_aaccfg_bits (req : BitVec 3) : encode (.aaccfg req) &&& 0xFFF8FFFF#32 = 0x10#32 ∧
    ∀ j : AacKeyword, (encode (.aaccfg req)).getLsbD (16 + j.bit) = req.getLsbD j.bit := by
  refine ⟨by revert req; decide, fun j => ?_⟩
  cases j <;> revert req <;> decide

theorem assembleWord_aaccfg {ks : List AacKeyword} (hne : ks ≠ []) (hks : ks.Nodup) :
    assembleWord (.aaccfg ks) = some (encode (.aaccfg (aacMask ks))) := by
  simp [assembleWord, assemble, hne, hks]

/-- Settles O5: each line by its own rule, and a keyword's bit of the word by its bit of REQ. -/
theorem assemblerLinesGiveTheirWords : Obligations.AssemblerLinesGiveTheirWords := by
  refine ⟨fun op => assembleWord_plain,
    fun n hn h => ⟨assembleWord_rdbits hn h, assembleWord_skip n⟩,
    fun n h => ⟨assembleWord_rdbits_of_lt h,
      (assembleWord_skip n).trans (assembleWord_rdbits_of_lt h)⟩,
    by decide, fun ks hne hks => ?_, rfl, by decide, by decide⟩
  obtain ⟨hopc, hreq⟩ := encode_aaccfg_bits (aacMask ks)
  have hbit : ∀ j : AacKeyword,
      (encode (.aaccfg (aacMask ks))).getLsbD (16 + j.bit) = true ↔ j ∈ ks :=
    fun j => by rw [hreq, aacMask_getLsbD]
  exact ⟨_, assembleWord_aaccfg hne hks, hopc, hbit .ch, hbit .sr, hbit .spf⟩

end Sys2Proof
end

section
/-! SUPPORT. UE and SE on a stream that holds a whole code (30_encoding.md R90 to R92, 40_cursor.md R103,
R104, R114, R115). -/

namespace Sys2Proof.Machine

/-- The completion of a read that answers a value (40_cursor.md R120): RES and POS are written, and
LENBITS, STICKY and everything else stay. -/
theorem completeRead_some (e : ErrCode) (x : DWord) (p serial : Nat) (s : State) :
    completeRead e (some x) { s.cursor with pos := p, serial := serial } s = { s.ended with
      res := x
      pos := BitVec.ofNat 64 p
      status := s.status.completed true true .none } := by
  have hlenbits : BitVec.ofNat 64 s.lenbits.toNat = s.lenbits := by simp
  simp only [completeRead, commitCursor, State.cursor, hlenbits]
  rfl

/-- Settles O39: UE answers the codeNum (`ue_ueBits`), and its completion writes RES and POS. -/
theorem ueDecodesItsCode : Obligations.UeDecodesItsCode := by
  intro s u hd h8 hu hbits hlen
  have hlegal : ueLegal u = true := decide_eq_true hu
  obtain ⟨e, he⟩ := ue_ueBits (v := s.view) (c := s.cursor) hd s.mode hlegal h8 hbits hlen
  simp only [exec, execUe, he, Option.map_some, completeRead_some]
  rfl

/-- Settles O41: SE answers the signed value (`se_seBits`), and its completion writes RES and POS. -/
theorem seDecodesItsCode : Obligations.SeDecodesItsCode := by
  intro s k hd h8 hlo hhi hbits hlen
  have hlegal : seLegal k = true := by simp [seLegal]; omega
  obtain ⟨e, he⟩ := se_seBits (v := s.view) (c := s.cursor) hd s.mode hlegal h8 hbits hlen
  simp only [exec, execSe, he, Option.map_some, completeRead_some]
  rfl

end Sys2Proof.Machine
end

section
/-! SUPPORT. The primitive commands (40_cursor.md R110 to R120): what the completion of a read makes of
the state, and what the reading functions answer where no whole code stands at POS. -/

namespace Sys2Proof.Machine

/-! ### NOP, CINIT, BALIGN and SELFTEST -/

/-- Settles O34: NOP is a completion and nothing else. -/
theorem nopOnlyCompletes : Obligations.NopOnlyCompletes :=
  ⟨decode_eq_ok_iff_encode_eq.mpr ⟨rfl, rfl⟩, fun _ => rfl⟩

/-- Settles O35: CINIT commits the fresh cursor of the buffer. -/
theorem cinitStartsASession : Obligations.CinitStartsASession :=
  ⟨decode_eq_ok_iff_encode_eq.mpr ⟨rfl, rfl⟩, fun _ => rfl⟩

/-- Settles O43: BALIGN writes RES and completes. -/
theorem balignReportsTheBitOffset : Obligations.BalignReportsTheBitOffset :=
  ⟨decode_eq_ok_iff_encode_eq.mpr ⟨rfl, rfl⟩, fun _ => rfl⟩

/-- The self-test decodes the code of 254 from its fixture, under either policy (40_cursor.md R118). -/
theorem ue_fixture (m : Mode) : (ue fixtureView m fixtureCursor).1 = some 254 := by
  cases m <;> decide

/-- Settles O45: UE over the fixture answers 254 (`ue_fixture`), and RES gets it. -/
theorem selftestGives254 : Obligations.SelftestGives254 := by
  refine ⟨decode_eq_ok_iff_encode_eq.mpr ⟨rfl, rfl⟩, fun s => ?_⟩
  simp only [exec, execSelftest, ue_fixture]
  rfl

/-! ### The completion of a read (R120) -/

/-- The completion of an absent read: RES is 0, STICKY is set, POS is written, and LENBITS and
everything else stay. -/
theorem completeRead_none (e : ErrCode) (p serial : Nat) (s : State) :
    completeRead e none { s.cursor with pos := p, serial := serial } s = { s.ended with
      res := 0
      pos := BitVec.ofNat 64 p
      status := { s.status.completed false false e with sticky := true } } := by
  have hlenbits : BitVec.ofNat 64 s.lenbits.toNat = s.lenbits := by simp
  simp only [completeRead, commitCursor, State.cursor, hlenbits, Cur.markSticky]
  rfl

/-- The completion of an absent read that leaves POS. -/
theorem completeRead_none_inPlace (e : ErrCode) (serial : Nat) (s : State) :
    completeRead e none { s.cursor with serial := serial } s = { s.ended with
      res := 0
      status := { s.status.completed false false e with sticky := true } } := by
  have hpos : BitVec.ofNat 64 s.pos.toNat = s.pos := by simp
  have h := completeRead_none e s.pos.toNat serial s
  rwa [hpos] at h

/-! ### RDBITS (R112) -/

/-- A field of the stream is the sum over its bits, which read made no difference (00_scope.md R9). -/
theorem streamField_eq_field {s : State} (hd : s.disturbed = false) (e p n : Nat) :
    streamField s.view e p n = s.field p n := by
  rw [streamField_eq_sum, State.field]
  exact Finset.sum_congr rfl fun i _ => by rw [streamBit_serial hd (e + i) 0]

theorem execRdbits_badWidth {n : Nat} (h : n < 1 ∨ 64 < n) (s : State) :
    execRdbits n s = .next (completeRead .badWidth none s.cursor s) := if_pos h

theorem execRdbits_of_width {n : Nat} (h1 : 1 ≤ n) (h64 : n ≤ 64) (s : State) :
    execRdbits n s = .next (completeRead .absent
      ((readBits s.view s.mode n s.cursor).1.map (BitVec.ofNat 64))
      (readBits s.view s.mode n s.cursor).2 s) := if_neg (by omega)

/-- A read of a legal width is absent at or past the end, and where it is short under the strict
policy. -/
theorem readBits_absent {v : View} {m : Mode} {n : Nat} {c : Cur}
    (h : c.lenbits ≤ c.pos ∨ (c.lenbits < c.pos + n ∧ m = .strict)) :
    readBits v m n c = (none, c) := by
  rcases h with hend | ⟨hshort, rfl⟩
  · exact readBits_exhausted hend v m n
  · exact readBits_short_strict hshort v

/-- Settles O36: one rule of ReadBits for each clause, and the completion of its answer. -/
theorem rdbitsReads : Obligations.RdbitsReads := by
  intro s n hn
  refine ⟨decode_eq_ok_iff_encode_eq.mpr ⟨decide_eq_true hn, rfl⟩, fun hbad => ?_,
    fun h1 h64 habs => ?_, fun hd h1 h64 hfull => ?_, fun hd h64 hleft hshort hm => ?_⟩
  · exact (execRdbits_badWidth hbad s).trans (congrArg _ (completeRead_none_inPlace _ 0 s))
  · have hread : readBits s.view s.mode n s.cursor = (none, s.cursor) := readBits_absent habs
    refine (execRdbits_of_width h1 h64 s).trans (congrArg _ ?_)
    rw [hread]
    exact completeRead_none_inPlace _ 0 s
  · have hread := readBits_full (c := s.cursor) h1 h64 hfull s.view s.mode
    refine (execRdbits_of_width h1 h64 s).trans (congrArg _ ?_)
    rw [hread, streamField_eq_field hd]
    exact completeRead_some _ _ _ _ s
  · have hread := readBits_short_lenient (c := s.cursor) h64 hleft hshort s.view
    refine (execRdbits_of_width (by omega) h64 s).trans (congrArg _ ?_)
    rw [hm, hread, streamField_eq_field hd]
    exact completeRead_some _ _ _ _ s

/-! ### CLZ (R113) -/

/-- Settles O38: the count is that of `clz_spec`, and CLZ writes it to RES. -/
theorem clzCountsZeroBits : Obligations.ClzCountsZeroBits := by
  refine ⟨decode_eq_ok_iff_encode_eq.mpr ⟨rfl, rfl⟩, fun s hd h8 => ?_⟩
  obtain ⟨hzeros, hone⟩ := clz_spec (v := s.view) (c := s.cursor) hd h8
  have hle : (clz s.view s.cursor).1 ≤ s.lenbits.toNat - s.pos.toNat := clz_le (c := s.cursor) s.view h8
  exact ⟨(clz s.view s.cursor).1, rfl, fun hend => by omega,
    fun hlt => ⟨by omega, hzeros, hone⟩⟩

/-! ### ALIGN (R117) -/

/-- On a byte boundary Align skips nothing. -/
theorem alignTo_of_aligned {c : Cur} (h : c.pos % 8 = 0) (v : View) (m : Mode) :
    alignTo v m c = (some 0, c) := if_pos h

/-- Off a boundary and in front of the end, Align skips to the boundary. -/
theorem alignTo_skips {c : Cur} (h8 : c.lenbits % 8 = 0) (h : c.pos % 8 ≠ 0)
    (hle : c.pos ≤ c.lenbits) (v : View) (m : Mode) : alignTo v m c = (some (8 - c.pos % 8),
      { c with pos := c.pos + (8 - c.pos % 8), serial := c.serial + (8 - c.pos % 8) }) := by
  have hread := readBits_full (n := 8 - c.pos % 8) (c := c) (by omega) (by omega) (by omega) v m
  unfold alignTo
  simp only [h, if_false, hread]

/-- Off a boundary and at or past the end, Align is absent. -/
theorem alignTo_absent {c : Cur} (h : c.pos % 8 ≠ 0) (hend : c.lenbits ≤ c.pos) (v : View)
    (m : Mode) : alignTo v m c = (none, c) := by
  have hread := readBits_exhausted hend v m (8 - c.pos % 8)
  unfold alignTo
  simp only [h, if_false, hread]

/-- Settles O44: the three cases of Align. -/
theorem alignSkipsToTheBoundary : Obligations.AlignSkipsToTheBoundary := by
  refine ⟨decode_eq_ok_iff_encode_eq.mpr ⟨rfl, rfl⟩, fun s h8 => ⟨fun h => ?_, fun hoff hend => ?_⟩⟩
  · by_cases hon : s.pos.toNat % 8 = 0
    · have hread := alignTo_of_aligned (c := s.cursor) hon s.view s.mode
      refine ⟨0, by omega, by omega, ?_⟩
      simp only [exec, execAlign, hread, Option.map_some]
      exact congrArg _ (completeRead_some _ _ s.pos.toNat 0 s)
    · have hread := alignTo_skips (c := s.cursor) h8 hon (by simp only [State.cursor]; omega)
        s.view s.mode
      refine ⟨8 - s.pos.toNat % 8, by omega, by omega, ?_⟩
      simp only [exec, execAlign, hread, Option.map_some]
      exact congrArg _ (completeRead_some _ _ _ _ s)
  · have hread := alignTo_absent (c := s.cursor) hoff (Nat.le_of_lt hend) s.view s.mode
    simp only [exec, execAlign, hread, Option.map_none]
    exact congrArg _ (completeRead_none_inPlace _ 0 s)

/-! ### UE and SE (R114, R115) -/

/-- Settles O37: UE reads nothing at or past the end (`ue_exhausted`), and SE is UE. -/
theorem exhaustedCodesAreAbsent : Obligations.ExhaustedCodesAreAbsent := by
  intro s i hend hi
  have hue := ue_exhausted (c := s.cursor) hend s.view s.mode
  rcases hi with rfl | rfl
  · simp only [exec, execUe, hue, Option.map_none]
    exact congrArg _ (completeRead_none_inPlace _ 0 s)
  · simp only [exec, execSe, se, hue, Option.map_none]
    exact congrArg _ (completeRead_none_inPlace _ 0 s)

/-- Behind the zeros, UE's cursor is the one it started from but for POS. -/
theorem clz_moveTo (v : View) (c : Cur) (p : Nat) :
    (clz v c).2.moveTo p = { c with pos := p, serial := (clz v c).2.serial } := by
  obtain ⟨-, hlen, hsticky⟩ := clz_cursor v c
  simp only [Cur.moveTo, hlen, hsticky]

/-- UE where the read behind the `z` zeros is absent (R103). -/
theorem ue_of_readBits_none {v : View} {m : Mode} {c : Cur} {z : Nat} (hz : (clz v c).1 = z)
    (hr : readBits v m (z + 1) { c with pos := c.pos + z, serial := (clz v c).2.serial } =
      (none, { c with pos := c.pos + z, serial := (clz v c).2.serial })) :
    ue v m c = (none, { c with
      pos := if m = .strict then c.pos else c.pos + z, serial := (clz v c).2.serial }) := by
  simp only [ue, hz, clz_moveTo, hr]
  cases m <;> rfl

/-- UE where the read behind the `z` zeros answers `x` (R103). -/
theorem ue_of_readBits_some {v : View} {m : Mode} {c c' : Cur} {z x : Nat} (hz : (clz v c).1 = z)
    (hr : readBits v m (z + 1) { c with pos := c.pos + z, serial := (clz v c).2.serial } =
      (some x, c')) : ue v m c = (some (x - 1), c') := by
  have hx : (if 0 < x then x - 1 else 0) = x - 1 := by split <;> omega
  simp only [ue, hz, clz_moveTo, hr, hx]

/-- Settles O40: CLZ counts the `z` zeros (`clz_eq`), and the read behind them is of a bad width, at the
end, or short. -/
theorem ueWithoutAWholeCode : Obligations.UeWithoutAWholeCode := by
  intro s z hd h8 hzeros
  have hclz (hle : s.pos.toNat + z ≤ s.lenbits.toNat) (hone : s.pos.toNat + z < s.lenbits.toNat →
      streamBit s.view 0 (s.pos.toNat + z) = 1) : (clz s.view s.cursor).1 = z :=
    clz_eq (c := s.cursor) hd h8 hzeros hle hone
  refine ⟨fun hnone => ?_, fun hlt hone hz64 hcut => ⟨fun hm => ?_, fun hm => ?_⟩⟩
  · have hz := hclz (by omega) (by omega)
    have hread := readBits_cases s.view s.mode (z + 1)
      { s.cursor with pos := s.pos.toNat + z, serial := (clz s.view s.cursor).2.serial }
    rcases hread with ⟨hread, -⟩ | ⟨-, h64, hlen, -⟩ | ⟨-, h64, hlen, -⟩
    · simp only [exec, execUe, ue_of_readBits_none hz hread, Option.map_none, completeRead_none]
      by_cases hm : s.mode = .strict <;> simp [hm, State.cursor]
    · simp only [State.cursor] at hlen; omega
    · simp only [State.cursor] at hlen; omega
  · have hz := hclz (by omega) fun _ => hone
    have hread := readBits_short_strict (n := z + 1)
      (c := { s.cursor with pos := s.pos.toNat + z, serial := (clz s.view s.cursor).2.serial })
      (by simp only [State.cursor]; omega) s.view
    rw [← hm] at hread
    have hue := ue_of_readBits_none hz hread
    rw [if_pos hm] at hue
    simp only [exec, execUe, hue, Option.map_none]
    exact congrArg _ (completeRead_none_inPlace _ _ s)
  · have hz := hclz (by omega) fun _ => hone
    have hread := readBits_short_lenient (n := z + 1)
      (c := { s.cursor with pos := s.pos.toNat + z, serial := (clz s.view s.cursor).2.serial })
      (by omega) hlt (by simp only [State.cursor]; omega) s.view
    rw [← hm] at hread
    simp only [exec, execUe, ue_of_readBits_some hz hread, Option.map_some, completeRead_some,
      streamField_eq_field hd]
    rw [show s.pos.toNat + z + (z + 1) = s.pos.toNat + (2 * z + 1) by omega]
    rfl

/-- A value that ReadBits answers fits 64 bits, the widest read there is (R101). -/
theorem readBits_lt {v : View} {m : Mode} {n x : Nat} {c c' : Cur}
    (h : readBits v m n c = (some x, c')) : x < 2 ^ 64 := by
  have hlt : x < 2 ^ n := (readBits_bounds v m n c).1 x (by rw [h])
  have h64 : n ≤ 64 := by
    rcases readBits_cases v m n c with ⟨hr, -⟩ | ⟨-, h64, -, -⟩ | ⟨-, h64, -, -, -, -⟩
    · rw [h] at hr; cases hr
    · exact h64
    · exact h64
  exact hlt.trans_le (Nat.pow_le_pow_right (by omega) h64)

/-- A codeNum fits RES (R103). -/
theorem ue_lt {v : View} {m : Mode} {c c' : Cur} {u : Nat} (h : ue v m c = (some u, c')) :
    u < 2 ^ 64 := by
  rcases hr : readBits v m ((clz v c).1 + 1)
    { c with pos := c.pos + (clz v c).1, serial := (clz v c).2.serial } with ⟨_ | x, c1⟩
  · simp only [ue, clz_moveTo, hr] at h
    cases m <;> cases h
  · rw [ue_of_readBits_some rfl hr] at h
    cases h
    exact lt_of_le_of_lt (Nat.sub_le x 1) (readBits_lt hr)

/-- Settles O42: SE maps UE's answer by `seValue`, so their completions differ in RES alone. -/
theorem seFollowsUe : Obligations.SeFollowsUe := by
  intro s t h
  rcases hue : ue s.view s.mode s.cursor with ⟨_ | u, c⟩
  · simp only [exec, execUe, hue, Option.map_none] at h
    cases h
    refine ⟨fun _ => ?_, fun hv => absurd hv Bool.false_ne_true,
      fun hv => absurd hv Bool.false_ne_true⟩
    simp only [exec, execSe, se, hue, Option.map_none]
  · simp only [exec, execUe, hue, Option.map_some] at h
    cases h
    have hres : (BitVec.ofNat 64 u).toNat = u := Nat.mod_eq_of_lt (ue_lt hue)
    simp only [exec, execSe, se, hue, Option.map_some, completeRead, complete_res, hres]
    refine ⟨fun hv => absurd hv.symm Bool.false_ne_true, fun _ heven => ?_, fun _ hodd => ?_⟩
    · rw [seValue, if_pos heven]
      rfl
    · rw [seValue, if_neg (by omega), BitVec.ofInt_natCast]
      rfl

end Sys2Proof.Machine
end

section
/-! SUPPORT. The strict policy beside the lenient one (40_cursor.md R101, R106, R120): a strict success is
a lenient success, walk by walk, and no strict read passes the end. -/

namespace Sys2Proof.Machine

/-! ### A strict success is a lenient success: the walks -/

/-- A conditional part followed by the rest of the walk, in the shape `do` gives it. -/
theorem StrictLeads.when {β : Type} {p : Prop} [Decidable p] {w : Mode → Walk Unit}
    {rest : Mode → Unit → Walk β} (hw : Walk.StrictLeads w)
    (hrest : ∀ u, Walk.StrictLeads fun m => rest m u) :
    Walk.StrictLeads fun m => if p then w m >>= rest m else rest m () :=
  StrictLeads.ite (StrictLeads.bind hw hrest) (hrest ())

/-- A read that is made under a condition, followed by the rest of the walk. -/
theorem StrictLeads.whenRead {α β : Type} {p : Prop} [Decidable p] {w : Mode → Walk α}
    {rest : Mode → Walk β} (hw : Walk.StrictLeads w) (hrest : Walk.StrictLeads rest) :
    Walk.StrictLeads fun m => if p then w m >>= fun _ => rest m else rest m :=
  StrictLeads.ite (StrictLeads.bind (f := fun m _ => rest m) hw fun _ => hrest) hrest

section
variable (v : View)

theorem stageHeader_strictLeads : Walk.StrictLeads fun m => stageHeader v m :=
  StrictLeads.bind (rd_strictLeads v 8) fun _ => StrictLeads.bind (rd_strictLeads v 8) fun p =>
  StrictLeads.bind (rd_strictLeads v 16) fun _ => StrictLeads.bind (rdUe_strictLeads v) fun _ =>
  StrictLeads.pure p

theorem scalingListsFrom_strictLeads (slLarge i left : Nat) :
    Walk.StrictLeads fun m => scalingListsFrom v m slLarge i left := by
  induction left generalizing i with
  | zero => exact StrictLeads.pure ()
  | succ left ih =>
    exact StrictLeads.bind (rd_strictLeads v 1) fun _ =>
      StrictLeads.when (repeatSe_strictLeads v _) fun _ => ih (i + 1)

theorem stageHighProfile_strictLeads (slLarge profile : Nat) :
    Walk.StrictLeads fun m => stageHighProfile v m slLarge profile :=
  StrictLeads.ite
    (StrictLeads.bind (rdUe_strictLeads v) fun _ => StrictLeads.whenRead (rd_strictLeads v 1) <|
      StrictLeads.bind (rdUe_strictLeads v) fun _ => StrictLeads.bind (rdUe_strictLeads v) fun _ =>
      StrictLeads.bind (rd_strictLeads v 1) fun _ => StrictLeads.bind (rd_strictLeads v 1) fun _ =>
      StrictLeads.ite (scalingListsFrom_strictLeads v _ _ _) (StrictLeads.pure ()))
    (StrictLeads.pure ())

theorem stagePoc_strictLeads : Walk.StrictLeads fun m => stagePoc v m :=
  StrictLeads.bind (rdUe_strictLeads v) fun _ => StrictLeads.bind (rdUe_strictLeads v) fun _ =>
  StrictLeads.ite
    (StrictLeads.bind (rdUe_strictLeads v) fun _ => StrictLeads.pure ())
    (StrictLeads.ite
      (StrictLeads.bind (rd_strictLeads v 1) fun _ => StrictLeads.bind (rdSe_strictLeads v) fun _ =>
        StrictLeads.bind (rdSe_strictLeads v) fun _ => StrictLeads.bind (rdUe_strictLeads v) fun n =>
        repeatSe_strictLeads v n)
      (StrictLeads.pure ()))

theorem stageGeometry_strictLeads : Walk.StrictLeads fun m => stageGeometry v m :=
  StrictLeads.bind (rdUe_strictLeads v) fun _ => StrictLeads.bind (rd_strictLeads v 1) fun _ =>
  StrictLeads.bind (rdUe_strictLeads v) fun _ => StrictLeads.bind (rdUe_strictLeads v) fun _ =>
  StrictLeads.bind (rd_strictLeads v 1) fun _ => StrictLeads.whenRead (rd_strictLeads v 1) <|
  StrictLeads.bind (rd_strictLeads v 1) fun _ => StrictLeads.bind (rd_strictLeads v 1) fun _ =>
  StrictLeads.ite
    (StrictLeads.bind (rdUe_strictLeads v) fun _ => StrictLeads.bind (rdUe_strictLeads v) fun _ =>
      StrictLeads.bind (rdUe_strictLeads v) fun _ => StrictLeads.bind (rdUe_strictLeads v) fun _ =>
      StrictLeads.pure _)
    (StrictLeads.pure _)

/-- The lenient policy has no range check (42_h264_sps.md R167). -/
theorem checkRange_strictLeads (g : Geometry) : Walk.StrictLeads fun m => checkRange m g := by
  intro c x c' hs h
  simp only [checkRange] at h
  split at h
  · cases h; exact ⟨rfl, hs⟩
  · cases h

theorem h264Walk_strictLeads (slLarge : Nat) : Walk.StrictLeads fun m => h264Walk v m slLarge :=
  StrictLeads.bind (stageHeader_strictLeads v) fun _ =>
  StrictLeads.bind (stageHighProfile_strictLeads v _ _) fun _ =>
  StrictLeads.bind (stagePoc_strictLeads v) fun _ =>
  StrictLeads.bind (stageGeometry_strictLeads v) fun g =>
  StrictLeads.bind (checkRange_strictLeads g) fun _ => StrictLeads.pure g

theorem vp9Preamble_strictLeads : Walk.StrictLeads fun m => vp9Preamble v m :=
  StrictLeads.bind (rd_strictLeads v 2) fun _ => StrictLeads.when (StrictLeads.fail .marker) fun _ =>
  StrictLeads.bind (rd_strictLeads v 1) fun _ => StrictLeads.bind (rd_strictLeads v 1) fun _ =>
  StrictLeads.whenRead (rd_strictLeads v 1) <|
  StrictLeads.bind (rd_strictLeads v 1) fun _ =>
  StrictLeads.when (StrictLeads.fail .showExisting) fun _ =>
  StrictLeads.bind (rd_strictLeads v 1) fun _ => StrictLeads.pure _

theorem stageKeyframeSync_strictLeads (ft : Nat) :
    Walk.StrictLeads fun m => stageKeyframeSync v m ft := by
  unfold stageKeyframeSync
  exact StrictLeads.when (StrictLeads.fail .notKeyframe) fun _ =>
    StrictLeads.bind (rd_strictLeads v 1) fun _ => StrictLeads.bind (rd_strictLeads v 1) fun _ =>
    StrictLeads.bind (rd_strictLeads v 24) fun _ =>
    StrictLeads.ite (StrictLeads.fail .sync) (StrictLeads.pure ())

theorem stageBitdepth_strictLeads (profile : Nat) :
    Walk.StrictLeads fun m => stageBitdepth v m profile :=
  StrictLeads.ite (StrictLeads.bind (rd_strictLeads v 1) fun _ => StrictLeads.pure _)
    (StrictLeads.pure _)

theorem stageColor_strictLeads (srgbFullSwing : Bool) (profile cs : Nat) :
    Walk.StrictLeads fun m => stageColor v m srgbFullSwing profile cs :=
  StrictLeads.ite
    (StrictLeads.bind (rd_strictLeads v 1) fun _ => StrictLeads.ite
      (StrictLeads.bind (rd_strictLeads v 1) fun _ => StrictLeads.bind (rd_strictLeads v 1) fun _ =>
        StrictLeads.bind (rd_strictLeads v 1) fun _ => StrictLeads.pure _)
      (StrictLeads.pure _))
    (StrictLeads.bind (rd_strictLeads v 1) fun _ => StrictLeads.when (StrictLeads.fail .color)
      fun _ => StrictLeads.pure _)

theorem stageSize_strictLeads : Walk.StrictLeads fun m => stageSize v m :=
  StrictLeads.bind (rd_strictLeads v 16) fun _ => StrictLeads.bind (rd_strictLeads v 16) fun _ =>
  StrictLeads.bind (rd_strictLeads v 1) fun _ => StrictLeads.ite
    (StrictLeads.bind (rd_strictLeads v 16) fun _ => StrictLeads.bind (rd_strictLeads v 16) fun _ =>
      StrictLeads.pure _)
    (StrictLeads.pure _)

theorem vp9PropsWalk_strictLeads (srgbFullSwing : Bool) :
    Walk.StrictLeads fun m => vp9PropsWalk v m srgbFullSwing :=
  StrictLeads.bind (vp9Preamble_strictLeads v) fun (_, ft) =>
  StrictLeads.bind (stageKeyframeSync_strictLeads v ft) fun _ =>
  StrictLeads.bind (stageBitdepth_strictLeads v _) fun _ => StrictLeads.bind (rd_strictLeads v 3) fun _ =>
  StrictLeads.bind (stageColor_strictLeads v _ _ _) fun _ => StrictLeads.bind (rdAlign_strictLeads v) fun _ =>
  StrictLeads.bind (stageSize_strictLeads v) fun _ => StrictLeads.pure _

end

/-! ### A strict success is a lenient success: the commands -/

/-- A command latched under the strict policy that completes with OK = 1 completes alike under the
lenient one. -/
def StrictLeadsExec (f : State → Host.Outcome State Fault Refusal) (s : State) (w : Word) : Prop :=
  ∀ t, f (s.latched w .strict) = .next t → t.status.ok = true → f (s.latched w .lenient) = .next t

/-- A command that is one read, which answers alike where it answers under the strict policy. The mode is
over with the command. -/
theorem StrictLeadsExec.read {α : Type} {f : State → Host.Outcome State Fault Refusal}
    {read : Mode → Option α × Cur} {g : α → DWord} {s : State} {w : Word}
    (hf : ∀ m, f (s.latched w m) =
      .next (completeRead .absent ((read m).1.map g) (read m).2 (s.latched w m)))
    (hread : ∀ x c, read .strict = (some x, c) → read .lenient = (some x, c)) :
    StrictLeadsExec f s w := by
  intro t ht hok
  rw [hf] at ht ⊢
  cases ht
  rcases hr : read .strict with ⟨_ | x, c⟩
  · rw [hr] at hok; cases hok
  · rw [hread x c hr]; rfl

/-- A command that walks a session of its own. -/
theorem StrictLeadsExec.session {α : Type} {f : State → Host.Outcome State Fault Refusal}
    {walk : Mode → Walk α} {write : α → State → State} {s : State} {w : Word}
    (hf : ∀ m, f (s.latched w m) =
      .next (completeSession write (walk m s.freshCursor) (s.latched w m)))
    (hwalk : Walk.StrictLeads walk)
    (hwrite : ∀ x c, complete (succeeded false) (write x (commitCursor c (s.latched w .lenient))) =
      complete (succeeded false) (write x (commitCursor c (s.latched w .strict)))) :
    StrictLeadsExec f s w := by
  intro t ht hok
  rw [hf] at ht ⊢
  cases ht
  by_cases hlen : s.len.toNat = 0
  · rw [completeSession_empty _ _ (s := s.latched w .strict) hlen] at hok
    cases hok
  · cases hr : walk .strict s.freshCursor with
    | error e c =>
      rw [hr, completeSession_error _ _ _ (s := s.latched w .strict) hlen] at hok
      cases hok
    | ok x c =>
      rw [(hwalk s.freshCursor x c rfl hr).1,
        completeSession_ok _ _ _ (s := s.latched w .lenient) hlen,
        completeSession_ok _ _ _ (s := s.latched w .strict) hlen, hwrite]

theorem execRdbits_strictLeads (n : Nat) (s : State) (w : Word) :
    StrictLeadsExec (execRdbits n) s w := by
  by_cases hn : n < 1 ∨ 64 < n
  · intro t ht hok
    rw [execRdbits_badWidth hn] at ht
    cases ht; cases hok
  · exact .read (read := fun m => readBits (s.latched w m).view m n s.cursor)
      (fun m => execRdbits_of_width (by omega) (by omega) (s.latched w m))
      fun _ _ h => (readBits_strict_lenient h).1

theorem execSelftest_strictLeads (s : State) (w : Word) : StrictLeadsExec execSelftest s w := by
  intro t ht _
  simp only [execSelftest, ue_fixture] at ht ⊢
  exact ht

/-- Settles O27: the commands with a policy by their reads and walks (`StrictLeadsExec.read`,
`StrictLeadsExec.session`); the others do not look at it. -/
theorem strictSuccessIsLenientSuccess : Obligations.StrictSuccessIsLenientSuccess := by
  intro i s t w ht hok
  suffices h : StrictLeadsExec (exec i) s w from h t ht hok
  cases i with
  | nop | cinit | clz | balign | aaccfg => exact fun _ h _ => h
  | rdbits n => exact execRdbits_strictLeads n s w
  | ue =>
    exact .read (read := fun m => ue (s.latched w m).view m s.cursor) (fun _ => rfl)
      fun _ _ h => (ue_strict_lenient h).1
  | se =>
    exact .read (read := fun m => se (s.latched w m).view m s.cursor) (fun _ => rfl)
      fun _ _ h => (se_strict_lenient h).1
  | align =>
    exact .read (read := fun m => alignTo (s.latched w m).view m s.cursor) (fun _ => rfl)
      fun _ _ h => (alignTo_strict_lenient h).1
  | h264sps =>
    exact .session (fun m => execH264sps_eq (s.latched w m))
      (h264Walk_strictLeads (s.latched w .strict).view s.params.slLarge) fun _ _ => rfl
  | vp9key =>
    exact .session (fun m => execVp9key_eq (s.latched w m))
      (vp9Preamble_strictLeads (s.latched w .strict).view) fun _ _ => rfl
  | vp9props =>
    exact .session (fun m => execVp9props_eq (s.latched w m))
      (vp9PropsWalk_strictLeads (s.latched w .strict).view s.params.srgbFullSwing) fun _ _ => rfl
  | selftest => exact execSelftest_strictLeads s w

/-! ### No strict read passes the end (R120) -/

/-- A cursor that has not passed the end stays so, and LENBITS stays. -/
def Cur.StaysInside (c c' : Cur) : Prop :=
  c'.lenbits = c.lenbits ∧ (c.lenbits % 8 = 0 → c.pos ≤ c.lenbits → c'.pos ≤ c.lenbits)

theorem Cur.StaysInside.refl (c : Cur) : c.StaysInside c := ⟨rfl, fun _ => id⟩

theorem Cur.StaysInside.trans (a b c : Cur) (hab : a.StaysInside b) (hbc : b.StaysInside c) :
    a.StaysInside c := by
  obtain ⟨hlen, hpos⟩ := hab
  obtain ⟨hlen', hpos'⟩ := hbc
  rw [hlen] at hlen' hpos'
  exact ⟨hlen', fun h8 h => hpos' h8 (hpos h8 h)⟩

theorem Cur.StaysInside.sticky (c c' : Cur) (h : c.StaysInside c') : c.StaysInside c'.markSticky := h

theorem readBits_strict_inside (v : View) (n : Nat) (c : Cur) :
    c.StaysInside (readBits v .strict n c).2 := by
  rcases readBits_cases v .strict n c with ⟨hr, -⟩ | ⟨-, -, hfull, hr⟩ | ⟨-, -, -, -, hm, -⟩
  · rw [hr]; exact Cur.StaysInside.refl c
  · rw [hr]; exact ⟨rfl, fun _ _ => hfull⟩
  · cases hm

/-- UE moves to the end of its zeros, which is no further than LENBITS, and reads from there (R102). -/
theorem ue_strict_inside (v : View) (c : Cur) : c.StaysInside (ue v .strict c).2 := by
  obtain ⟨hlen, hpos⟩ := readBits_strict_inside v ((clz v c).1 + 1)
    { c with pos := c.pos + (clz v c).1, serial := (clz v c).2.serial }
  rcases hr : readBits v .strict ((clz v c).1 + 1)
    { c with pos := c.pos + (clz v c).1, serial := (clz v c).2.serial } with ⟨_ | x, c'⟩
  · rw [hr] at hlen
    simp only [ue, clz_moveTo, hr]
    exact ⟨hlen, fun _ h => h⟩
  · rw [hr] at hlen hpos
    rw [ue_of_readBits_some rfl hr]
    refine ⟨hlen, fun h8 h => hpos h8 ?_⟩
    have hzeros := clz_le v h8
    simp only
    omega

theorem se_strict_inside (v : View) (c : Cur) : c.StaysInside (se v .strict c).2 := by
  have h := ue_strict_inside v c
  rcases hue : ue v .strict c with ⟨_ | u, c'⟩ <;> rw [hue] at h <;> simp only [se, hue] <;> exact h

theorem alignTo_strict_inside (v : View) (c : Cur) : c.StaysInside (alignTo v .strict c).2 := by
  have h := readBits_strict_inside v (8 - c.pos % 8) c
  by_cases hon : c.pos % 8 = 0
  · rw [alignTo_of_aligned hon]; exact Cur.StaysInside.refl c
  · rcases hr : readBits v .strict (8 - c.pos % 8) c with ⟨_ | x, c'⟩ <;> rw [hr] at h <;>
      simp only [alignTo, hon, hr, if_false] <;> exact h

/-- Every strict element read stays inside, so every strict walk does. -/
theorem readRel_staysInside (v : View) : Walk.ReadRel v .strict Cur.StaysInside where
  refl := Cur.StaysInside.refl
  trans := Cur.StaysInside.trans
  rd n := Moves.elem (readBits_strict_inside v n) Cur.StaysInside.sticky
  ue := Moves.elem (ue_strict_inside v) Cur.StaysInside.sticky
  se := Moves.elem (se_strict_inside v) Cur.StaysInside.sticky
  align := Moves.elem (alignTo_strict_inside v) Cur.StaysInside.sticky

/-- A cursor inside a session of at most 2^64 - 1 bits, as the registers POS and LENBITS hold it. -/
theorem inside_of_registers {c c' : Cur} {t : State} (h : c.StaysInside c') (h8 : c.lenbits % 8 = 0)
    (hle : c.pos ≤ c.lenbits) (h64 : c.lenbits < 2 ^ 64) (hpos : t.pos = BitVec.ofNat 64 c'.pos)
    (hlen : t.lenbits = BitVec.ofNat 64 c'.lenbits) : t.pos.toNat ≤ t.lenbits.toNat := by
  obtain ⟨hlen', hpos'⟩ := h
  have hin := hpos' h8 hle
  rw [hpos, hlen, hlen', BitVec.toNat_ofNat, BitVec.toNat_ofNat, Nat.mod_eq_of_lt h64,
    Nat.mod_eq_of_lt (by omega)]
  exact hin

/-- The completion of a read leaves the cursor it was given. -/
theorem completeRead_registers (e : ErrCode) (r : Option DWord) (c : Cur) (s : State) :
    (completeRead e r c s).pos = BitVec.ofNat 64 c.pos ∧
      (completeRead e r c s).lenbits = BitVec.ofNat 64 c.lenbits := by
  cases r <;> exact ⟨rfl, rfl⟩

/-- A strict read inside its session completes inside it. -/
theorem completeRead_inside {s : State} (h8 : s.lenbits.toNat % 8 = 0)
    (hle : s.pos.toNat ≤ s.lenbits.toNat) {c : Cur} (hc : s.cursor.StaysInside c) (e : ErrCode)
    (r : Option DWord) :
    (completeRead e r c s).pos.toNat ≤ (completeRead e r c s).lenbits.toNat := by
  obtain ⟨hpos, hlen⟩ := completeRead_registers e r c s
  exact inside_of_registers hc h8 hle s.lenbits.isLt hpos hlen

/-- A session that is walked inside its bits completes inside them; one that does not start leaves the
cursor. -/
theorem completeSession_inside {α : Type} {walk : Walk α} (hwalk : Walk.Moves Cur.StaysInside walk)
    {write : α → State → State} {s : State}
    (hwrite : ∀ x u, (write x u).pos = u.pos ∧ (write x u).lenbits = u.lenbits)
    (hle : s.pos.toNat ≤ s.lenbits.toNat) :
    (completeSession write (walk s.freshCursor) s).pos.toNat ≤
      (completeSession write (walk s.freshCursor) s).lenbits.toNat := by
  have h8 : s.freshCursor.lenbits % 8 = 0 := Nat.mul_mod_right 8 _
  have h64 : s.freshCursor.lenbits < 2 ^ 64 := by
    have hword := s.len.isLt
    simp only [State.freshCursor]
    omega
  by_cases hempty : s.len.toNat = 0
  · rw [completeSession_empty _ _ hempty]; exact hle
  · cases hr : walk s.freshCursor with
    | error e c =>
      rw [completeSession_error _ _ _ hempty]
      exact inside_of_registers ((hwalk _).2 e c hr) h8 (Nat.zero_le _) h64 rfl rfl
    | ok x c =>
      rw [completeSession_ok _ _ _ hempty]
      obtain ⟨hpos, hlen⟩ := hwrite x (commitCursor c s)
      exact inside_of_registers ((hwalk _).1 x c hr) h8 (Nat.zero_le _) h64 hpos hlen

/-- Settles O28: a command that moves the cursor does so by strict reads, each of which stays inside
(`readRel_staysInside`); the others leave POS and LENBITS. -/
theorem strictNeverOvershoots : Obligations.StrictNeverOvershoots := by
  intro i s t hm h8 hle ht
  have hrel := readRel_staysInside s.view
  cases i with
  | nop | clz | balign | aaccfg | selftest =>
    obtain ⟨hpos, hlen, -⟩ := (completed_of_exec ht).keeps_cursor rfl
    rw [hpos, hlen]; exact hle
  | cinit => cases ht; exact Nat.zero_le _
  | rdbits n =>
    by_cases hn : n < 1 ∨ 64 < n
    · cases (execRdbits_badWidth hn s).symm.trans ht
      exact completeRead_inside h8 hle (Cur.StaysInside.refl _) _ _
    · cases (execRdbits_of_width (by omega) (by omega) s).symm.trans ht
      rw [hm]
      exact completeRead_inside h8 hle (readBits_strict_inside ..) _ _
  | ue => cases ht; rw [hm]; exact completeRead_inside h8 hle (ue_strict_inside ..) _ _
  | se => cases ht; rw [hm]; exact completeRead_inside h8 hle (se_strict_inside ..) _ _
  | align => cases ht; rw [hm]; exact completeRead_inside h8 hle (alignTo_strict_inside ..) _ _
  | h264sps =>
    cases (execH264sps_eq s).symm.trans ht
    rw [hm]
    exact completeSession_inside (h264Walk_moves hrel _) (fun _ _ => ⟨rfl, rfl⟩) hle
  | vp9key =>
    cases (execVp9key_eq s).symm.trans ht
    rw [hm]
    exact completeSession_inside (vp9Preamble_moves hrel) (fun _ _ => ⟨rfl, rfl⟩) hle
  | vp9props =>
    cases (execVp9props_eq s).symm.trans ht
    rw [hm]
    exact completeSession_inside (vp9PropsWalk_moves hrel _) (fun _ _ => ⟨rfl, rfl⟩) hle

end Sys2Proof.Machine
end

section
/-! SUPPORT. Walks on a list of elements, whole or cut, under both policies at once (40_cursor.md R101,
R103, R106): `Walk.Parses` for what a walk reads and where its strict form stops, `Walk.ParsesOn` for one
whose lenient form goes on behind a cut. -/

namespace Sys2Proof.Machine

/-! ### Whole lists, and the strict policy on cut ones -/

/-- Where the buffer holds the elements `es` the walk answers `x`, under either policy; where it ends
inside them the strict policy stops in front of the first one that is not whole. -/
structure Walk.Parses {α : Type} (v : View) (len : Nat) (w : Mode → Walk α) (es : List Element)
    (x : α) : Prop where
  reads : ∀ m, Walk.Reads v len (w m) (bitsOf es) x
  stops : Walk.StopsCut v len (w .strict) es

section
variable {α β : Type} {v : View} {len : Nat}

theorem Walk.Parses.pure (x : α) : Walk.Parses v len (fun _ => (Pure.pure x : Walk α)) [] x :=
  ⟨fun _ => Reads.pure x, StopsCut.nil v len _⟩

theorem Walk.Parses.bind {w : Mode → Walk α} {f : Mode → α → Walk β} {a b : List Element} {x : α} {y : β}
    (hw : Walk.Parses v len w a x) (hf : Walk.Parses v len (fun m => f m x) b y) :
    Walk.Parses v len (fun m => w m >>= f m) (a ++ b) y where
  reads m := by rw [bitsOf_append]; exact Reads.bind (hw.reads m) (hf.reads m)
  stops := StopsCut.bind (hw.reads .strict) hw.stops hf.stops

/-- A walk that ends with a part that reads nothing. -/
theorem Walk.Parses.last {w : Mode → Walk α} {f : Mode → α → Walk β} {a : List Element} {x : α} {y : β}
    (hw : Walk.Parses v len w a x) (hf : Walk.Parses v len (fun m => f m x) [] y) :
    Walk.Parses v len (fun m => w m >>= f m) a y := by
  have h := Walk.Parses.bind hw hf
  rwa [List.append_nil] at h

theorem Walk.Parses.ite_pos {p : Prop} [Decidable p] {a b : Mode → Walk α} {es : List Element} {x : α}
    (hp : p) (h : Walk.Parses v len a es x) :
    Walk.Parses v len (fun m => if p then a m else b m) es x := by
  simpa only [if_pos hp] using h

theorem Walk.Parses.ite_neg {p : Prop} [Decidable p] {a b : Mode → Walk α} {es : List Element} {x : α}
    (hp : ¬p) (h : Walk.Parses v len b es x) :
    Walk.Parses v len (fun m => if p then a m else b m) es x := by
  simpa only [if_neg hp] using h

/-! ### The lenient policy behind a cut -/

/-- At or past the end the walk does not fail, and POS stays. -/
def Walk.Dries (len : Nat) (w : Walk α) : Prop :=
  ∀ c, c.lenbits = len → len ≤ c.pos → ∃ y k e, w c = .ok y { c with sticky := k, serial := e }

theorem Walk.Dries.of_drained {w : Walk α} {k : Bool} {x : α} (h : Walk.Drained len w k x) :
    Walk.Dries len w := by
  intro c hc hp
  obtain ⟨e, he⟩ := h c hc hp
  exact ⟨x, _, e, he⟩

theorem Walk.Dries.pure (x : α) : Walk.Dries len (Pure.pure x : Walk α) :=
  .of_drained (Drained.pure len x)

theorem Walk.Dries.bind {w : Walk α} {f : α → Walk β} (hw : Walk.Dries len w)
    (hf : ∀ x, Walk.Dries len (f x)) : Walk.Dries len (w >>= f) := by
  intro c hc hp
  obtain ⟨x, j, d, hx⟩ := hw c hc hp
  obtain ⟨y, k, e, hy⟩ := hf x { c with sticky := j, serial := d } hc hp
  exact ⟨y, k, e, by rw [walk_bind_ok hx, hy]⟩

theorem Walk.Dries.ite {p : Prop} [Decidable p] {a b : Walk α} (ha : Walk.Dries len a)
    (hb : Walk.Dries len b) : Walk.Dries len (if p then a else b) := by
  split <;> assumption

/-- Behind the end STICKY does not depend on what has been read, once an element is absent. -/
theorem Walk.Dries.bind_drained {w : Walk α} {f : α → Walk β} {y : β} (hw : Walk.Dries len w)
    (hf : ∀ x, Walk.Drained len (f x) true y) : Walk.Drained len (w >>= f) true y := by
  intro c hc hp
  obtain ⟨x, j, d, hx⟩ := hw c hc hp
  obtain ⟨e, he⟩ := hf x { c with sticky := j, serial := d } hc hp
  exact ⟨e, by rw [walk_bind_ok hx, he]; simp⟩

theorem rd_dries (v : View) (len n : Nat) : Walk.Dries len (rd v .lenient n) :=
  .of_drained (rd_drained v len n)

theorem rdUe_dries (v : View) (len : Nat) : Walk.Dries len (rdUe v .lenient) :=
  .of_drained (rdUe_drained v len)

theorem rdSe_dries (v : View) (len : Nat) : Walk.Dries len (rdSe v .lenient) :=
  .of_drained (rdSe_drained v len)

theorem repeatSe_dries (v : View) (len n : Nat) : Walk.Dries len (repeatSe v .lenient n) :=
  .of_drained (repeatSe_drained v len n)

/-- Where the buffer ends inside the elements `es`, the walk does not fail, and POS is where the lenient
policy ends. -/
def Walk.PassesCut (v : View) (len : Nat) (w : Walk α) (es : List Element) : Prop :=
  ∀ c, c.lenbits = len → v.holds c.pos ((bitsOf es).take (len - c.pos)) →
    len < c.pos + (bitsOf es).length → ∃ y k e, w c = .ok y { c with
      pos := c.pos + lenientStop (len - c.pos) es, sticky := k, serial := e }

theorem Walk.PassesCut.of_readsCut {w : Walk α} {es : List Element} {val : Nat → α}
    (h : Walk.ReadsCut v len w es val) : Walk.PassesCut v len w es := by
  intro c hc hh _
  obtain ⟨e, he⟩ := h c hc hh
  exact ⟨_, _, e, he⟩

/-- Where nothing is left, the lenient policy moves no further. -/
theorem lenientStop_zero (es : List Element) : lenientStop 0 es = 0 := by
  cases es with
  | nil => rfl
  | cons e es => simp [lenientStop, e.needs_pos]

/-- Nothing behind a list is read where no more is left than the list takes. -/
theorem lenientStop_append_of_le {left : Nat} {a : List Element} (b : List Element)
    (ha : allReadable a) (h : left ≤ (bitsOf a).length) :
    lenientStop left (a ++ b) = lenientStop left a := by
  rw [lenientStop_append ha]
  split
  · rw [show left - (bitsOf a).length = 0 by omega, lenientStop_zero]; rfl
  · rfl

theorem lenientStop_append_whole {left : Nat} {a : List Element} (b : List Element)
    (ha : allReadable a) (h : (bitsOf a).length ≤ left) :
    lenientStop left (a ++ b) = (bitsOf a).length + lenientStop (left - (bitsOf a).length) b := by
  rw [lenientStop_append ha, if_pos h, (lenientStop_whole ha h).1]

theorem Walk.PassesCut.bind {w : Walk α} {f : α → Walk β} {a b : List Element} {x : α}
    (ha : allReadable a) (hr : Walk.Reads v len w (bitsOf a) x) (hw : Walk.PassesCut v len w a)
    (hd : ∀ u, Walk.Dries len (f u)) (hf : Walk.PassesCut v len (f x) b) :
    Walk.PassesCut v len (w >>= f) (a ++ b) := by
  intro c hc hh hcut
  rw [bitsOf_append, List.take_append, View.holds_append] at hh
  rw [bitsOf_append, List.length_append] at hcut
  by_cases hl : c.pos + (bitsOf a).length ≤ len
  · rw [List.take_of_length_le (by omega)] at hh
    obtain ⟨d, hd'⟩ := hr c hc hh.1 hl
    obtain ⟨y, k, e, he⟩ := hf { c with pos := c.pos + (bitsOf a).length, serial := d } hc
      (by simpa only [← Nat.sub_sub] using hh.2) (by simp only; omega)
    refine ⟨y, k, e, ?_⟩
    rw [walk_bind_ok hd', he, lenientStop_append_whole b ha (by omega)]
    simp [Nat.add_assoc, Nat.sub_sub]
  · obtain ⟨u, j, d, hu⟩ := hw c hc hh.1 (by omega)
    have hend := le_lenientStop (left := len - c.pos) (es := a) (by omega)
    obtain ⟨y, k, e, he⟩ := hd u { c with
      pos := c.pos + lenientStop (len - c.pos) a, sticky := j, serial := d } hc (by simp only; omega)
    exact ⟨y, k, e, by rw [walk_bind_ok hu, he, lenientStop_append_of_le b ha (by omega)]⟩

/-- A part whose value does not matter behind a cut, in front of one that reads on: what that one answers
where nothing is left is the answer behind the cut. -/
theorem ReadsCut.after {w : Walk α} {f : α → Walk β} {a b : List Element} {x : α} {y : Nat → β}
    (ha : allReadable a) (hr : Walk.Reads v len w (bitsOf a) x) (hw : Walk.PassesCut v len w a)
    (hb : b ≠ []) (hd : ∀ u, Walk.Drained len (f u) true (y 0))
    (hf : Walk.ReadsCut v len (f x) b y) :
    Walk.ReadsCut v len (w >>= f) (a ++ b) fun left => y (left - (bitsOf a).length) := by
  intro c hc hh
  rw [bitsOf_append, List.take_append, View.holds_append] at hh
  by_cases hl : c.pos + (bitsOf a).length ≤ len
  · rw [List.take_of_length_le (by omega)] at hh
    obtain ⟨d, hd'⟩ := hr c hc hh.1 hl
    obtain ⟨e, he⟩ := hf { c with pos := c.pos + (bitsOf a).length, serial := d } hc
      (by simpa only [← Nat.sub_sub] using hh.2)
    refine ⟨e, ?_⟩
    rw [walk_bind_ok hd', he, lenientStop_append_whole b ha (by omega), absentIn_append,
      (lenientStop_whole ha (by omega)).2]
    simp [Nat.add_assoc, Nat.sub_sub]
  · obtain ⟨u, j, d, hu⟩ := hw c hc hh.1 (by omega)
    have hend := le_lenientStop (left := len - c.pos) (es := a) (by omega)
    obtain ⟨e, he⟩ := hd u { c with
      pos := c.pos + lenientStop (len - c.pos) a, sticky := j, serial := d } hc (by simp only; omega)
    refine ⟨e, ?_⟩
    have hnone : len - c.pos - (bitsOf a).length = 0 := by omega
    beta_reduce
    rw [walk_bind_ok hu, he, lenientStop_append_of_le b ha (by omega), absentIn_append, hnone,
      absentIn_zero hb]
    simp

/-! ### Both -/

/-- A walk over the elements `es` that under the lenient policy goes on behind a cut. -/
structure Walk.ParsesOn (v : View) (len : Nat) (w : Mode → Walk α) (es : List Element)
    (x : α) : Prop extends Walk.Parses v len w es x where
  readable : allReadable es
  passes : Walk.PassesCut v len (w .lenient) es

theorem allReadable_append {a b : List Element} (ha : allReadable a) (hb : allReadable b) :
    allReadable (a ++ b) := by
  intro e he
  rcases List.mem_append.mp he with h | h
  · exact ha e h
  · exact hb e h

theorem Walk.ParsesOn.pure (x : α) : Walk.ParsesOn v len (fun _ => (Pure.pure x : Walk α)) [] x where
  toParses := Walk.Parses.pure x
  readable := nofun
  passes := .of_readsCut (ReadsCut.pure v len x)

theorem Walk.ParsesOn.bind {w : Mode → Walk α} {f : Mode → α → Walk β} {a b : List Element} {x : α} {y : β}
    (hw : Walk.ParsesOn v len w a x) (hd : ∀ u, Walk.Dries len (f .lenient u))
    (hf : Walk.ParsesOn v len (fun m => f m x) b y) :
    Walk.ParsesOn v len (fun m => w m >>= f m) (a ++ b) y where
  toParses := Walk.Parses.bind hw.toParses hf.toParses
  readable := allReadable_append hw.readable hf.readable
  passes := Walk.PassesCut.bind hw.readable (hw.reads .lenient) hw.passes hd hf.passes

theorem Walk.ParsesOn.last {w : Mode → Walk α} {f : Mode → α → Walk β} {a : List Element} {x : α} {y : β}
    (hw : Walk.ParsesOn v len w a x) (hd : ∀ u, Walk.Dries len (f .lenient u))
    (hf : Walk.ParsesOn v len (fun m => f m x) [] y) :
    Walk.ParsesOn v len (fun m => w m >>= f m) a y := by
  have h := Walk.ParsesOn.bind hw hd hf
  rwa [List.append_nil] at h

theorem Walk.ParsesOn.ite_pos {p : Prop} [Decidable p] {a b : Mode → Walk α} {es : List Element} {x : α}
    (hp : p) (h : Walk.ParsesOn v len a es x) :
    Walk.ParsesOn v len (fun m => if p then a m else b m) es x := by
  simpa only [if_pos hp] using h

theorem Walk.ParsesOn.ite_neg {p : Prop} [Decidable p] {a b : Mode → Walk α} {es : List Element} {x : α}
    (hp : ¬p) (h : Walk.ParsesOn v len b es x) :
    Walk.ParsesOn v len (fun m => if p then a m else b m) es x := by
  simpa only [if_neg hp] using h

/-- What a walk answers on a cut buffer in front of which a walk over `a` stands. -/
theorem ReadsCut.behind {w : Mode → Walk α} {f : α → Walk β} {a b : List Element} {x : α} {y : Nat → β}
    (hw : Walk.ParsesOn v len w a x) (hb : b ≠ []) (hd : ∀ u, Walk.Drained len (f u) true (y 0))
    (hf : Walk.ReadsCut v len (f x) b y) :
    Walk.ReadsCut v len (w .lenient >>= f) (a ++ b) fun left => y (left - (bitsOf a).length) :=
  ReadsCut.after hw.readable (hw.reads .lenient) hw.passes hb hd hf

end

/-! ### The element reads -/

section
variable {v : View} (hv : v.disturbed = false) {len : Nat}
include hv

theorem rd_parsesOn {n x : Nat} (hn : 1 ≤ n) (hn' : n ≤ 64) (hx : x < 2 ^ n) :
    Walk.ParsesOn v len (fun m => rd v m n) [.u (uBits n x)] x where
  reads m := by simpa using rd_reads hv len m hn hn' hx
  stops := rd_stopsCut v len n x
  readable := by simpa [allReadable, Element.needs] using hn
  passes := .of_readsCut (rd_readsCut hv len hn hn' hx)

theorem flag_parsesOn (b : Bool) :
    Walk.ParsesOn v len (fun m => rd v m 1) [.flag b] b.toNat where
  reads m := by simpa using rd_reads_flag hv len m b
  stops := rd_stopsCut_flag v len b
  readable := allReadable_flag b
  passes := .of_readsCut (rd_readsCut_flag hv len b)

variable (h8 : len % 8 = 0)
include h8

theorem rdUe_parsesOn {u : Nat} (hu : ueLegal u = true) :
    Walk.ParsesOn v len (fun m => rdUe v m) [.ue u] u where
  reads m := by simpa using rdUe_reads hv h8 m hu
  stops := rdUe_stopsCut hv h8 u
  readable := allReadable_ue u
  passes := .of_readsCut (rdUe_readsCut hv h8 hu)

theorem rdSe_parsesOn {k : Int} (hk : seLegal k = true) :
    Walk.ParsesOn v len (fun m => rdSe v m) [.se k] k where
  reads m := by simpa using rdSe_reads hv h8 m hk
  stops := rdSe_stopsCut hv h8 k
  readable := allReadable_ue _
  passes := .of_readsCut (rdSe_readsCut hv h8 hk)

/-- The loop of se() on a cut list: where it stops early, nothing is left (42_h264_sps.md R169). -/
theorem repeatSe_passesCut {ds : List Int} (h : ds.all seLegal = true) :
    Walk.PassesCut v len (repeatSe v .lenient ds.length) (ds.map .se) := by
  induction ds with
  | nil => exact .of_readsCut (ReadsCut.pure v len ())
  | cons d ds ih =>
    simp only [List.all_cons, Bool.and_eq_true] at h
    have hd := rdSe_parsesOn (len := len) hv h8 h.1
    have hloop := Walk.PassesCut.bind (f := fun _ => repeatSe v .lenient ds.length) hd.readable
      (hd.reads .lenient) hd.passes (fun _ => repeatSe_dries v len _) (ih h.2)
    intro c hc hh hcut
    simp only [repeatSe, List.length_cons]
    split
    · rename_i hs
      simp only [spent, Bool.and_eq_true, decide_eq_true_eq] at hs
      refine ⟨(), c.sticky, c.serial, ?_⟩
      rw [show len - c.pos = 0 by omega, lenientStop_zero]
      rfl
    · exact hloop c hc hh hcut

theorem repeatSe_parsesOn {ds : List Int} (h : ds.all seLegal = true) :
    Walk.ParsesOn v len (fun m => repeatSe v m ds.length) (ds.map .se) () where
  reads m := by simpa using repeatSe_reads hv h8 m h
  stops := repeatSe_stopsCut hv h8 h
  readable := by
    intro e he
    obtain ⟨k, -, rfl⟩ := List.mem_map.mp he
    exact allReadable_ue (seCodeNum k) _ (List.mem_singleton_self _)
  passes := repeatSe_passesCut hv h8 h

/-- A code whose value the walk answers with: behind a cut it answers what it reads, and what the rest
answers where nothing is left. -/
theorem ReadsCut.code {β : Type} {u : Nat} (hu : ueLegal u = true) {f : Nat → Walk β}
    {es : List Element} {y : Nat → Nat → β} (hes : es ≠ [])
    (hd : ∀ x, Walk.Drained len (f x) true (y x 0)) (hf : Walk.ReadsCut v len (f u) es (y u)) :
    Walk.ReadsCut v len (rdUe v .lenient >>= f) (.ue u :: es)
      fun left => y (cutCode left u) (left - (ueBits u).length) := by
  have hlen : (bitsOf [.ue u]).length = (ueBits u).length := by simp
  refine ReadsCut.bind (a := [.ue u]) (y := y u) (allReadable_ue u) hes (rdUe_readsCut hv h8 hu)
    (fun left hl => ?_) (fun left hl => ⟨true, by simp, ?_⟩) fun left hl => ?_
  · rw [hlen] at hl
    rwa [cutCode_whole hl]
  · rw [hlen] at hl
    rw [show left - (ueBits u).length = 0 by omega]
    exact hd _
  · rw [hlen] at hl ⊢
    rw [cutCode_whole hl]

omit h8 in
/-- A field whose value the walk answers with. -/
theorem ReadsCut.field {β : Type} {n u : Nat} (hn : 1 ≤ n) (hn' : n ≤ 64) (hu : u < 2 ^ n)
    {f : Nat → Walk β} {es : List Element} {y : Nat → Nat → β} (hes : es ≠ [])
    (hd : ∀ x, Walk.Drained len (f x) true (y x 0)) (hf : Walk.ReadsCut v len (f u) es (y u)) :
    Walk.ReadsCut v len (rd v .lenient n >>= f) (.u (uBits n u) :: es)
      fun left => y (cutField n left u) (left - n) := by
  have hlen : (bitsOf [.u (uBits n u)]).length = n := by simp
  refine ReadsCut.bind (a := [.u (uBits n u)]) (y := y u)
    (by simpa [allReadable, Element.needs] using hn) hes (rd_readsCut hv len hn hn' hu)
    (fun left hl => ?_) (fun left hl => ⟨true, by simp, ?_⟩) fun left hl => ?_
  · rw [hlen] at hl
    rwa [cutField_whole hl]
  · rw [hlen] at hl
    rw [show left - n = 0 by omega]
    exact hd _
  · rw [hlen] at hl ⊢
    rw [cutField_whole hl]

omit h8 in
/-- A flag whose value the walk answers with: it reads as 0 where it is absent. -/
theorem ReadsCut.flag {β : Type} {b : Bool} {f : Nat → Walk β} {es : List Element}
    {y : Nat → Nat → β} {k : Bool} (hes : es ≠ []) (hd : Walk.Drained len (f 0) k (y 0 0))
    (hf : Walk.ReadsCut v len (f b.toNat) es (y b.toNat)) :
    Walk.ReadsCut v len (rd v .lenient 1 >>= f) (.flag b :: es)
      fun left => y (if left = 0 then 0 else b.toNat) (left - 1) := by
  have hlen : (bitsOf [.flag b]).length = 1 := by simp
  refine ReadsCut.bind (a := [.flag b]) (y := y b.toNat) (allReadable_flag b) hes
    (rd_readsCut_flag hv len b) (fun left hl => ?_) (fun left hl => ⟨k, ?_, ?_⟩) fun left hl => ?_
  · rw [if_neg (by omega)]; exact hf
  · rw [absentIn_one]
    simp [Element.flag, Element.needs, show left < 1 by omega]
  · rw [if_pos (by omega), show left - 1 = 0 by omega]; exact hd
  · rw [if_neg (by omega), hlen]

end

end Sys2Proof.Machine
end

section
/-! SUPPORT. H264SPS stage by stage on the elements of a parameter set, whole or cut (42_h264_sps.md R160
to R166). -/

namespace Sys2Proof

/-! ### The elements of an SPS, stage by stage -/

/-- Stage 1 (R161). -/
def Sps.headerElements (x : Sps) : List Element :=
  [.u (uBits 8 x.nal), .u (uBits 8 x.profile), .u (uBits 16 x.flagsLevel), .ue x.spsId]

/-- Stage 2, which stands only in the profiles of P (R162, R163). -/
def Sps.highElements (x : Sps) : List Element :=
  if x.profile ∈ Machine.highProfiles then x.high.elements else []

/-- The flag for macroblock-adaptive coding, where frame_mbs_only is 0 (R165). -/
def Sps.mbaffElements (x : Sps) : List Element := if x.fmo then [] else [.flag x.mbaff]

/-- The end of stage 4, from the frame flag on (R165). -/
def Sps.frameElements (x : Sps) : List Element :=
  .flag x.fmo :: (x.mbaffElements ++ .flag x.direct :: cropElements x.crop)

/-- Stage 4 (R165). -/
def Sps.geometryElements (x : Sps) : List Element :=
  .ue x.numRef :: .flag x.gaps :: .ue x.wm1 :: .ue x.hm1 :: x.frameElements

theorem Sps.elements_eq (x : Sps) : x.elements =
    x.headerElements ++ (x.highElements ++ ((.ue x.log2FrameNum :: x.poc.elements) ++
      x.geometryElements)) := by
  simp [Sps.elements, Sps.front, Sps.frameFlags, Sps.headerElements, Sps.highElements,
    Sps.geometryElements, Sps.frameElements, Sps.mbaffElements]

/-- The elements in front of the macroblock width, stage by stage. -/
theorem Sps.front_eq (x : Sps) : x.front =
    x.headerElements ++ (x.highElements ++ ((.ue x.log2FrameNum :: x.poc.elements) ++
      [.ue x.numRef, .flag x.gaps])) := by
  simp [Sps.front, Sps.headerElements, Sps.highElements]

theorem Sps.frameFlags_eq (x : Sps) :
    x.frameFlags = .flag x.fmo :: (x.mbaffElements ++ [.flag x.direct]) := by
  simp [Sps.frameFlags, Sps.mbaffElements]

namespace Machine

section
variable {v : View} {len : Nat}

/-! ### The parts of stage 4 -/

/-- The crop offsets of stage 4 (R165). -/
def geometryOffsets (v : View) (m : Mode) (wm1 hm1 fmo : Nat) : Walk Geometry := do
  let cl ← rdUe v m
  let cr ← rdUe v m
  let ct ← rdUe v m
  let cb ← rdUe v m
  return { wm1 := wm1, hm1 := hm1, fmo := fmo, cl := cl, cr := cr, ct := ct, cb := cb }

/-- Stage 4 from the cropping flag on (R165). -/
def geometryCrop (v : View) (m : Mode) (wm1 hm1 fmo : Nat) : Walk Geometry := do
  let crop ← rd v m 1
  if crop = 1 then geometryOffsets v m wm1 hm1 fmo
  else return { wm1 := wm1, hm1 := hm1, fmo := fmo, cl := 0, cr := 0, ct := 0, cb := 0 }

/-- Stage 4 behind the frame flag (R165). -/
def geometryFlags (v : View) (m : Mode) (wm1 hm1 fmo : Nat) : Walk Geometry :=
  if fmo = 0 then do
    let _ ← rd v m 1
    let _ ← rd v m 1
    geometryCrop v m wm1 hm1 fmo
  else do
    let _ ← rd v m 1
    geometryCrop v m wm1 hm1 fmo

/-- Stage 4 from the frame flag on (R165). -/
def geometryFrame (v : View) (m : Mode) (wm1 hm1 : Nat) : Walk Geometry := do
  let fmo ← rd v m 1
  geometryFlags v m wm1 hm1 fmo

/-- Stage 4 from the macroblock height on (R165). -/
def geometryHeight (v : View) (m : Mode) (wm1 : Nat) : Walk Geometry := do
  let hm1 ← rdUe v m
  geometryFrame v m wm1 hm1

/-- Stage 4 from the macroblock width on (R165). -/
def geometryWidth (v : View) (m : Mode) : Walk Geometry := do
  let wm1 ← rdUe v m
  geometryHeight v m wm1

/-- These are the parts of stage 4. -/
theorem stageGeometry_eq (v : View) (m : Mode) : stageGeometry v m = (do
    let _ ← rdUe v m
    let _ ← rd v m 1
    geometryWidth v m) := rfl

theorem geometryCrop_drained (v : View) (len wm1 hm1 fmo : Nat) :
    Walk.Drained len (geometryCrop v .lenient wm1 hm1 fmo) true
      { wm1 := wm1, hm1 := hm1, fmo := fmo, cl := 0, cr := 0, ct := 0, cb := 0 } :=
  Drained.bind (rd_drained v len 1) <| Drained.pure len _

theorem geometryFlags_drained (v : View) (len wm1 hm1 fmo : Nat) :
    Walk.Drained len (geometryFlags v .lenient wm1 hm1 fmo) true
      { wm1 := wm1, hm1 := hm1, fmo := fmo, cl := 0, cr := 0, ct := 0, cb := 0 } := by
  unfold geometryFlags
  split
  · exact Drained.bind (rd_drained v len 1) <| Drained.bind (rd_drained v len 1) <|
      geometryCrop_drained v len wm1 hm1 fmo
  · exact Drained.bind (rd_drained v len 1) <| geometryCrop_drained v len wm1 hm1 fmo

theorem geometryFrame_drained (v : View) (len wm1 hm1 : Nat) :
    Walk.Drained len (geometryFrame v .lenient wm1 hm1) true
      { wm1 := wm1, hm1 := hm1, fmo := 0, cl := 0, cr := 0, ct := 0, cb := 0 } :=
  Drained.bind (rd_drained v len 1) <| geometryFlags_drained v len wm1 hm1 0

theorem geometryHeight_drained (v : View) (len wm1 : Nat) :
    Walk.Drained len (geometryHeight v .lenient wm1) true
      { wm1 := wm1, hm1 := 0, fmo := 0, cl := 0, cr := 0, ct := 0, cb := 0 } :=
  Drained.bind (rdUe_drained v len) <| geometryFrame_drained v len wm1 0

theorem geometryWidth_drained (v : View) (len : Nat) :
    Walk.Drained len (geometryWidth v .lenient) true
      { wm1 := 0, hm1 := 0, fmo := 0, cl := 0, cr := 0, ct := 0, cb := 0 } :=
  Drained.bind (rdUe_drained v len) <| geometryHeight_drained v len 0

theorem stageGeometry_drained (v : View) (len : Nat) :
    Walk.Drained len (stageGeometry v .lenient) true
      { wm1 := 0, hm1 := 0, fmo := 0, cl := 0, cr := 0, ct := 0, cb := 0 } :=
  Drained.bind (rdUe_drained v len) <| Drained.bind (rd_drained v len 1) <|
    geometryWidth_drained v len

/-- The crop offsets read of `c` where `left` bits remain in front of them. -/
def cutOffsets (c : SpsCrop) (wm1 hm1 fmo left : Nat) : Geometry :=
  { wm1 := wm1, hm1 := hm1, fmo := fmo
    cl := cutCode left c.cl
    cr := cutCode (left - (ueBits c.cl).length) c.cr
    ct := cutCode (left - (ueBits c.cl).length - (ueBits c.cr).length) c.ct
    cb := cutCode (left - (ueBits c.cl).length - (ueBits c.cr).length - (ueBits c.ct).length) c.cb }

@[simp] theorem cutOffsets_zero (c : SpsCrop) (wm1 hm1 fmo : Nat) : cutOffsets c wm1 hm1 fmo 0 =
    { wm1 := wm1, hm1 := hm1, fmo := fmo, cl := 0, cr := 0, ct := 0, cb := 0 } := by
  simp [cutOffsets, cutCode_zero]

/-- Where there is no cropping, nothing is cut from it. -/
theorem cutOffsets_of_zero (wm1 hm1 fmo left : Nat) :
    cutOffsets { cl := 0, cr := 0, ct := 0, cb := 0 } wm1 hm1 fmo left =
      { wm1 := wm1, hm1 := hm1, fmo := fmo, cl := 0, cr := 0, ct := 0, cb := 0 } := by
  simp [cutOffsets, cutCode_of_zero]

/-- The sizes of stage 4 as `x` holds them (R165). -/
def spsGeometry (x : Sps) : Geometry :=
  { wm1 := x.wm1, hm1 := x.hm1, fmo := x.fmo.toNat
    cl := x.cropOr0.cl, cr := x.cropOr0.cr, ct := x.cropOr0.ct, cb := x.cropOr0.cb }

/-- What the lenient policy answers behind the frame flag, where `left` bits remain there. -/
def cutFlags (x : Sps) (wm1 hm1 fmo left : Nat) : Geometry :=
  cutOffsets x.cropOr0 wm1 hm1 fmo (left - (bitsOf x.mbaffElements).length - 1 - 1)

/-- What it answers from the frame flag on. -/
def cutFrame (x : Sps) (wm1 hm1 left : Nat) : Geometry :=
  cutFlags x wm1 hm1 (if left = 0 then 0 else x.fmo.toNat) (left - 1)

/-- What it answers from the macroblock height on. -/
def cutHeight (x : Sps) (wm1 left : Nat) : Geometry :=
  cutFrame x wm1 (cutCode left x.hm1) (left - (ueBits x.hm1).length)

/-- What it answers from the macroblock width on. -/
def cutWidth (x : Sps) (left : Nat) : Geometry :=
  cutHeight x (cutCode left x.wm1) (left - (ueBits x.wm1).length)

@[simp] theorem cutFlags_zero (x : Sps) (wm1 hm1 fmo : Nat) : cutFlags x wm1 hm1 fmo 0 =
    { wm1 := wm1, hm1 := hm1, fmo := fmo, cl := 0, cr := 0, ct := 0, cb := 0 } := by
  simp [cutFlags]

@[simp] theorem cutFrame_zero (x : Sps) (wm1 hm1 : Nat) : cutFrame x wm1 hm1 0 =
    { wm1 := wm1, hm1 := hm1, fmo := 0, cl := 0, cr := 0, ct := 0, cb := 0 } := by
  simp [cutFrame]

@[simp] theorem cutHeight_zero (x : Sps) (wm1 : Nat) : cutHeight x wm1 0 =
    { wm1 := wm1, hm1 := 0, fmo := 0, cl := 0, cr := 0, ct := 0, cb := 0 } := by
  simp [cutHeight, cutCode_zero]

@[simp] theorem cutWidth_zero (x : Sps) : cutWidth x 0 =
    { wm1 := 0, hm1 := 0, fmo := 0, cl := 0, cr := 0, ct := 0, cb := 0 } := by
  simp [cutWidth, cutCode_zero]

end


section
variable {v : View} (hv : v.disturbed = false) {len : Nat} (h8 : len % 8 = 0)
include hv h8

theorem geometryOffsets_parses (wm1 hm1 fmo : Nat) {c : SpsCrop} (hc : cropLegal (some c) = true) :
    Walk.Parses v len (fun m => geometryOffsets v m wm1 hm1 fmo) c.elements
      { wm1 := wm1, hm1 := hm1, fmo := fmo, cl := c.cl, cr := c.cr, ct := c.ct, cb := c.cb } := by
  simp only [cropLegal, Bool.and_eq_true] at hc
  obtain ⟨⟨⟨hcl, hcr⟩, hct⟩, hcb⟩ := hc
  exact .bind (rdUe_parsesOn hv h8 hcl).toParses <| .bind (rdUe_parsesOn hv h8 hcr).toParses <|
    .bind (rdUe_parsesOn hv h8 hct).toParses <| .last (rdUe_parsesOn hv h8 hcb).toParses <| .pure _

theorem geometryOffsets_readsCut (wm1 hm1 fmo : Nat) {c : SpsCrop}
    (hc : cropLegal (some c) = true) :
    Walk.ReadsCut v len (geometryOffsets v .lenient wm1 hm1 fmo) c.elements
      (cutOffsets c wm1 hm1 fmo) := by
  simp only [cropLegal, Bool.and_eq_true] at hc
  obtain ⟨⟨⟨hcl, hcr⟩, hct⟩, hcb⟩ := hc
  have hue := rdUe_drained v len
  refine ReadsCut.code (β := Geometry) hv h8 hcl (List.cons_ne_nil _ _)
    (y := fun cl left => ⟨wm1, hm1, fmo, cl, cutCode left c.cr,
      cutCode (left - (ueBits c.cr).length) c.ct,
      cutCode (left - (ueBits c.cr).length - (ueBits c.ct).length) c.cb⟩) (fun cl => ?_) ?_
  · simp only [cutCode_zero, Nat.zero_sub]
    exact Drained.bind hue <| Drained.bind hue <| Drained.bind hue <| Drained.pure len _
  refine ReadsCut.code (β := Geometry) hv h8 hcr (List.cons_ne_nil _ _)
    (y := fun cr left => ⟨wm1, hm1, fmo, c.cl, cr, cutCode left c.ct,
      cutCode (left - (ueBits c.ct).length) c.cb⟩) (fun cr => ?_) ?_
  · simp only [cutCode_zero, Nat.zero_sub]
    exact Drained.bind hue <| Drained.bind hue <| Drained.pure len _
  refine ReadsCut.code (β := Geometry) hv h8 hct (List.cons_ne_nil _ _)
    (y := fun ct left => ⟨wm1, hm1, fmo, c.cl, c.cr, ct, cutCode left c.cb⟩) (fun ct => ?_) ?_
  · simp only [cutCode_zero]
    exact Drained.bind hue <| Drained.pure len _
  exact ReadsCut.last (rdUe_readsCut hv h8 hcb) fun left c' => ⟨c'.serial, rfl⟩

end

theorem cropElements_ne_nil (c : Option SpsCrop) : cropElements c ≠ [] := by
  cases c <;> exact List.cons_ne_nil _ _

section
variable {v : View} (hv : v.disturbed = false) {len : Nat} (h8 : len % 8 = 0) {x : Sps}
  (hc : cropLegal x.crop = true)
include hv h8 hc

theorem geometryCrop_parses (wm1 hm1 fmo : Nat) :
    Walk.Parses v len (fun m => geometryCrop v m wm1 hm1 fmo) (cropElements x.crop)
      { spsGeometry x with wm1 := wm1, hm1 := hm1, fmo := fmo } := by
  simp only [spsGeometry, Sps.cropOr0]
  cases hx : x.crop with
  | none => exact .last (flag_parsesOn hv false).toParses <| .pure _
  | some c =>
    rw [hx] at hc
    exact .bind (flag_parsesOn hv true).toParses <| geometryOffsets_parses hv h8 wm1 hm1 fmo hc

theorem geometryCrop_readsCut (wm1 hm1 fmo : Nat) :
    Walk.ReadsCut v len (geometryCrop v .lenient wm1 hm1 fmo) (cropElements x.crop)
      fun left => cutOffsets x.cropOr0 wm1 hm1 fmo (left - 1) := by
  simp only [Sps.cropOr0]
  cases hx : x.crop with
  | none =>
    simp only [Option.getD_none, cutOffsets_of_zero]
    exact ReadsCut.last (rd_readsCut_flag hv len false) fun left c => ⟨c.serial, by simp⟩
  | some c =>
    rw [hx] at hc
    refine ReadsCut.flag (b := true) (y := fun _ => cutOffsets c wm1 hm1 fmo) (k := false) hv
      (List.cons_ne_nil _ _) ?_ (geometryOffsets_readsCut hv h8 wm1 hm1 fmo hc)
    simp only [cutOffsets_zero]
    exact Drained.pure len _

theorem geometryFlags_parses (wm1 hm1 : Nat) :
    Walk.Parses v len (fun m => geometryFlags v m wm1 hm1 x.fmo.toNat)
      (x.mbaffElements ++ .flag x.direct :: cropElements x.crop)
      { spsGeometry x with wm1 := wm1, hm1 := hm1 } := by
  have hdirect : Walk.Parses v len
      (fun m => rd v m 1 >>= fun _ => geometryCrop v m wm1 hm1 x.fmo.toNat)
      (.flag x.direct :: cropElements x.crop) { spsGeometry x with wm1 := wm1, hm1 := hm1 } :=
    .bind (flag_parsesOn hv x.direct).toParses <| geometryCrop_parses hv h8 hc wm1 hm1 _
  unfold geometryFlags Sps.mbaffElements
  cases hx : x.fmo with
  | false =>
    rw [hx] at hdirect
    exact .ite_pos rfl <| .bind (flag_parsesOn hv x.mbaff).toParses hdirect
  | true =>
    rw [hx] at hdirect
    exact .ite_neg nofun hdirect

theorem geometryFlags_readsCut (wm1 hm1 : Nat) :
    Walk.ReadsCut v len (geometryFlags v .lenient wm1 hm1 x.fmo.toNat)
      (x.mbaffElements ++ .flag x.direct :: cropElements x.crop)
      (cutFlags x wm1 hm1 x.fmo.toNat) := by
  have hcrop : ∀ fmo, Walk.Drained len (geometryCrop v .lenient wm1 hm1 fmo) true
      (cutOffsets x.cropOr0 wm1 hm1 fmo 0) := by
    simpa only [cutOffsets_zero] using geometryCrop_drained v len wm1 hm1
  have hdirect : Walk.ReadsCut v len
      (rd v .lenient 1 >>= fun _ => geometryCrop v .lenient wm1 hm1 x.fmo.toNat)
      (.flag x.direct :: cropElements x.crop) fun left =>
        cutOffsets x.cropOr0 wm1 hm1 x.fmo.toNat (left - 1 - 1) :=
    ReadsCut.behind (y := fun left => cutOffsets x.cropOr0 wm1 hm1 x.fmo.toNat (left - 1))
      (flag_parsesOn hv x.direct) (cropElements_ne_nil _) (fun _ => hcrop _)
      (geometryCrop_readsCut hv h8 hc wm1 hm1 _)
  unfold geometryFlags cutFlags Sps.mbaffElements
  cases hx : x.fmo with
  | false =>
    rw [hx] at hdirect
    exact ReadsCut.behind (y := fun left => cutOffsets x.cropOr0 wm1 hm1 0 (left - 1 - 1))
      (f := fun _ => rd v .lenient 1 >>= fun _ => geometryCrop v .lenient wm1 hm1 0)
      (flag_parsesOn hv x.mbaff) (List.cons_ne_nil _ _)
      (fun _ => Drained.bind (rd_drained v len 1) (hcrop 0)) hdirect
  | true =>
    rw [hx] at hdirect
    exact hdirect

/-- Stage 4 on its elements: the sizes. -/
theorem stageGeometry_parses (hnum : ueLegal x.numRef = true) (hw : ueLegal x.wm1 = true)
    (hh : ueLegal x.hm1 = true) :
    Walk.Parses v len (fun m => stageGeometry v m) x.geometryElements (spsGeometry x) :=
  .bind (rdUe_parsesOn hv h8 hnum).toParses <| .bind (flag_parsesOn hv x.gaps).toParses <|
  .bind (rdUe_parsesOn hv h8 hw).toParses <| .bind (rdUe_parsesOn hv h8 hh).toParses <|
  .bind (flag_parsesOn hv x.fmo).toParses <| geometryFlags_parses hv h8 hc x.wm1 x.hm1

theorem geometryFrame_readsCut (wm1 hm1 : Nat) : Walk.ReadsCut v len
    (geometryFrame v .lenient wm1 hm1) x.frameElements (cutFrame x wm1 hm1) := by
  refine ReadsCut.flag (y := cutFlags x wm1 hm1) (k := true) hv (by simp) ?_
    (geometryFlags_readsCut hv h8 hc wm1 hm1)
  rw [cutFlags_zero]
  exact geometryFlags_drained v len wm1 hm1 0

theorem geometryHeight_readsCut (hh : ueLegal x.hm1 = true) (wm1 : Nat) : Walk.ReadsCut v len
    (geometryHeight v .lenient wm1) (.ue x.hm1 :: x.frameElements) (cutHeight x wm1) := by
  refine ReadsCut.code (y := cutFrame x wm1) hv h8 hh (List.cons_ne_nil _ _) (fun hm1 => ?_)
    (geometryFrame_readsCut hv h8 hc wm1 x.hm1)
  rw [cutFrame_zero]
  exact geometryFrame_drained v len wm1 hm1

theorem geometryWidth_readsCut (hw : ueLegal x.wm1 = true) (hh : ueLegal x.hm1 = true) :
    Walk.ReadsCut v len (geometryWidth v .lenient) (.ue x.wm1 :: .ue x.hm1 :: x.frameElements)
      (cutWidth x) := by
  refine ReadsCut.code (y := cutHeight x) hv h8 hw (List.cons_ne_nil _ _) (fun wm1 => ?_)
    (geometryHeight_readsCut hv h8 hc hh x.wm1)
  rw [cutHeight_zero]
  exact geometryHeight_drained v len wm1

/-- Stage 4 on a buffer that ends inside its elements. -/
theorem stageGeometry_readsCut (hnum : ueLegal x.numRef = true) (hw : ueLegal x.wm1 = true)
    (hh : ueLegal x.hm1 = true) :
    Walk.ReadsCut v len (stageGeometry v .lenient) x.geometryElements
      fun left => cutWidth x (left - (ueBits x.numRef).length - 1) := by
  have hwidth := geometryWidth_drained v len
  rw [← cutWidth_zero x] at hwidth
  have hgaps : Walk.ReadsCut v len (rd v .lenient 1 >>= fun _ => geometryWidth v .lenient)
      (.flag x.gaps :: .ue x.wm1 :: .ue x.hm1 :: x.frameElements) fun left => cutWidth x (left - 1) :=
    ReadsCut.behind (y := cutWidth x) (flag_parsesOn hv x.gaps) (List.cons_ne_nil _ _)
      (fun _ => hwidth) (geometryWidth_readsCut hv h8 hc hw hh)
  have h := ReadsCut.behind (y := fun left => cutWidth x (left - 1)) (rdUe_parsesOn hv h8 hnum)
    (List.cons_ne_nil _ _) (fun _ => Drained.bind (rd_drained v len 1) hwidth) hgaps
  simpa [stageGeometry_eq, Sps.geometryElements] using h

end


/-! ### Stages 1 to 3 -/

/-- Stage 2 from the matrix flag on (R162, R163). -/
def highMatrix (v : View) (m : Mode) (slLarge cf : Nat) : Walk Unit := do
  let matrix ← rd v m 1
  if matrix = 1 then stageScalingLists v m slLarge cf

/-- Stage 2 from the bit depths on (R162). -/
def highDepths (v : View) (m : Mode) (slLarge cf : Nat) : Walk Unit := do
  let _ ← rdUe v m
  let _ ← rdUe v m
  let _ ← rd v m 1
  highMatrix v m slLarge cf

/-- These are the parts of stage 2. -/
theorem stageHighProfile_eq (v : View) (m : Mode) (slLarge profile : Nat) :
    stageHighProfile v m slLarge profile = (do
      if profile ∈ highProfiles then
        let cf ← rdUe v m
        if cf = 3 then
          let _ ← rd v m 1
          highDepths v m slLarge cf
        else highDepths v m slLarge cf) := rfl

/-- The signed offsets of stage 3 (R164). -/
def pocOffsets (v : View) (m : Mode) : Walk Unit := do
  let _ ← rdSe v m
  let _ ← rdSe v m
  let n ← rdUe v m
  repeatSe v m n

/-- Stage 3 behind its type (R164). -/
def pocFields (v : View) (m : Mode) (pocType : Nat) : Walk Unit := do
  if pocType = 0 then
    let _ ← rdUe v m
  else if pocType = 1 then
    let _ ← rd v m 1
    pocOffsets v m

/-- These are the parts of stage 3. -/
theorem stagePoc_eq (v : View) (m : Mode) : stagePoc v m = (do
    let _ ← rdUe v m
    let pocType ← rdUe v m
    pocFields v m pocType) := rfl

section
variable (v : View) (len : Nat)

theorem scalingListsFrom_dries (slLarge i left : Nat) :
    Walk.Dries len (scalingListsFrom v .lenient slLarge i left) := by
  induction left generalizing i with
  | zero => exact .pure ()
  | succ left ih =>
    exact .bind (rd_dries v len 1) fun _ =>
      .ite (.bind (repeatSe_dries v len _) fun _ => ih (i + 1)) (ih (i + 1))

theorem highMatrix_dries (slLarge cf : Nat) :
    Walk.Dries len (highMatrix v .lenient slLarge cf) :=
  .bind (rd_dries v len 1) fun _ => .ite (scalingListsFrom_dries v len _ _ _) (.pure ())

theorem highDepths_dries (slLarge cf : Nat) :
    Walk.Dries len (highDepths v .lenient slLarge cf) :=
  .bind (rdUe_dries v len) fun _ => .bind (rdUe_dries v len) fun _ =>
  .bind (rd_dries v len 1) fun _ => highMatrix_dries v len slLarge cf

theorem stageHighProfile_dries (slLarge profile : Nat) :
    Walk.Dries len (stageHighProfile v .lenient slLarge profile) :=
  .ite
    (.bind (rdUe_dries v len) fun cf => .ite
      (.bind (rd_dries v len 1) fun _ => highDepths_dries v len slLarge cf)
      (highDepths_dries v len slLarge cf))
    (.pure ())

theorem pocOffsets_dries : Walk.Dries len (pocOffsets v .lenient) :=
  .bind (rdSe_dries v len) fun _ => .bind (rdSe_dries v len) fun _ =>
  .bind (rdUe_dries v len) fun _ => repeatSe_dries v len _

theorem pocFields_dries (pocType : Nat) : Walk.Dries len (pocFields v .lenient pocType) :=
  .ite (.bind (rdUe_dries v len) fun _ => .pure ())
    (.ite (.bind (rd_dries v len 1) fun _ => pocOffsets_dries v len) (.pure ()))

theorem stagePoc_dries : Walk.Dries len (stagePoc v .lenient) :=
  .bind (rdUe_dries v len) fun _ => .bind (rdUe_dries v len) fun _ => pocFields_dries v len _

end

section
variable {v : View} (hv : v.disturbed = false) {len : Nat} (h8 : len % 8 = 0)
include hv h8

/-- Stage 1: the profile. -/
theorem stageHeader_parsesOn {x : Sps} (hnal : x.nal < 2 ^ 8) (hprofile : x.profile < 2 ^ 8)
    (hflags : x.flagsLevel < 2 ^ 16) (hid : ueLegal x.spsId = true) :
    Walk.ParsesOn v len (fun m => stageHeader v m) x.headerElements x.profile :=
  have r := rd_dries v len
  have e := rdUe_dries v len
  .bind (rd_parsesOn hv (by omega) (by omega) hnal)
    (fun _ => .bind (r 8) fun _ => .bind (r 16) fun _ => .bind e fun _ => .pure _) <|
  .bind (rd_parsesOn hv (by omega) (by omega) hprofile)
    (fun _ => .bind (r 16) fun _ => .bind e fun _ => .pure _) <|
  .bind (rd_parsesOn hv (by omega) (by omega) hflags) (fun _ => .bind e fun _ => .pure _) <|
  .last (rdUe_parsesOn hv h8 hid) (fun _ => .pure _) (.pure _)

/-- The scaling lists from list `i` on (R163). -/
theorem scalingListsFrom_parsesOn {slLarge i : Nat} {ls : List (Option (List Int))}
    (h : listsLegal slLarge i ls = true) :
    Walk.ParsesOn v len (fun m => scalingListsFrom v m slLarge i ls.length)
      (ls.flatMap scalingListElements) () := by
  induction ls generalizing i with
  | nil => exact .pure ()
  | cons l ls ih =>
    have hd := scalingListsFrom_dries v len slLarge (i + 1) ls.length
    have hflag : ∀ present, Walk.Dries len (if present = 1 then
        repeatSe v .lenient (listEntries slLarge i) >>= fun _ =>
          scalingListsFrom v .lenient slLarge (i + 1) ls.length
        else scalingListsFrom v .lenient slLarge (i + 1) ls.length) :=
      fun _ => .ite (.bind (repeatSe_dries v len _) fun _ => hd) hd
    cases l with
    | none =>
      exact .bind (flag_parsesOn hv false) hflag <| .ite_neg nofun <| ih h
    | some ds =>
      simp only [listsLegal, Bool.and_eq_true, decide_eq_true_eq] at h
      obtain ⟨⟨hlen, hds⟩, hls⟩ := h
      have hentries : listEntries slLarge i = ds.length := hlen.symm
      have hels : (some ds :: ls).flatMap scalingListElements =
        [.flag true] ++ (ds.map .se ++ ls.flatMap scalingListElements) := rfl
      rw [hels]
      refine .bind (flag_parsesOn hv true) hflag ?_
      refine .ite_pos rfl ?_
      simp only [hentries]
      exact .bind (repeatSe_parsesOn hv h8 hds) (fun _ => hd) (ih hls)

/-- The elements of stage 2 from the matrix flag on (R163). -/
def matrixElements : Option (List (Option (List Int))) → List Element
  | none => [.flag false]
  | some ls => .flag true :: ls.flatMap scalingListElements

omit hv h8 in
theorem high_elements_eq (h : SpsHigh) : h.elements =
    .ue h.cf :: ((if h.cf = 3 then [.flag h.separatePlane] else []) ++
      .ue h.bdLuma :: .ue h.bdChroma :: .flag h.qpprime :: matrixElements h.lists) := by
  unfold SpsHigh.elements matrixElements
  cases h.lists <;> simp

theorem highMatrix_parsesOn {slLarge : Nat} {h : SpsHigh} (hlegal : h.legal slLarge = true) :
    Walk.ParsesOn v len (fun m => highMatrix v m slLarge h.cf) (matrixElements h.lists) () := by
  have hdries : ∀ matrix, Walk.Dries len
      (if matrix = 1 then stageScalingLists v .lenient slLarge h.cf else pure ()) :=
    fun _ => .ite (scalingListsFrom_dries v len _ _ _) (.pure ())
  simp only [SpsHigh.legal, Bool.and_eq_true] at hlegal
  obtain ⟨-, hlists⟩ := hlegal
  cases hl : h.lists with
  | none => exact .last (flag_parsesOn hv false) hdries <| .ite_neg nofun (.pure ())
  | some ls =>
    simp only [hl, Bool.and_eq_true, decide_eq_true_eq] at hlists
    obtain ⟨hcount, hls⟩ := hlists
    refine .bind (a := [.flag true]) (flag_parsesOn hv true) hdries ?_
    refine .ite_pos rfl ?_
    simp only [stageScalingLists, ← hcount]
    exact scalingListsFrom_parsesOn hv h8 hls

theorem highDepths_parsesOn {slLarge : Nat} {h : SpsHigh} (hlegal : h.legal slLarge = true) :
    Walk.ParsesOn v len (fun m => highDepths v m slLarge h.cf)
      (.ue h.bdLuma :: .ue h.bdChroma :: .flag h.qpprime :: matrixElements h.lists) () := by
  have hmatrix := highMatrix_parsesOn hv h8 hlegal
  have hdries := highMatrix_dries v len slLarge h.cf
  simp only [SpsHigh.legal, Bool.and_eq_true] at hlegal
  obtain ⟨⟨⟨-, hluma⟩, hchroma⟩, -⟩ := hlegal
  exact .bind (rdUe_parsesOn hv h8 hluma)
      (fun _ => .bind (rdUe_dries v len) fun _ => .bind (rd_dries v len 1) fun _ => hdries) <|
    .bind (rdUe_parsesOn hv h8 hchroma) (fun _ => .bind (rd_dries v len 1) fun _ => hdries) <|
    .bind (flag_parsesOn hv h.qpprime) (fun _ => hdries) hmatrix

/-- Stage 2. -/
theorem stageHighProfile_parsesOn {slLarge : Nat} {x : Sps} (hlegal : x.high.legal slLarge = true) :
    Walk.ParsesOn v len (fun m => stageHighProfile v m slLarge x.profile) x.highElements () := by
  have hdepths := highDepths_parsesOn hv h8 hlegal
  simp only [SpsHigh.legal, Bool.and_eq_true] at hlegal
  obtain ⟨⟨⟨hcf, -⟩, -⟩, -⟩ := hlegal
  simp only [stageHighProfile_eq]
  unfold Sps.highElements
  by_cases hp : x.profile ∈ highProfiles
  · rw [if_pos hp, high_elements_eq]
    refine .ite_pos hp ?_
    refine .bind (a := [.ue x.high.cf]) (rdUe_parsesOn hv h8 hcf) (fun cf => ?_) ?_
    · exact .ite (.bind (rd_dries v len 1) fun _ => highDepths_dries v len slLarge cf)
        (highDepths_dries v len slLarge cf)
    by_cases h3 : x.high.cf = 3
    · rw [if_pos h3]
      exact .ite_pos h3 <| .bind (flag_parsesOn hv x.high.separatePlane)
        (fun _ => highDepths_dries v len slLarge _) hdepths
    · rw [if_neg h3]
      exact .ite_neg h3 hdepths
  · rw [if_neg hp]
    exact .ite_neg hp (.pure ())

/-- The offsets of a picture order count of type 1. -/
theorem pocOffsets_parsesOn {a b : Int} {os : List Int} (ha : seLegal a = true)
    (hb : seLegal b = true) (hn : ueLegal os.length = true) (hos : os.all seLegal = true) :
    Walk.ParsesOn v len (fun m => pocOffsets v m)
      (.se a :: .se b :: .ue os.length :: os.map .se) () :=
  have hloop := repeatSe_dries v len
  .bind (rdSe_parsesOn hv h8 ha)
    (fun _ => .bind (rdSe_dries v len) fun _ => .bind (rdUe_dries v len) fun _ => hloop _) <|
  .bind (rdSe_parsesOn hv h8 hb) (fun _ => .bind (rdUe_dries v len) fun _ => hloop _) <|
  .bind (rdUe_parsesOn hv h8 hn) (fun _ => hloop _) (repeatSe_parsesOn hv h8 hos)

/-- Stage 3 behind log2_max_frame_num. -/
theorem pocFields_parsesOn {poc : SpsPoc} (hlegal : poc.legal = true) :
    Walk.ParsesOn v len (fun m => rdUe v m >>= fun t => pocFields v m t) poc.elements () := by
  have hdries := pocFields_dries v len
  have hflag : ∀ _ : Nat, Walk.Dries len (pocOffsets v .lenient) := fun _ => pocOffsets_dries v len
  cases poc with
  | type0 l =>
    have h0 : ueLegal 0 = true := by decide
    refine .bind (a := [.ue 0]) (b := [.ue l]) (rdUe_parsesOn hv h8 h0) hdries ?_
    exact .last (rdUe_parsesOn hv h8 hlegal) (fun _ => .pure ()) (.pure ())
  | type1 z a b os =>
    simp only [SpsPoc.legal, Bool.and_eq_true] at hlegal
    obtain ⟨⟨⟨ha, hb⟩, hn⟩, hos⟩ := hlegal
    have h1 : ueLegal 1 = true := by decide
    refine .bind (a := [.ue 1]) (b := .flag z :: .se a :: .se b :: .ue os.length :: os.map .se)
      (rdUe_parsesOn hv h8 h1) hdries ?_
    exact .bind (a := [.flag z]) (flag_parsesOn hv z) hflag (pocOffsets_parsesOn hv h8 ha hb hn hos)
  | other t =>
    simp only [SpsPoc.legal, Bool.and_eq_true, decide_eq_true_eq] at hlegal
    obtain ⟨ht, hu⟩ := hlegal
    refine .last (rdUe_parsesOn hv h8 hu) hdries ?_
    exact .ite_neg (by omega) <| .ite_neg (by omega) <| .pure ()

/-- Stage 3. -/
theorem stagePoc_parsesOn {x : Sps} (hlog : ueLegal x.log2FrameNum = true)
    (hpoc : x.poc.legal = true) :
    Walk.ParsesOn v len (fun m => stagePoc v m) (.ue x.log2FrameNum :: x.poc.elements) () :=
  .bind (rdUe_parsesOn hv h8 hlog)
    (fun _ => .bind (rdUe_dries v len) fun _ => pocFields_dries v len _)
    (pocFields_parsesOn hv h8 hpoc)

end


/-! ### The whole walk -/

section
variable {v : View} (hv : v.disturbed = false) {len : Nat} (h8 : len % 8 = 0) {slLarge : Nat}
  {x : Sps} (hlegal : x.legal slLarge = true)
include hv h8 hlegal

/-- Under the strict policy the walk stops in front of the first element that is not whole. -/
theorem h264Walk_stopsCut : Walk.StopsCut v len (h264Walk v .strict slLarge) x.elements := by
  simp only [Sps.legal, Bool.and_eq_true, decide_eq_true_eq] at hlegal
  obtain ⟨⟨⟨⟨⟨⟨⟨⟨⟨⟨hnal, hprofile⟩, hflags⟩, hid⟩, hhigh⟩, hlog⟩, hpoc⟩, hnum⟩, hw⟩, hh⟩, hc⟩ := hlegal
  have header := stageHeader_parsesOn (len := len) hv h8 hnal hprofile hflags hid
  have high := stageHighProfile_parsesOn (len := len) hv h8 hhigh
  have poc := stagePoc_parsesOn (len := len) hv h8 hlog hpoc
  rw [Sps.elements_eq]
  exact StopsCut.bind (header.reads .strict) header.stops <|
    StopsCut.bind (high.reads .strict) high.stops <| StopsCut.bind (poc.reads .strict) poc.stops <|
    StopsCut.last (stageGeometry_parses hv h8 hc hnum hw hh).stops

/-- Under the lenient policy it answers the sizes as far as they are there. -/
theorem h264Walk_readsCut : Walk.ReadsCut v len (h264Walk v .lenient slLarge) x.elements
    fun left => cutWidth x (left - (bitsOf x.front).length) := by
  simp only [Sps.legal, Bool.and_eq_true, decide_eq_true_eq] at hlegal
  obtain ⟨⟨⟨⟨⟨⟨⟨⟨⟨⟨hnal, hprofile⟩, hflags⟩, hid⟩, hhigh⟩, hlog⟩, hpoc⟩, hnum⟩, hw⟩, hh⟩, hc⟩ := hlegal
  have header := stageHeader_parsesOn (len := len) hv h8 hnal hprofile hflags hid
  have high := stageHighProfile_parsesOn (len := len) hv h8 hhigh
  have poc := stagePoc_parsesOn (len := len) hv h8 hlog hpoc
  have geometry := ReadsCut.last
    (f := fun g => checkRange .lenient g >>= fun _ => (pure g : Walk Geometry))
    (stageGeometry_readsCut (len := len) hv h8 hc hnum hw hh) fun _ c => ⟨c.serial, rfl⟩
  have hgeometry : Walk.Drained len (stageGeometry v .lenient >>= fun g =>
      checkRange .lenient g >>= fun _ => (pure g : Walk Geometry)) true (cutWidth x 0) := by
    rw [cutWidth_zero]
    exact Drained.bind (stageGeometry_drained v len) (Drained.pure len _)
  have hpoc := Walk.Dries.bind_drained (stagePoc_dries v len) fun _ => hgeometry
  have hhigh := fun profile =>
    Walk.Dries.bind_drained (stageHighProfile_dries v len slLarge profile) fun _ => hpoc
  have hne : x.geometryElements ≠ [] := List.cons_ne_nil _ _
  have hpocCut := ReadsCut.behind (y := fun left => cutWidth x (left - (ueBits x.numRef).length - 1))
    poc hne (by simpa only [Nat.zero_sub] using fun _ => hgeometry) geometry
  have hhighCut := ReadsCut.behind (y := fun left => cutWidth x (left -
      (bitsOf (.ue x.log2FrameNum :: x.poc.elements)).length - (ueBits x.numRef).length - 1))
    high (List.append_ne_nil_of_right_ne_nil _ hne)
    (by simpa only [Nat.zero_sub] using fun _ => hpoc) hpocCut
  have h := ReadsCut.behind (y := fun left => cutWidth x (left - (bitsOf x.highElements).length -
      (bitsOf (.ue x.log2FrameNum :: x.poc.elements)).length - (ueBits x.numRef).length - 1))
    header (List.append_ne_nil_of_right_ne_nil _ (List.append_ne_nil_of_right_ne_nil _ hne))
    (by simpa only [Nat.zero_sub] using hhigh) hhighCut
  have hfront (left : Nat) : left - (bitsOf x.front).length =
      left - (bitsOf x.headerElements).length - (bitsOf x.highElements).length -
        (bitsOf (.ue x.log2FrameNum :: x.poc.elements)).length - (ueBits x.numRef).length - 1 := by
    simp only [Sps.front_eq, bitsOf_append, bitsOf_cons, bitsOf_nil, bits_ue, bits_flag,
      List.length_append, List.length_cons, List.length_nil]
    omega
  simp only [Sps.elements_eq, hfront]
  exact h

end


/-! ### H264SPS on a cut buffer -/

/-- A walk on cut elements from the start of a session, under the strict policy. -/
theorem StopsCut.fresh {α : Type} {s : State} {w : Walk α} {es : List Element}
    (h : Walk.StopsCut s.view (8 * s.len.toNat) w es)
    (hbits : s.carries 0 ((bitsOf es).take (8 * s.len.toNat)))
    (hcut : 8 * s.len.toNat < (bitsOf es).length) :
    ∃ e, w s.freshCursor = .error .absent
      { pos := strictStop (8 * s.len.toNat) es, lenbits := 8 * s.len.toNat, sticky := true, serial := e } := by
  have hrun := h s.freshCursor rfl (Nat.zero_le _) hbits (by simpa only [State.freshCursor, Nat.zero_add])
  simpa only [State.freshCursor, Nat.zero_add, Nat.sub_zero] using hrun

/-- A walk on cut elements from the start of a session, under the lenient policy. -/
theorem ReadsCut.fresh {α : Type} {s : State} {w : Walk α} {es : List Element} {val : Nat → α}
    (h : Walk.ReadsCut s.view (8 * s.len.toNat) w es val)
    (hbits : s.carries 0 ((bitsOf es).take (8 * s.len.toNat))) :
    ∃ e, w s.freshCursor = .ok (val (8 * s.len.toNat))
      { pos := lenientStop (8 * s.len.toNat) es, lenbits := 8 * s.len.toNat
        sticky := absentIn (8 * s.len.toNat) es, serial := e } := by
  have hrun := h s.freshCursor rfl hbits
  simpa only [State.freshCursor, Nat.zero_add, Nat.sub_zero, Bool.false_or] using hrun

/-- The completion of a session that failed at the cursor `c` (60_exceptions.md R233). -/
theorem complete_failed_commitCursor (code : ErrCode) (c : Cur) (s : State) :
    complete (failed code) (commitCursor c s) = { s.ended with
      pos := BitVec.ofNat 64 c.pos
      lenbits := BitVec.ofNat 64 c.lenbits
      status := { s.status.completed false false code with sticky := c.sticky } } := rfl

/-- The completion of H264SPS with the sizes `g` at the cursor `c` (42_h264_sps.md R168). -/
theorem complete_writeH264Size (g : Geometry) (c : Cur) (s : State) :
    complete (succeeded false) (writeH264Size g (commitCursor c s)) = { s.ended with
      pos := BitVec.ofNat 64 c.pos
      lenbits := BitVec.ofNat 64 c.lenbits
      outWidth := BitVec.ofInt 64 g.width
      outHeight := BitVec.ofInt 64 g.height
      status := { s.status.completed true false .none with sticky := c.sticky } } := rfl

/-- A frame flag that reads 0 where it is absent leaves two fields to a frame (R166). -/
theorem two_sub_flag (b : Bool) (left : Nat) :
    2 - ((if left = 0 then 0 else b.toNat : Nat) : Int) = if b = true ∧ 0 < left then 1 else 2 := by
  rcases Nat.eq_zero_or_pos left with rfl | h
  · simp
  · cases b <;> simp [Nat.pos_iff_ne_zero.mp h, h]

/-- The bits between the macroblock height and the crop offsets. -/
theorem frameFlags_length (x : Sps) :
    (bitsOf x.frameFlags).length = (bitsOf x.mbaffElements).length + 2 := by
  simp [Sps.frameFlags_eq]

/-- Settles O52: the walk's cut forms (`h264Walk_stopsCut`, `h264Walk_readsCut`) from the fresh cursor, and
the sizes of what it answers. -/
theorem h264spsOnACutSps : Obligations.H264spsOnACutSps := by
  intro s x hd hlegal hlen hbits hcut N pW pH pF c pL pR pT pB W H
  have hlen' : s.len.toNat ≠ 0 := fun h => hlen (BitVec.eq_of_toNat_eq h)
  have h8 : 8 * s.len.toNat % 8 = 0 := Nat.mul_mod_right 8 _
  refine ⟨fun hm => ?_, fun hm => ?_⟩
  · obtain ⟨e, he⟩ := StopsCut.fresh (h264Walk_stopsCut hd h8 hlegal) hbits hcut
    refine (execH264sps_eq s).trans (congrArg _ ?_)
    rw [hm, he, completeSession_error _ _ _ hlen', complete_failed_commitCursor]
  · obtain ⟨e, he⟩ := ReadsCut.fresh (h264Walk_readsCut hd h8 hlegal) hbits
    have hflags : pL = pF + ((bitsOf x.mbaffElements).length + 2) + 1 :=
      congrArg (pF + · + 1) (frameFlags_length x)
    have hpH : N - pH = N - pW - (ueBits x.wm1).length := Nat.sub_sub ..|>.symm
    have hpF : N - pF = N - pH - (ueBits x.hm1).length := Nat.sub_sub ..|>.symm
    have hpL : N - pL = N - pF - 1 - (bitsOf x.mbaffElements).length - 1 - 1 := by omega
    have hpR : N - pR = N - pL - (ueBits c.cl).length := Nat.sub_sub ..|>.symm
    have hpT : N - pT = N - pR - (ueBits c.cr).length := Nat.sub_sub ..|>.symm
    have hpB : N - pB = N - pT - (ueBits c.ct).length := Nat.sub_sub ..|>.symm
    have hread : cutWidth x (N - pW) =
        { wm1 := cutCode (N - pW) x.wm1, hm1 := cutCode (N - pH) x.hm1
          fmo := if N - pF = 0 then 0 else x.fmo.toNat
          cl := cutCode (N - pL) c.cl, cr := cutCode (N - pR) c.cr
          ct := cutCode (N - pT) c.ct, cb := cutCode (N - pB) c.cb } := by
      rw [hpB, hpT, hpR, hpL, hpF, hpH]
      rfl
    have hwidth : (cutWidth x (N - pW)).width = W := by rw [hread]; rfl
    have hheight : (cutWidth x (N - pW)).height = H := by
      rw [hread, Geometry.height, two_sub_flag]
      simp only [Nat.sub_pos_iff_lt]
      rfl
    refine (execH264sps_eq s).trans (congrArg _ ?_)
    rw [hm, he, completeSession_ok _ _ _ hlen', complete_writeH264Size, hwidth, hheight]

end Machine
end Sys2Proof
end

section
/-! SUPPORT. VP9PROPS stage by stage on the elements of a key-frame header, whole or cut (43_vp9.md R190 to
R199). -/

namespace Sys2Proof

/-! ### The elements of a header, stage by stage -/

/-- The preamble (R190). -/
def Vp9Header.preambleElements (x : Vp9Header) : List Element :=
  .u (uBits 2 2) :: .flag (x.profile.testBit 0) :: .flag (x.profile.testBit 1) ::
    ((if x.profile = 3 then [.flag x.reserved] else []) ++ [.flag false, .flag false])

/-- The flags in front of the sync code, and the sync code (R193). -/
def Vp9Header.syncElements (x : Vp9Header) : List Element :=
  [.flag x.showFrame, .flag x.errorResilient, .u (uBits 24 0x498342)]

/-- The bit depth's flag (R194). -/
def Vp9Header.depthElements (x : Vp9Header) : List Element :=
  if 2 ≤ x.profile then [.flag x.twelve] else []

/-- The subsampling flags, which stand in the odd profiles (R196). -/
def Vp9Header.subsamplingElements (x : Vp9Header) : List Element :=
  if x.profile.testBit 0 then [.flag x.ssx, .flag x.ssy, .flag x.colorReserved] else []

/-- The colour configuration behind the colour space (R196, R197). -/
def Vp9Header.configElements (x : Vp9Header) : List Element :=
  if x.cs = 7 then [.flag x.colorReserved] else .flag x.fs :: x.subsamplingElements

/-- The render flag and the render size (R199). -/
def renderElements : Option (Nat × Nat) → List Element
  | none => [.flag false]
  | some (dw, dh) => [.flag true, .u (uBits 16 (dw - 1)), .u (uBits 16 (dh - 1))]

theorem Vp9Header.start_eq (x : Vp9Header) : x.start = x.preambleElements ++ x.syncElements := by
  simp [Vp9Header.start, Vp9Header.preambleElements, Vp9Header.syncElements]

theorem Vp9Header.color_eq (x : Vp9Header) :
    x.color = x.depthElements ++ (.u (uBits 3 x.cs) :: x.configElements) := by
  simp [Vp9Header.color, Vp9Header.depthElements, Vp9Header.configElements,
    Vp9Header.subsamplingElements]

theorem Vp9Header.size_eq (x : Vp9Header) : x.size =
    .u (uBits 16 (x.w - 1)) :: .u (uBits 16 (x.h - 1)) :: renderElements x.render := by
  unfold Vp9Header.size renderElements
  cases x.render <;> rfl

/-- Every field fits its code, as `Vp9Header.legal` checks it. -/
structure Vp9Header.Fits (x : Vp9Header) : Prop where
  profile : x.profile < 4
  cs : x.cs < 8
  odd : x.cs ≠ 7 ∨ x.profile.testBit 0 = true
  pad : x.pad.length < 8
  aligned : (bitsOf x.front).length % 8 = 0
  w : vp9SizeLegal x.w = true
  h : vp9SizeLegal x.h = true
  render : ∀ dw dh, x.render = some (dw, dh) → vp9SizeLegal dw = true ∧ vp9SizeLegal dh = true

theorem Vp9Header.fits_of_legal {x : Vp9Header} (h : x.legal = true) : x.Fits := by
  simp only [Vp9Header.legal, Bool.and_eq_true, Bool.or_eq_true, decide_eq_true_eq] at h
  obtain ⟨⟨⟨⟨⟨⟨⟨hprofile, hcs⟩, hodd⟩, hpad⟩, haligned⟩, hw⟩, hh⟩, hrender⟩ := h
  refine ⟨hprofile, hcs, hodd, hpad, haligned, hw, hh, fun dw dh hr => ?_⟩
  rw [hr] at hrender
  simpa using hrender

/-- A legal size minus 1 fits its field (R199). -/
theorem vp9SizeLegal_pred {n : Nat} (h : vp9SizeLegal n = true) : n - 1 < 2 ^ 16 ∧ n - 1 + 1 = n := by
  simp only [vp9SizeLegal, Bool.and_eq_true, decide_eq_true_eq] at h
  omega

namespace Machine

/-! ### The parts of the walk -/

/-- The walk up to the sync code: the profile (R190, R193). -/
def vp9Start (v : View) (m : Mode) : Walk Nat := do
  let (profile, ft) ← vp9Preamble v m
  stageKeyframeSync v m ft
  return profile

/-- Bit depth, colour space and colour configuration (R194 to R197). -/
def vp9Color (v : View) (m : Mode) (srgbFullSwing : Bool) (profile : Nat) :
    Walk (Nat × Nat × ColorConfig) := do
  let bd ← stageBitdepth v m profile
  let cs ← rd v m 3
  let color ← stageColor v m srgbFullSwing profile cs
  return (bd, cs, color)

/-- The walk from the byte alignment on (R198, R199). -/
def vp9Tail (v : View) (m : Mode) (profile : Nat) (c : Nat × Nat × ColorConfig) : Walk Vp9Props := do
  let _ ← rdAlign v m
  let size ← stageSize v m
  return { profile := profile, bd := c.1, cs := c.2.1, color := c.2.2, size := size }

theorem vp9PropsWalk_eq (v : View) (m : Mode) (srgbFullSwing : Bool) :
    vp9PropsWalk v m srgbFullSwing = (do
      let profile ← vp9Start v m
      let c ← vp9Color v m srgbFullSwing profile
      vp9Tail v m profile c) := by
  simp only [vp9PropsWalk, vp9Start, vp9Color, vp9Tail, bind_assoc, pure_bind]

/-- The flags and the sync code (R193). -/
def syncCode (v : View) (m : Mode) : Walk Nat := do
  let _ ← rd v m 1
  let _ ← rd v m 1
  rd v m 24

/-- The check of the sync code (R193). -/
def checkSync (sync : Nat) : Walk Unit := do
  if sync ≠ 0x498342 then fail .sync

theorem stageKeyframeSync_keyframe (v : View) (m : Mode) :
    stageKeyframeSync v m 0 = syncCode v m >>= checkSync := by
  simp only [syncCode, bind_assoc]
  rfl

/-- The render size behind its flag (R199). -/
def sizeRender (v : View) (m : Mode) (w h : Nat) : Walk Vp9Size := do
  let differs ← rd v m 1
  if differs = 1 then
    let dw ← rd v m 16
    let dh ← rd v m 16
    return { w := w + 1, h := h + 1, dw := dw + 1, dh := dh + 1 }
  else
    return { w := w + 1, h := h + 1, dw := w + 1, dh := h + 1 }

/-- The size from the height on (R199). -/
def sizeHeight (v : View) (m : Mode) (w : Nat) : Walk Vp9Size := do
  let h ← rd v m 16
  sizeRender v m w h

theorem stageSize_eq (v : View) (m : Mode) : stageSize v m = (do
    let w ← rd v m 16
    sizeHeight v m w) := rfl

section
variable {v : View} (hv : v.disturbed = false) {len : Nat} {x : Vp9Header}
include hv

/-! ### Whole headers, and the strict policy on cut ones -/

/-- The preamble of a key frame: the profile, and frame_type 0. -/
theorem vp9Preamble_parses (hp : x.profile < 4) :
    Walk.Parses v len (fun m => vp9Preamble v m) x.preambleElements (x.profile, 0) := by
  have hprofile : 2 * (x.profile.testBit 1).toNat + (x.profile.testBit 0).toNat = x.profile := by
    simp only [Nat.toNat_testBit]; omega
  have hend : Walk.Parses v len (fun m => (do
      let showExisting ← rd v m 1
      if showExisting = 1 then fail .showExisting
      let ft ← rd v m 1
      return (x.profile, ft) : Walk (Nat × Nat))) [.flag false, .flag false] (x.profile, 0) :=
    .bind (a := [.flag false]) (flag_parsesOn hv false).toParses <|
      .ite_neg (by decide) <| .last (flag_parsesOn hv false).toParses (.pure _)
  refine .bind (rd_parsesOn hv (by omega) (by omega) (by omega)).toParses ?_
  refine .ite_neg (by simp) ?_
  refine .bind (flag_parsesOn hv _).toParses <| .bind (flag_parsesOn hv _).toParses ?_
  simp only [hprofile]
  by_cases h3 : x.profile = 3
  · rw [if_pos h3]
    exact .ite_pos h3 <| .bind (flag_parsesOn hv x.reserved).toParses hend
  · rw [if_neg h3]
    exact .ite_neg h3 hend

theorem syncCode_parses :
    Walk.Parses v len (fun m => syncCode v m) x.syncElements 0x498342 :=
  .bind (flag_parsesOn hv x.showFrame).toParses <|
  .bind (flag_parsesOn hv x.errorResilient).toParses <|
  (rd_parsesOn hv (by omega) (by omega) (by omega)).toParses

theorem vp9Start_parses (hp : x.profile < 4) :
    Walk.Parses v len (fun m => vp9Start v m) x.start x.profile := by
  rw [Vp9Header.start_eq]
  refine .bind (vp9Preamble_parses hv hp) ?_
  simp only [stageKeyframeSync_keyframe]
  exact .last (.last (syncCode_parses hv) (.pure ())) (.pure _)

theorem stageBitdepth_parses :
    Walk.Parses v len (fun m => stageBitdepth v m x.profile) x.depthElements x.bitDepth := by
  unfold Vp9Header.depthElements Vp9Header.bitDepth
  by_cases h2 : 2 ≤ x.profile
  · rw [if_pos h2, if_pos h2]
    refine .ite_pos h2 <| .last (flag_parsesOn hv x.twelve).toParses ?_
    cases x.twelve <;> exact .pure _
  · rw [if_neg h2, if_neg h2]
    exact .ite_neg h2 (.pure _)

/-- The colour configuration as the header holds it (R196, R197). -/
def colorConfig (x : Vp9Header) (srgbFullSwing : Bool) : ColorConfig :=
  if x.cs = 7 then { fs := srgbFullSwing, ssx := false, ssy := false }
  else { fs := x.fs, ssx := !x.profile.testBit 0 || x.ssx, ssy := !x.profile.testBit 0 || x.ssy }

end

theorem decide_flag (b : Bool) : decide (b.toNat = 1) = b := by cases b <;> rfl

/-- The profiles that read their subsampling are the odd ones (R196, R197). -/
theorem profile_odd_iff {p : Nat} (hp : p < 4) : (p = 1 ∨ p = 3) ↔ p.testBit 0 = true := by
  rw [Nat.testBit_zero, decide_eq_true_iff]; omega

/-- The coded and the display size of a header (R199). -/
def headerSize (x : Vp9Header) : Vp9Size :=
  { w := x.w, h := x.h, dw := x.display.1, dh := x.display.2 }

section
variable {v : View} (hv : v.disturbed = false) {len : Nat} {x : Vp9Header}
include hv

theorem stageColor_parses (hx : x.Fits) (srgbFullSwing : Bool) :
    Walk.Parses v len (fun m => stageColor v m srgbFullSwing x.profile x.cs)
      x.configElements (colorConfig x srgbFullSwing) := by
  have hodd := profile_odd_iff hx.profile
  unfold Vp9Header.configElements colorConfig
  by_cases h7 : x.cs = 7
  · have hprofile : ¬(x.profile ≠ 1 ∧ x.profile ≠ 3) := by
      have := hodd.mpr (hx.odd.resolve_left (not_not_intro h7))
      tauto
    rw [if_pos h7, if_pos h7]
    exact .ite_neg (not_not_intro h7) <| .last (flag_parsesOn hv x.colorReserved).toParses <|
      .ite_neg hprofile (.pure _)
  · rw [if_neg h7, if_neg h7]
    refine .ite_pos h7 <| .bind (a := [.flag x.fs]) (b := x.subsamplingElements)
      (flag_parsesOn hv x.fs).toParses ?_
    simp only [decide_flag]
    unfold Vp9Header.subsamplingElements
    by_cases ho : x.profile.testBit 0 = true
    · rw [if_pos ho]
      refine .ite_pos (hodd.mpr ho) <| .bind (flag_parsesOn hv x.ssx).toParses <|
        .bind (flag_parsesOn hv x.ssy).toParses <| .last (flag_parsesOn hv x.colorReserved).toParses ?_
      simp only [decide_flag, ho, Bool.not_true, Bool.false_or]
      exact .pure _
    · rw [if_neg ho]
      refine .ite_neg (mt hodd.mp ho) ?_
      simp only [Bool.not_eq_true] at ho
      simp only [ho, Bool.not_false, Bool.true_or]
      exact .pure _

theorem vp9Color_parses (hx : x.Fits) (srgbFullSwing : Bool) :
    Walk.Parses v len (fun m => vp9Color v m srgbFullSwing x.profile) x.color
      (x.bitDepth, x.cs, colorConfig x srgbFullSwing) := by
  rw [Vp9Header.color_eq]
  exact .bind (stageBitdepth_parses hv) <|
    .bind (rd_parsesOn hv (by omega) (by omega) hx.cs).toParses <|
    .last (stageColor_parses hv hx srgbFullSwing) (.pure _)

theorem sizeRender_parses (hx : x.Fits) : Walk.Parses v len
    (fun m => sizeRender v m (x.w - 1) (x.h - 1)) (renderElements x.render) (headerSize x) := by
  obtain ⟨-, hw⟩ := vp9SizeLegal_pred hx.w
  obtain ⟨-, hh⟩ := vp9SizeLegal_pred hx.h
  unfold headerSize Vp9Header.display
  simp only [sizeRender, hw, hh]
  cases hr : x.render with
  | none => exact .last (flag_parsesOn hv false).toParses <| .ite_neg (by decide) (.pure _)
  | some d =>
    obtain ⟨dw, dh⟩ := d
    obtain ⟨hdw, hdh⟩ := hx.render dw dh hr
    obtain ⟨hdw', hdw⟩ := vp9SizeLegal_pred hdw
    obtain ⟨hdh', hdh⟩ := vp9SizeLegal_pred hdh
    refine .bind (a := [.flag true]) (flag_parsesOn hv true).toParses <| .ite_pos rfl <|
      .bind (a := [.u (uBits 16 (dw - 1))]) (rd_parsesOn hv (by omega) (by omega) hdw').toParses <|
      .last (rd_parsesOn hv (by omega) (by omega) hdh').toParses ?_
    simp only [hdw, hdh]
    exact .pure _

theorem stageSize_parses (hx : x.Fits) :
    Walk.Parses v len (fun m => stageSize v m) x.size (headerSize x) := by
  rw [Vp9Header.size_eq]
  exact .bind (rd_parsesOn hv (by omega) (by omega) (vp9SizeLegal_pred hx.w).1).toParses <|
    .bind (rd_parsesOn hv (by omega) (by omega) (vp9SizeLegal_pred hx.h).1).toParses <|
    sizeRender_parses hv hx

end

/-! ### The sizes of a cut header -/

/-- The sizes where the render flag is absent or 0: the display size mirrors the coded one (R199). -/
def mirrored (w h : Nat) : Vp9Size := { w := w + 1, h := h + 1, dw := w + 1, dh := h + 1 }

/-- The sizes read where `left` bits remain in front of the render flag, the coded size being read. -/
def cutSizeRender (x : Vp9Header) (w h left : Nat) : Vp9Size :=
  match x.render with
  | none => mirrored w h
  | some (dw, dh) =>
    if left = 0 then mirrored w h
    else { mirrored w h with
      dw := cutField 16 (left - 1) (dw - 1) + 1, dh := cutField 16 (left - 1 - 16) (dh - 1) + 1 }

/-- The sizes read where `left` bits remain in front of the height. -/
def cutSizeHeight (x : Vp9Header) (w left : Nat) : Vp9Size :=
  cutSizeRender x w (cutField 16 left (x.h - 1)) (left - 16)

/-- The sizes read where `left` bits remain in front of the width. -/
def cutSize (x : Vp9Header) (left : Nat) : Vp9Size :=
  cutSizeHeight x (cutField 16 left (x.w - 1)) (left - 16)

theorem cutSizeRender_zero (x : Vp9Header) (w h : Nat) : cutSizeRender x w h 0 = mirrored w h := by
  unfold cutSizeRender
  cases x.render <;> rfl

theorem cutSizeHeight_zero {x : Vp9Header} (hx : x.Fits) (w : Nat) :
    cutSizeHeight x w 0 = mirrored w 0 := by
  rw [cutSizeHeight, cutField_zero (vp9SizeLegal_pred hx.h).1, Nat.zero_sub, cutSizeRender_zero]

theorem cutSize_zero {x : Vp9Header} (hx : x.Fits) : cutSize x 0 = mirrored 0 0 := by
  rw [cutSize, cutField_zero (vp9SizeLegal_pred hx.w).1, Nat.zero_sub, cutSizeHeight_zero hx]

theorem sizeRender_drained (v : View) (len w h : Nat) :
    Walk.Drained len (sizeRender v .lenient w h) true (mirrored w h) :=
  Drained.bind (rd_drained v len 1) <| Drained.pure len _

theorem sizeHeight_drained (v : View) (len w : Nat) :
    Walk.Drained len (sizeHeight v .lenient w) true (mirrored w 0) :=
  Drained.bind (rd_drained v len 16) <| sizeRender_drained v len w 0

theorem stageSize_drained (v : View) (len : Nat) :
    Walk.Drained len (stageSize v .lenient) true (mirrored 0 0) :=
  Drained.bind (rd_drained v len 16) <| sizeHeight_drained v len 0

/-- A walk on a cut list answers what its description says, however that is spelled. -/
theorem ReadsCut.congr {α : Type} {v : View} {len : Nat} {w : Walk α} {es : List Element}
    {y z : Nat → α} (h : ∀ left, y left = z left) (hw : Walk.ReadsCut v len w es y) :
    Walk.ReadsCut v len w es z := funext h ▸ hw

section
variable {v : View} (hv : v.disturbed = false) {len : Nat} {x : Vp9Header} (hx : x.Fits)
include hv hx

theorem sizeRender_readsCut (w h : Nat) : Walk.ReadsCut v len (sizeRender v .lenient w h)
    (renderElements x.render) (cutSizeRender x w h) := by
  unfold cutSizeRender
  cases hr : x.render with
  | none => exact ReadsCut.last (rd_readsCut_flag hv len false) fun left c => ⟨c.serial, by simp; rfl⟩
  | some d =>
    obtain ⟨dw, dh⟩ := d
    obtain ⟨hdw, hdh⟩ := hx.render dw dh hr
    obtain ⟨hdw, -⟩ := vp9SizeLegal_pred hdw
    obtain ⟨hdh, -⟩ := vp9SizeLegal_pred hdh
    have hheight := ReadsCut.last (f := fun dh' => (pure { mirrored w h with
        dw := dw - 1 + 1, dh := dh' + 1 } : Walk Vp9Size))
      (rd_readsCut hv len (by omega) (by omega) hdh) fun _ c => ⟨c.serial, rfl⟩
    have hsize := ReadsCut.field hv (by omega) (by omega) hdw (f := fun dw' =>
        rd v .lenient 16 >>= fun dh' => (pure { mirrored w h with
          dw := dw' + 1, dh := dh' + 1 } : Walk Vp9Size))
      (y := fun dw' left => { mirrored w h with
        dw := dw' + 1, dh := cutField 16 left (dh - 1) + 1 })
      (List.cons_ne_nil _ _) (fun dw' => by
        rw [cutField_zero hdh]
        exact Drained.bind (rd_drained v len 16) (Drained.pure len _)) hheight
    have hflag := ReadsCut.flag (b := true) (k := false) hv (f := fun differs =>
        if differs = 1 then rd v .lenient 16 >>= fun dw' => rd v .lenient 16 >>= fun dh' =>
          (pure { mirrored w h with dw := dw' + 1, dh := dh' + 1 } : Walk Vp9Size)
        else pure (mirrored w h))
      (y := fun differs left => if differs = 1 then { mirrored w h with
          dw := cutField 16 left (dw - 1) + 1, dh := cutField 16 (left - 16) (dh - 1) + 1 }
        else mirrored w h)
      (List.cons_ne_nil _ _) (Drained.pure len _) hsize
    refine ReadsCut.congr (fun left => ?_) hflag
    by_cases hleft : left = 0 <;> simp [hleft]

theorem sizeHeight_readsCut (w : Nat) : Walk.ReadsCut v len (sizeHeight v .lenient w)
    (.u (uBits 16 (x.h - 1)) :: renderElements x.render) (cutSizeHeight x w) := by
  have hne : renderElements x.render ≠ [] := by
    unfold renderElements; cases x.render <;> exact List.cons_ne_nil _ _
  refine ReadsCut.field (y := cutSizeRender x w) hv (by omega) (by omega) (vp9SizeLegal_pred hx.h).1
    hne (fun h => ?_) (sizeRender_readsCut hv hx w (x.h - 1))
  rw [cutSizeRender_zero]
  exact sizeRender_drained v len w h

theorem stageSize_readsCut : Walk.ReadsCut v len (stageSize v .lenient) x.size (cutSize x) := by
  rw [Vp9Header.size_eq]
  refine ReadsCut.field (y := cutSizeHeight x) hv (by omega) (by omega) (vp9SizeLegal_pred hx.w).1
    (List.cons_ne_nil _ _) (fun w => ?_) (sizeHeight_readsCut hv hx (x.w - 1))
  rw [cutSizeHeight_zero hx]
  exact sizeHeight_drained v len w

end


end Machine
end Sys2Proof
end

section
/-! SUPPORT. VP9PROPS on a buffer that ends inside the header: the parts in front of the byte alignment, and
from it on (43_vp9.md R193 to R199). -/

namespace Sys2Proof.Machine

/-! ### Where a list of elements is cut -/

/-- Where no more is left than a list takes, what stands behind it is absent. -/
theorem absentIn_append_of_le {left : Nat} {a b : List Element} (h : left ≤ (bitsOf a).length)
    (hb : b ≠ []) : absentIn left (a ++ b) = true := by
  rw [absentIn_append, show left - (bitsOf a).length = 0 by omega, absentIn_zero hb, Bool.or_true]

/-- The walk reads the elements `es` as far as they are there, and answers `x` wherever at least `n` of
their bits are. -/
def Walk.ReadsFrom {α : Type} (v : View) (len n : Nat) (w : Walk α) (es : List Element) (x : α) : Prop :=
  ∀ c, c.lenbits = len → c.pos + n ≤ len → v.holds c.pos ((bitsOf es).take (len - c.pos)) →
    ∃ e, w c = .ok x { c with
      pos := c.pos + lenientStop (len - c.pos) es
      sticky := c.sticky || absentIn (len - c.pos) es, serial := e }

section
variable {α β : Type} {v : View} {len : Nat}

theorem Walk.ReadsFrom.of_readsCut {w : Walk α} {es : List Element} {x : α}
    (h : Walk.ReadsCut v len w es fun _ => x) : Walk.ReadsFrom v len 0 w es x :=
  fun c hc _ hh => h c hc hh

theorem Walk.ReadsFrom.bind {w : Walk α} {f : α → Walk β} {a b : List Element} {x : α} {y : β} {n : Nat}
    (ha : allReadable a) (hw : Walk.Reads v len w (bitsOf a) x)
    (hf : Walk.ReadsFrom v len n (f x) b y) :
    Walk.ReadsFrom v len ((bitsOf a).length + n) (w >>= f) (a ++ b) y := by
  intro c hc hn hh
  rw [bitsOf_append, List.take_append, View.holds_append, List.take_of_length_le (by omega)] at hh
  obtain ⟨d, hd⟩ := hw c hc hh.1 (by omega)
  obtain ⟨e, he⟩ := hf { c with pos := c.pos + (bitsOf a).length, serial := d } hc
    (by simp only; omega) (by simpa only [← Nat.sub_sub] using hh.2)
  refine ⟨e, ?_⟩
  rw [walk_bind_ok hd, he, lenientStop_append_whole b ha (by omega), absentIn_append,
    (lenientStop_whole ha (by omega)).2]
  simp [Nat.add_assoc, Nat.sub_sub]

end

/-! ### The byte alignment (R198) -/

/-- In front of the end, the alignment of `k` bits to the byte boundary reads them. -/
theorem rdAlign_reads {c : Cur} {k : Nat} (h8 : c.lenbits % 8 = 0) (hk : k < 8)
    (hb : (c.pos + k) % 8 = 0) (hle : c.pos + k ≤ c.lenbits) (v : View) (m : Mode) :
    ∃ a e, rdAlign v m c = .ok a { c with pos := c.pos + k, serial := e } := by
  by_cases hon : c.pos % 8 = 0
  · obtain rfl : k = 0 := by omega
    exact ⟨0, c.serial, elem_some (alignTo_of_aligned hon v m)⟩
  · obtain rfl : k = 8 - c.pos % 8 := by omega
    exact ⟨_, _, elem_some (alignTo_skips h8 hon (by omega) v m)⟩

/-- At or past the end the alignment moves nothing. -/
theorem rdAlign_dries (v : View) (len : Nat) : Walk.Dries len (rdAlign v .lenient) := by
  intro c hc hp
  by_cases hon : c.pos % 8 = 0
  · exact ⟨0, c.sticky, c.serial, elem_some (alignTo_of_aligned hon v .lenient)⟩
  · refine ⟨0, true, c.serial, ?_⟩
    simp [rdAlign, elem, alignTo_absent hon (hc ▸ hp), Cur.markSticky]

/-! ### The elements of a header in front of the padding -/

end Sys2Proof.Machine

namespace Sys2Proof

/-- The elements in front of the padding. -/
def Vp9Header.head (x : Vp9Header) : List Element := x.start ++ x.color

/-- The padding and the size. -/
def Vp9Header.rest (x : Vp9Header) : List Element := x.padding ++ x.size

theorem Vp9Header.elements_eq (x : Vp9Header) : x.elements = x.head ++ x.rest := by
  simp [Vp9Header.elements, Vp9Header.front, Vp9Header.head, Vp9Header.rest]

theorem Vp9Header.front_eq (x : Vp9Header) : x.front = x.head ++ x.padding := rfl

@[simp] theorem Vp9Header.bits_padding (x : Vp9Header) : bitsOf x.padding = x.pad := by
  unfold Vp9Header.padding
  split <;> simp [*]

theorem Vp9Header.front_length (x : Vp9Header) :
    (bitsOf x.front).length = (bitsOf x.head).length + x.pad.length := by
  rw [x.front_eq, bitsOf_append, List.length_append, x.bits_padding]

theorem Vp9Header.allReadable_padding (x : Vp9Header) : allReadable x.padding := by
  unfold Vp9Header.padding
  split
  · exact fun _ h => absurd h List.not_mem_nil
  · rename_i h
    intro e he
    obtain rfl := List.mem_singleton.mp he
    exact List.length_pos_iff.mpr h

theorem Vp9Header.rest_ne_nil (x : Vp9Header) : x.rest ≠ [] :=
  List.append_ne_nil_of_right_ne_nil _ (List.cons_ne_nil _ _)

theorem Vp9Header.allReadable_preamble (x : Vp9Header) : allReadable x.preambleElements := by
  unfold Vp9Header.preambleElements
  split <;> simp [allReadable, Element.needs, Element.flag]

theorem Vp9Header.allReadable_sync (x : Vp9Header) : allReadable x.syncElements := by
  simp [Vp9Header.syncElements, allReadable, Element.needs, Element.flag]

theorem Vp9Header.allReadable_start (x : Vp9Header) : allReadable x.start :=
  x.start_eq ▸ Machine.allReadable_append x.allReadable_preamble x.allReadable_sync

theorem Vp9Header.allReadable_depth (x : Vp9Header) : allReadable x.depthElements := by
  unfold Vp9Header.depthElements
  split <;> simp [allReadable, Element.needs, Element.flag]

theorem Vp9Header.allReadable_config (x : Vp9Header) : allReadable x.configElements := by
  unfold Vp9Header.configElements Vp9Header.subsamplingElements
  repeat' split
  all_goals simp [allReadable, Element.needs, Element.flag]

theorem Vp9Header.allReadable_color (x : Vp9Header) : allReadable x.color := by
  rw [x.color_eq]
  refine Machine.allReadable_append x.allReadable_depth
    (Machine.allReadable_append (a := [_]) ?_ x.allReadable_config)
  simp [allReadable, Element.needs]

theorem Vp9Header.allReadable_head (x : Vp9Header) : allReadable x.head :=
  Machine.allReadable_append x.allReadable_start x.allReadable_color

theorem Vp9Header.preamble_length (x : Vp9Header) :
    (bitsOf x.preambleElements).length = if x.profile = 3 then 7 else 6 := by
  unfold Vp9Header.preambleElements
  split <;> simp

theorem Vp9Header.start_length (x : Vp9Header) :
    (bitsOf x.start).length = (bitsOf x.preambleElements).length + 26 := by
  simp [x.start_eq, Vp9Header.syncElements]

theorem Vp9Header.color_length_le (x : Vp9Header) : (bitsOf x.color).length ≤ 8 := by
  rw [x.color_eq]
  unfold Vp9Header.depthElements Vp9Header.configElements Vp9Header.subsamplingElements
  repeat' split
  all_goals simp

/-- The colour space stands in front of the padding and behind 4 bytes. -/
theorem Vp9Header.head_length_gt (x : Vp9Header) : 32 < (bitsOf x.head).length := by
  have hstart := x.start_length
  rw [x.preamble_length] at hstart
  have hcolor : 3 ≤ (bitsOf x.color).length := by simp [x.color_eq]; omega
  rw [Vp9Header.head, bitsOf_append, List.length_append]
  split at hstart <;> omega

/-- Only a profile 3 header outside sRGB reaches past byte 5 with its colour configuration. -/
theorem Vp9Header.fields_of_head_gt {x : Vp9Header} (h : 40 < (bitsOf x.head).length) :
    x.profile = 3 ∧ x.cs ≠ 7 := by
  have hstart := x.start_length
  rw [x.preamble_length] at hstart
  have hcolor : (bitsOf x.color).length = (bitsOf x.depthElements).length + 3 +
      (bitsOf x.configElements).length := by simp [x.color_eq]; omega
  simp only [Vp9Header.head, bitsOf_append, List.length_append] at h
  have hle := x.color_length_le
  have h3 : x.profile = 3 := by
    by_contra h3
    simp only [if_neg h3] at hstart
    omega
  refine ⟨h3, fun h7 => ?_⟩
  simp [Vp9Header.depthElements, Vp9Header.configElements, h3, h7] at hcolor hstart
  omega

end Sys2Proof
end

section
/-! SUPPORT. VP9PROPS on a cut key-frame header, under the strict and under the lenient policy (43_vp9.md
R192 to R200). -/

namespace Sys2Proof.Machine

/-! ### The walk up to the padding -/

/-- The walk in front of the byte alignment (R190 to R197). -/
def vp9Head (v : View) (m : Mode) (srgbFullSwing : Bool) : Walk (Nat × (Nat × Nat × ColorConfig)) := do
  let profile ← vp9Start v m
  let c ← vp9Color v m srgbFullSwing profile
  return (profile, c)

theorem vp9PropsWalk_eq_head (v : View) (m : Mode) (srgbFullSwing : Bool) :
    vp9PropsWalk v m srgbFullSwing = vp9Head v m srgbFullSwing >>= fun p => vp9Tail v m p.1 p.2 := by
  simp only [vp9PropsWalk_eq, vp9Head, bind_assoc, pure_bind]

/-- What a header holds in front of the padding. -/
def headFields (x : Vp9Header) (srgbFullSwing : Bool) : Nat × (Nat × Nat × ColorConfig) :=
  (x.profile, x.bitDepth, x.cs, colorConfig x srgbFullSwing)

/-- What VP9PROPS answers of the fields in front of the padding and of the sizes. -/
def propsOf (p : Nat × (Nat × Nat × ColorConfig)) (size : Vp9Size) : Vp9Props :=
  { profile := p.1, bd := p.2.1, cs := p.2.2.1, color := p.2.2.2, size := size }

section
variable {v : View} (hv : v.disturbed = false) {len : Nat} {x : Vp9Header} (hx : x.Fits)
include hv hx

theorem vp9Head_parses (srgbFullSwing : Bool) :
    Walk.Parses v len (fun m => vp9Head v m srgbFullSwing) x.head (headFields x srgbFullSwing) :=
  .bind (vp9Start_parses hv hx.profile) <| .last (vp9Color_parses hv hx srgbFullSwing) (.pure _)

/-! ### From the padding on -/

variable {c : Cur} (hc : c.lenbits = len) (h8 : len % 8 = 0) (hb : (c.pos + x.pad.length) % 8 = 0)
  (hle : c.pos + x.pad.length ≤ len) (hh : v.holds c.pos ((bitsOf x.rest).take (len - c.pos)))
include hc h8 hb hle hh

theorem vp9Tail_stops (p : Nat × (Nat × Nat × ColorConfig))
    (hcut : len < c.pos + (bitsOf x.rest).length) :
    ∃ e, vp9Tail v .strict p.1 p.2 c = .error .absent { c with
      pos := c.pos + strictStop (len - c.pos) x.rest, sticky := true, serial := e } := by
  rw [Vp9Header.rest, bitsOf_append, List.take_append, View.holds_append, x.bits_padding,
    List.take_of_length_le (by omega)] at hh
  rw [Vp9Header.rest, bitsOf_append, List.length_append, x.bits_padding] at hcut
  obtain ⟨a, d, ha⟩ := rdAlign_reads (hc ▸ h8) hx.pad hb (hc ▸ hle) v .strict
  obtain ⟨e, he⟩ := StopsCut.last (f := fun size => (pure (propsOf p size) : Walk Vp9Props))
    (stageSize_parses (len := len) hv hx).stops { c with pos := c.pos + x.pad.length, serial := d } hc hle
    (by simpa only [← Nat.sub_sub] using hh.2) (by simp only; omega)
  refine ⟨e, ?_⟩
  rw [Vp9Header.rest, strictStop_append, x.bits_padding, if_pos (by omega)]
  refine (walk_bind_ok ha).trans (he.trans ?_)
  simp [Nat.add_assoc, Nat.sub_sub]

theorem vp9Tail_reads (p : Nat × (Nat × Nat × ColorConfig)) :
    ∃ e, vp9Tail v .lenient p.1 p.2 c =
      .ok (propsOf p (cutSize x (len - c.pos - x.pad.length))) { c with
        pos := c.pos + lenientStop (len - c.pos) x.rest
        sticky := c.sticky || absentIn (len - c.pos) x.rest, serial := e } := by
  rw [Vp9Header.rest, bitsOf_append, List.take_append, View.holds_append, x.bits_padding,
    List.take_of_length_le (by omega)] at hh
  obtain ⟨a, d, ha⟩ := rdAlign_reads (hc ▸ h8) hx.pad hb (hc ▸ hle) v .lenient
  obtain ⟨e, he⟩ := ReadsCut.last (f := fun size => (pure (propsOf p size) : Walk Vp9Props))
    (y := fun left => propsOf p (cutSize x left)) (stageSize_readsCut (len := len) hv hx)
    (fun _ c => ⟨c.serial, rfl⟩) { c with pos := c.pos + x.pad.length, serial := d } hc
    (by simpa only [← Nat.sub_sub] using hh.2)
  have hpad : (bitsOf x.padding).length ≤ len - c.pos := by rw [x.bits_padding]; omega
  refine ⟨e, ?_⟩
  rw [Vp9Header.rest, lenientStop_append_whole _ x.allReadable_padding hpad, absentIn_append,
    (lenientStop_whole x.allReadable_padding hpad).2, x.bits_padding]
  refine (walk_bind_ok ha).trans (he.trans ?_)
  simp [Nat.add_assoc, Nat.sub_sub]

end

/-- Behind the end the tail answers the size 1 by 1. -/
theorem vp9Tail_drained (v : View) (len : Nat) (p : Nat × (Nat × Nat × ColorConfig)) :
    Walk.Drained len (vp9Tail v .lenient p.1 p.2) true (propsOf p (mirrored 0 0)) :=
  (rdAlign_dries v len).bind_drained fun _ => Drained.bind (stageSize_drained v len) (Drained.pure len _)

/-! ### The sync code and the colour configuration on a cut buffer -/

theorem syncCode_readsCut {v : View} (hv : v.disturbed = false) (len : Nat) (x : Vp9Header) :
    Walk.ReadsCut v len (syncCode v .lenient) x.syncElements
      fun left => cutField 24 (left - 1 - 1) 0x498342 := by
  have hsync := rd_readsCut hv len (n := 24) (x := 0x498342) (by omega) (by omega) (by omega)
  have hzero := cutField_zero (n := 24) (x := 0x498342) (by omega)
  refine ReadsCut.behind (y := fun left => cutField 24 (left - 1) 0x498342)
    (flag_parsesOn hv x.showFrame) (List.cons_ne_nil _ _) (fun _ => ?_) <|
    ReadsCut.behind (y := fun left => cutField 24 left 0x498342)
      (flag_parsesOn hv x.errorResilient) (List.cons_ne_nil _ _) (fun _ => ?_) hsync
  · rw [Nat.zero_sub, hzero]
    exact Drained.bind (rd_drained v len 1) (rd_drained v len 24)
  · rw [hzero]
    exact rd_drained v len 24

/-- The sync code cut after at most 16 bits is another number, and cut after 23 it is itself: its last
bit is 0. -/
theorem cutField_sync : (∀ left ≤ 16, cutField 24 left 0x498342 ≠ 0x498342) ∧
    ∀ left, 23 ≤ left → cutField 24 left 0x498342 = 0x498342 := by
  refine ⟨by decide, fun left h => ?_⟩
  rcases Nat.eq_or_lt_of_le h with rfl | h
  · decide
  · exact cutField_whole h

section
variable {v : View} (hv : v.disturbed = false) {len : Nat} {x : Vp9Header} (hx : x.Fits)
include hv hx

/-- Where the preamble is there, the walk up to the sync code comes to the check of what it read of it. -/
theorem vp9Start_run {c : Cur} (hc : c.lenbits = len)
    (hpre : c.pos + (bitsOf x.preambleElements).length ≤ len)
    (hh : v.holds c.pos ((bitsOf x.start).take (len - c.pos))) :
    ∃ e, vp9Start v .lenient c =
      (checkSync (cutField 24 (len - c.pos - (bitsOf x.preambleElements).length - 1 - 1) 0x498342) >>=
        fun _ => pure x.profile) { c with
          pos := c.pos + lenientStop (len - c.pos) x.start
          sticky := c.sticky || absentIn (len - c.pos) x.start, serial := e } := by
  have hleft : (bitsOf x.preambleElements).length ≤ len - c.pos := by omega
  rw [x.start_eq, bitsOf_append, List.take_append, View.holds_append,
    List.take_of_length_le hleft] at hh
  obtain ⟨d, hd⟩ := (vp9Preamble_parses hv hx.profile).reads .lenient c hc hh.1 hpre
  obtain ⟨e, he⟩ := syncCode_readsCut hv len x
    { c with pos := c.pos + (bitsOf x.preambleElements).length, serial := d } hc
    (by simpa only [← Nat.sub_sub] using hh.2)
  refine ⟨e, ?_⟩
  rw [x.start_eq, lenientStop_append_whole _ x.allReadable_preamble hleft, absentIn_append,
    (lenientStop_whole x.allReadable_preamble hleft).2]
  refine (walk_bind_ok hd).trans ?_
  simp only [stageKeyframeSync_keyframe, bind_assoc]
  refine (walk_bind_ok he).trans ?_
  simp [Nat.add_assoc, Nat.sub_sub]

/-- The colour configuration of an odd profile without its reserved bit, whose value is not used. -/
theorem stageColor_readsFrom (srgbFullSwing : Bool) (hodd : x.profile.testBit 0 = true) (h7 : x.cs ≠ 7) :
    Walk.ReadsFrom v len 3 (stageColor v .lenient srgbFullSwing x.profile x.cs >>= fun color =>
      (pure (x.bitDepth, x.cs, color) : Walk (Nat × Nat × ColorConfig))) x.configElements
      (x.bitDepth, x.cs, colorConfig x srgbFullSwing) := by
  have hfs := flag_parsesOn (len := len) hv x.fs
  have hssx := flag_parsesOn (len := len) hv x.ssx
  have hssy := flag_parsesOn (len := len) hv x.ssy
  have hreserved := ReadsCut.last (f := fun _ => (pure (x.bitDepth, x.cs,
      ({ fs := x.fs, ssx := x.ssx, ssy := x.ssy } : ColorConfig)) : Walk (Nat × Nat × ColorConfig)))
    (rd_readsCut_flag hv len x.colorReserved) fun _ c => ⟨c.serial, rfl⟩
  have hconfig : x.configElements =
      .flag x.fs :: .flag x.ssx :: .flag x.ssy :: [.flag x.colorReserved] := by
    simp [Vp9Header.configElements, Vp9Header.subsamplingElements, h7, hodd]
  have hvalue : colorConfig x srgbFullSwing = { fs := x.fs, ssx := x.ssx, ssy := x.ssy } := by
    simp [colorConfig, h7, hodd]
  rw [hconfig, hvalue, stageColor, if_pos h7, stageColorYuv]
  simp only [(profile_odd_iff hx.profile).mpr hodd, if_true, bind_assoc, pure_bind]
  refine .bind (n := 2) hfs.readable (hfs.reads .lenient) <|
    .bind (n := 1) hssx.readable (hssx.reads .lenient) <|
    .bind (n := 0) hssy.readable (hssy.reads .lenient) ?_
  simp only [decide_flag]
  exact .of_readsCut hreserved

/-- On 5 bytes the colour configuration of a profile 3 header lacks at most the reserved bit. -/
theorem vp9Color_readsFrom (srgbFullSwing : Bool) (h3 : x.profile = 3) (h7 : x.cs ≠ 7) :
    Walk.ReadsFrom v len 7 (vp9Color v .lenient srgbFullSwing x.profile) x.color
      (x.bitDepth, x.cs, colorConfig x srgbFullSwing) := by
  have hdepth : (bitsOf x.depthElements).length = 1 := by
    simp [Vp9Header.depthElements, show 2 ≤ x.profile by omega]
  have hcs := rd_parsesOn (len := len) hv (n := 3) (by omega) (by omega) hx.cs
  have hcolor := Walk.ReadsFrom.bind (f := fun cs =>
      stageColor v .lenient srgbFullSwing x.profile cs >>= fun color =>
        (pure (x.bitDepth, cs, color) : Walk (Nat × Nat × ColorConfig)))
    hcs.readable (hcs.reads .lenient)
    (stageColor_readsFrom (len := len) hv hx srgbFullSwing (by rw [h3]; rfl) h7)
  have h := Walk.ReadsFrom.bind (f := fun bd => rd v .lenient 3 >>= fun cs =>
      stageColor v .lenient srgbFullSwing x.profile cs >>= fun color =>
        (pure (bd, cs, color) : Walk (Nat × Nat × ColorConfig)))
    x.allReadable_depth ((stageBitdepth_parses (len := len) hv).reads .lenient) hcolor
  have hbits : (bitsOf x.depthElements).length + ((bitsOf [.u (uBits 3 x.cs)]).length + 3) = 7 := by
    simp [hdepth]
  rw [hbits] at h
  rw [x.color_eq]
  exact h

/-- Where the colour configuration is absent it is all 0, but for the subsampling of the even profiles. -/
def emptyColor (profile : Nat) : Nat × Nat × ColorConfig :=
  (if 2 ≤ profile then 10 else 8, 0,
    { fs := false, ssx := !profile.testBit 0, ssy := !profile.testBit 0 })

omit hv in
theorem vp9Color_drained (v : View) (len : Nat) (srgbFullSwing : Bool) :
    ∃ k, Walk.Drained len (vp9Color v .lenient srgbFullSwing x.profile) k (emptyColor x.profile) := by
  have hrd := rd_drained v len
  have hdepth : ∃ k, Walk.Drained len (stageBitdepth v .lenient x.profile) k
      (if 2 ≤ x.profile then 10 else 8) := by
    unfold stageBitdepth
    split
    · exact ⟨_, Drained.bind (hrd 1) (Drained.pure len _)⟩
    · exact ⟨_, Drained.pure len _⟩
  have hcolor : ∃ k, Walk.Drained len (stageColor v .lenient srgbFullSwing x.profile 0) k
      { fs := false, ssx := !x.profile.testBit 0, ssy := !x.profile.testBit 0 } := by
    have hodd := profile_odd_iff hx.profile
    cases ho : x.profile.testBit 0
    · exact ⟨_, Drained.bind (hrd 1) (by
        rw [if_neg (by simp [hodd, ho])]; exact Drained.pure len _)⟩
    · exact ⟨_, Drained.bind (hrd 1) (by
        rw [if_pos (hodd.mpr ho)]
        exact Drained.bind (hrd 1) (Drained.bind (hrd 1) (Drained.bind (hrd 1) (Drained.pure len _))))⟩
  obtain ⟨j, hdepth⟩ := hdepth
  obtain ⟨k, hcolor⟩ := hcolor
  exact ⟨_, Drained.bind hdepth (Drained.bind (hrd 3) (Drained.bind hcolor (Drained.pure len _)))⟩

end

end Sys2Proof.Machine
end

section
/-! SUPPORT. VP9PROPS on a buffer that ends inside a key-frame header (43_vp9.md R192 to R200), and the
completion of the command. -/

namespace Sys2Proof.Machine

/-- A byte boundary behind the fields in front of the padding is behind the padding. -/
theorem front_le {x : Vp9Header} (hx : x.Fits) {len : Nat} (h8 : len % 8 = 0)
    (h : (bitsOf x.head).length ≤ len) : (bitsOf x.head).length + x.pad.length ≤ len := by
  have haligned := hx.aligned
  have hpad := hx.pad
  rw [x.front_length] at haligned
  omega

/-! ### VP9PROPS on a cut buffer -/

section
variable {v : View} (hv : v.disturbed = false) {len : Nat} (h8 : len % 8 = 0) {x : Vp9Header}
  (hx : x.Fits) {c : Cur} (hc : c.lenbits = len) (hpos : c.pos = 0)

include hv hx hc hpos

/-- The walk up to the sync code on 4 bytes or more: what it misses of the code, at most its last bit, is 0
(R193, R101). -/
theorem vp9Start_passes (hlen : 32 ≤ len) (hh : v.holds 0 ((bitsOf x.start).take len)) :
    ∃ e, vp9Start v .lenient c = .ok x.profile { c with
      pos := lenientStop len x.start, sticky := c.sticky || absentIn len x.start, serial := e } := by
  have hpre := x.preamble_length
  have hle : (bitsOf x.preambleElements).length ≤ 7 := by rw [hpre]; split <;> omega
  obtain ⟨e, he⟩ := vp9Start_run hv hx hc (by omega) (by rwa [hpos, Nat.sub_zero])
  rw [hpos, Nat.sub_zero, cutField_sync.2 _ (by omega), Nat.zero_add] at he
  exact ⟨e, he⟩

/-- On at most 3 bytes what is there of the sync code is not it (R193). -/
theorem vp9PropsWalk_sync (hlen : 8 ≤ len) (hlen' : len ≤ 24) (srgbFullSwing : Bool)
    (hh : v.holds 0 ((bitsOf x.start).take len)) :
    ∃ e, vp9PropsWalk v .lenient srgbFullSwing c = .error .sync { c with
      pos := lenientStop len x.start, sticky := c.sticky || absentIn len x.start, serial := e } := by
  have hpre := x.preamble_length
  have hge : 6 ≤ (bitsOf x.preambleElements).length := by rw [hpre]; split <;> omega
  have hle : (bitsOf x.preambleElements).length ≤ 7 := by rw [hpre]; split <;> omega
  obtain ⟨e, he⟩ := vp9Start_run hv hx hc (by omega) (by rwa [hpos, Nat.sub_zero])
  rw [hpos, Nat.sub_zero, Nat.zero_add, checkSync,
    if_pos (cutField_sync.1 (len - (bitsOf x.preambleElements).length - 1 - 1) (by omega))] at he
  refine ⟨e, ?_⟩
  rw [vp9PropsWalk_eq]
  exact walk_bind_error he

/-- Where the buffer ends in front of the padding, what the lenient policy reads there: on 4 bytes no
colour configuration, on 5 all of it but the reserved bit. -/
theorem vp9Head_cut (h8 : len % 8 = 0) (hlen : 32 ≤ len) (hcut : len < (bitsOf x.head).length)
    (srgbFullSwing : Bool) (hh : v.holds 0 ((bitsOf x.head).take len)) :
    ∃ k e, vp9Head v .lenient srgbFullSwing c =
      .ok (if len = 32 then (x.profile, emptyColor x.profile) else headFields x srgbFullSwing)
        { c with pos := lenientStop len x.head, sticky := k, serial := e } := by
  have hpre := x.preamble_length
  have hstart := x.start_length
  rw [Vp9Header.head, bitsOf_append, List.take_append, View.holds_append] at hh
  obtain ⟨d, hd⟩ := vp9Start_passes hv hx hc hpos hlen hh.1
  rcases Nat.eq_or_lt_of_le hlen with rfl | hgt
  · have hall : 32 ≤ (bitsOf x.start).length := by
      rw [hstart, hpre]; split <;> omega
    obtain ⟨k, hdrained⟩ := vp9Color_drained hx v 32 srgbFullSwing
    obtain ⟨e, he⟩ := hdrained { c with pos := lenientStop 32 x.start
                                        sticky := c.sticky || absentIn 32 x.start, serial := d }
      hc (le_lenientStop hall)
    rw [if_pos rfl, Vp9Header.head, lenientStop_append_of_le _ x.allReadable_start hall]
    exact ⟨_, e, (walk_bind_ok hd).trans (walk_bind_ok he)⟩
  · obtain ⟨h3, h7⟩ := x.fields_of_head_gt (by omega)
    rw [h3, if_pos rfl] at hpre
    obtain ⟨hstop, -⟩ := lenientStop_whole (left := len) x.allReadable_start (by omega)
    rw [hstop] at hd
    rw [List.take_of_length_le (by omega), Nat.zero_add] at hh
    obtain ⟨e, he⟩ := vp9Color_readsFrom hv hx srgbFullSwing h3 h7
      { c with pos := (bitsOf x.start).length
               sticky := c.sticky || absentIn len x.start, serial := d }
      hc (by simp only; omega) hh.2
    rw [if_neg (by omega), Vp9Header.head, lenientStop_append_whole _ x.allReadable_start (by omega)]
    exact ⟨_, e, (walk_bind_ok hd).trans (walk_bind_ok he)⟩

include h8

/-- The strict policy stops in front of the first element that is not whole, the padding being one. -/
theorem vp9PropsWalk_stops (srgbFullSwing : Bool) (hh : v.holds 0 (x.bits.take len))
    (hcut : len < x.bits.length) :
    ∃ e, vp9PropsWalk v .strict srgbFullSwing c = .error .absent { c with
      pos := strictStop len x.elements, sticky := true, serial := e } := by
  have hhead := vp9Head_parses (len := len) hv hx srgbFullSwing
  rw [Vp9Header.bits, x.elements_eq, bitsOf_append, List.take_append, View.holds_append] at hh
  rw [Vp9Header.bits, x.elements_eq, bitsOf_append, List.length_append] at hcut
  rw [vp9PropsWalk_eq_head, x.elements_eq, strictStop_append]
  by_cases hle : (bitsOf x.head).length ≤ len
  · have hfront := front_le hx h8 hle
    have haligned := hx.aligned
    rw [x.front_length] at haligned
    rw [List.take_of_length_le hle, Nat.zero_add] at hh
    obtain ⟨d, hd⟩ := hhead.reads .strict c hc (hpos ▸ hh.1) (by omega)
    rw [hpos, Nat.zero_add] at hd
    obtain ⟨e, he⟩ := vp9Tail_stops (len := len) (c := { c with
      pos := (bitsOf x.head).length, serial := d }) hv hx hc h8 haligned hfront hh.2
      (headFields x srgbFullSwing) hcut
    refine ⟨e, ?_⟩
    rw [if_pos hle]
    exact (walk_bind_ok hd).trans he
  · obtain ⟨e, he⟩ := hhead.stops c hc (by omega) (by rw [hpos, Nat.sub_zero]; exact hh.1) (by omega)
    rw [hpos, Nat.sub_zero, Nat.zero_add] at he
    exact ⟨e, by rw [if_neg hle]; exact walk_bind_error he⟩

/-- The lenient policy reads on, and what is absent is 0. -/
theorem vp9PropsWalk_reads (hlen : 32 ≤ len) (srgbFullSwing : Bool)
    (hh : v.holds 0 (x.bits.take len)) :
    ∃ e, vp9PropsWalk v .lenient srgbFullSwing c =
      .ok (propsOf (if len = 32 then (x.profile, emptyColor x.profile) else headFields x srgbFullSwing)
          (cutSize x (len - (bitsOf x.front).length)))
        { c with pos := lenientStop len x.elements
                 sticky := c.sticky || absentIn len x.elements, serial := e } := by
  rw [Vp9Header.bits, x.elements_eq, bitsOf_append, List.take_append, View.holds_append] at hh
  rw [vp9PropsWalk_eq_head, x.elements_eq, x.front_length]
  by_cases hle : (bitsOf x.head).length ≤ len
  · have hfront := front_le hx h8 hle
    have haligned := hx.aligned
    rw [x.front_length] at haligned
    rw [List.take_of_length_le hle, Nat.zero_add] at hh
    obtain ⟨d, hd⟩ := (vp9Head_parses (len := len) hv hx srgbFullSwing).reads .lenient c hc
      (hpos ▸ hh.1) (by omega)
    rw [hpos, Nat.zero_add] at hd
    obtain ⟨e, he⟩ := vp9Tail_reads (len := len) (c := { c with
      pos := (bitsOf x.head).length, serial := d }) hv hx hc h8 haligned hfront hh.2
      (headFields x srgbFullSwing)
    have h32 : len ≠ 32 := by
      have hhead := x.head_length_gt
      omega
    refine ⟨e, ?_⟩
    rw [if_neg h32, lenientStop_append_whole _ x.allReadable_head hle, absentIn_append,
      (lenientStop_whole x.allReadable_head hle).2, Bool.false_or, ← Nat.sub_sub]
    exact (walk_bind_ok hd).trans he
  · have hall : len ≤ (bitsOf x.head).length := by omega
    obtain ⟨k, d, hd⟩ := vp9Head_cut hv hx hc hpos h8 hlen (by omega) srgbFullSwing hh.1
    obtain ⟨e, he⟩ := vp9Tail_drained v len
      (if len = 32 then (x.profile, emptyColor x.profile) else headFields x srgbFullSwing)
      { c with pos := lenientStop len x.head, sticky := k, serial := d } hc (le_lenientStop hall)
    refine ⟨e, ?_⟩
    rw [lenientStop_append_of_le _ x.allReadable_head hall, absentIn_append_of_le hall x.rest_ne_nil,
      show len - ((bitsOf x.head).length + x.pad.length) = 0 by omega, cutSize_zero hx, Bool.or_true]
    refine (walk_bind_ok hd).trans (he.trans ?_)
    rw [Bool.or_true]

end

/-! ### The completion -/

/-- The completion of VP9PROPS with the answer `p` at the cursor `c` (R200). -/
theorem complete_writeVp9Props (p : Vp9Props) (c : Cur) (s : State) :
    complete (succeeded false) (writeVp9Props p (commitCursor c s)) = { s.ended with
      pos := BitVec.ofNat 64 c.pos
      lenbits := BitVec.ofNat 64 c.lenbits
      outWidth := BitVec.ofNat 64 p.size.w
      outHeight := BitVec.ofNat 64 p.size.h
      outDwidth := BitVec.ofNat 32 p.size.dw
      outDheight := BitVec.ofNat 32 p.size.dh
      outVp9 :=
        { bitDepth := BitVec.ofNat 4 p.bd, colorSpace := BitVec.ofNat 3 p.cs
          ssx := p.color.ssx, ssy := p.color.ssy, fullSwing := p.color.fs
          profile := BitVec.ofNat 2 p.profile, key := true }
      status := { s.status.completed true false .none with sticky := c.sticky } } := rfl

/-- The colour registers of a header whose colour configuration is there (R194 to R197). -/
theorem colorConfig_fields (x : Vp9Header) (srgbFullSwing : Bool) :
    colorConfig x srgbFullSwing =
      { fs := if x.cs = 7 then srgbFullSwing else x.fs
        ssx := if x.cs = 7 then false else if x.profile.testBit 0 = true then x.ssx else true
        ssy := if x.cs = 7 then false else if x.profile.testBit 0 = true then x.ssy else true } := by
  unfold colorConfig
  by_cases h7 : x.cs = 7
  · simp only [if_pos h7]
  · cases x.profile.testBit 0 <;> simp [if_neg h7]

/-- Settles O59: the walk's cut forms (`vp9PropsWalk_stops`, `vp9PropsWalk_sync`, `vp9PropsWalk_reads`) from
the fresh cursor, and the registers of what it answers. -/
theorem vp9propsOnACutHeader : Obligations.Vp9propsOnACutHeader := by
  intro s x hd hlegal hlen hbits hcut N p w h d odd t
  have hlen' : s.len.toNat ≠ 0 := fun h => hlen (BitVec.eq_of_toNat_eq h)
  have h8 : N % 8 = 0 := Nat.mul_mod_right 8 _
  have hx := Vp9Header.fits_of_legal hlegal
  refine ⟨fun hm => ?_, fun hm hle => ?_, fun hm hge => ?_⟩
  · obtain ⟨e, he⟩ := vp9PropsWalk_stops (c := s.freshCursor) hd h8 hx rfl rfl s.params.srgbFullSwing
      hbits hcut
    refine (execVp9props_eq s).trans (congrArg _ ?_)
    rw [hm, he, completeSession_error _ _ _ hlen', complete_failed_commitCursor]
    rfl
  · have hstart : s.view.holds 0 ((bitsOf x.start).take N) := by
      have hsplit : x.bits = bitsOf x.start ++ bitsOf (x.color ++ x.rest) := by
        rw [Vp9Header.bits, x.elements_eq, Vp9Header.head, List.append_assoc, bitsOf_append]
      rw [hsplit, List.take_append] at hbits
      exact (View.holds_append.mp hbits).1
    obtain ⟨e, he⟩ := vp9PropsWalk_sync (c := s.freshCursor) hd hx rfl rfl (len := N) (by omega)
      (by omega) s.params.srgbFullSwing hstart
    refine (execVp9props_eq s).trans (congrArg _ ?_)
    rw [hm, he, completeSession_error _ _ _ hlen', complete_failed_commitCursor]
    rfl
  · obtain ⟨e, he⟩ := vp9PropsWalk_reads (c := s.freshCursor) hd h8 hx rfl rfl (by omega)
      s.params.srgbFullSwing hbits
    have hsize : cutSize x (N - p) = { w := w, h := h, dw := d.1, dh := d.2 } := by
      have hh : N - p - 16 = N - (p + 16) := Nat.sub_sub ..
      have hdw : N - p - 16 - 16 - 1 = N - (p + 33) := by omega
      have hdh : N - (p + 33) - 16 = N - (p + 49) := Nat.sub_sub ..
      have hflag : N - p - 16 - 16 = 0 ↔ ¬p + 32 < N := by omega
      unfold cutSize cutSizeHeight cutSizeRender
      cases hr : x.render with
      | none => simp only [d, hr, hh]; rfl
      | some r =>
        obtain ⟨dw, dh⟩ := r
        simp only [d, hr, hdw, hdh, hflag, ite_not]
        rw [hh]
        split <;> rfl
    have hodd : odd = x.profile.testBit 0 := (Nat.testBit_zero _).symm
    refine (execVp9props_eq s).trans (congrArg _ ?_)
    rw [hm, he, completeSession_ok _ _ _ hlen', complete_writeVp9Props, hsize, hodd]
    by_cases h4 : s.len.toNat = 4
    · rw [if_pos (show N = 32 by omega), if_pos h4]
      by_cases h2 : 2 ≤ x.profile <;> simp only [emptyColor, h2, propsOf, if_true, if_false] <;> rfl
    · rw [if_neg (show ¬N = 32 by omega), if_neg h4]
      simp only [headFields, colorConfig_fields, propsOf]
      rfl

end Sys2Proof.Machine
end

section
/-! SUPPORT. AACCFG (41_aac.md R140 to R146): the parts of buffer bytes it takes are fields of the stream,
and its completion writes the fields it extracts. -/

namespace Sys2Proof.Machine

/-! ### Fields of the stream and parts of a byte (00_scope.md R9) -/

section
variable {s : State} (hd : s.disturbed = false)
include hd

/-- A field inside byte `i`, behind its first `a` bits, is the byte's bits from there on. -/
theorem field_within_byte (i : Nat) {a n : Nat} (h : a + n ≤ 8) :
    s.field (8 * i + a) n = (buf s.view i i).toNat / 2 ^ (8 - (a + n)) % 2 ^ n := by
  rw [← streamField_eq_field hd i]
  induction n with
  | zero => simp [streamField, Nat.mod_one]
  | succ n ih =>
    have hbit : streamBit s.view (i + n) (8 * i + a + n) =
        (buf s.view i i).toNat / 2 ^ (8 - (a + (n + 1))) % 2 := by
      rw [streamBit_serial hd _ i, Nat.add_assoc, streamBit_byte s.view i i (by omega),
        show 7 - (a + n) = 8 - (a + (n + 1)) by omega]
    rw [streamField, ih (by omega), hbit, show 8 - (a + n) = 8 - (a + (n + 1)) + 1 by omega,
      Nat.pow_succ, ← Nat.div_div_eq_div_mul, Nat.pow_succ', Nat.mod_mul, Nat.add_comm]

/-- A field is its first bits, shifted, and its last bits. -/
theorem field_add (p a b : Nat) : s.field p (a + b) = s.field p a * 2 ^ b + s.field (p + a) b := by
  simp only [← streamField_eq_field hd 0, streamField_add]
  rw [streamField_serial hd (0 + a) 0]

/-! ### The fields AACCFG extracts (R142, R143) -/

/-- The sampling-frequency index stands at stream bits 5..8, across bytes 0 and 1. -/
theorem aacSfi_eq_field : aacSfi (buf s.view 0 0) (buf s.view 1 1) = s.field 5 4 := by
  have h0 := field_within_byte hd 0 (a := 5) (n := 3) (by decide)
  have h1 := field_within_byte hd 1 (a := 0) (n := 1) (by decide)
  have hb1 := (buf s.view 1 1).isLt
  rw [field_add hd 5 3 1, h0, h1, aacSfi]
  omega

theorem aacShortFields_eq_field (sr : Option Nat) :
    aacShortFields (buf s.view 1 1) sr = { ch := s.field 9 4, sr := sr, fl := s.field 13 1 } := by
  rw [field_within_byte hd 1 (a := 1) (n := 4) (by decide),
    field_within_byte hd 1 (a := 5) (n := 1) (by decide)]
  rfl

/-- The explicit rate stands at stream bits 9..32: 7 bits of byte 1, bytes 2 and 3, and 1 bit of
byte 4. -/
theorem aacLongFields_eq_field :
    aacLongFields (buf s.view 1 1) (buf s.view 2 2) (buf s.view 3 3) (buf s.view 4 4) =
      { ch := s.field 33 4, sr := some (s.field 9 24), fl := s.field 37 1 } := by
  have h1 := field_within_byte hd 1 (a := 1) (n := 7) (by decide)
  have h2 := field_within_byte hd 2 (a := 0) (n := 8) (by decide)
  have h3 := field_within_byte hd 3 (a := 0) (n := 8) (by decide)
  have h4 := field_within_byte hd 4 (a := 0) (n := 1) (by decide)
  have hb2 := (buf s.view 2 2).isLt
  have hb3 := (buf s.view 3 3).isLt
  have hb4 := (buf s.view 4 4).isLt
  have hrate : (buf s.view 1 1).toNat % 2 ^ 7 * 2 ^ 17 + (buf s.view 2 2).toNat * 2 ^ 9 +
      (buf s.view 3 3).toNat * 2 + (buf s.view 4 4).toNat / 2 ^ 7 = s.field 9 24 := by
    rw [field_add hd 9 7 17, field_add hd 16 8 9, field_add hd 24 8 1, h1, h2, h3, h4]
    omega
  rw [aacLongFields, hrate, field_within_byte hd 4 (a := 1) (n := 4) (by decide),
    field_within_byte hd 4 (a := 5) (n := 1) (by decide)]
  rfl

/-- An index below 13 takes its rate from the table (R141). -/
theorem aacFields_table {rate : Nat} (len : Nat) (h : freq (s.field 5 4) = some rate) :
    aacFields s.view len = { ch := s.field 9 4, sr := some rate, fl := s.field 13 1 } := by
  have hlt : s.field 5 4 < 13 := (List.getElem?_eq_some_iff.mp h).1
  simp only [aacFields, aacSfi_eq_field hd, if_pos hlt, h, aacShortFields_eq_field hd]

/-- Index 15 with more than 4 bytes takes the explicit rate (R143). -/
theorem aacFields_explicit {len : Nat} (h : s.field 5 4 = 15) (hlen : 4 < len) :
    aacFields s.view len =
      { ch := s.field 33 4, sr := some (s.field 9 24), fl := s.field 37 1 } := by
  have hge : ¬s.field 5 4 < 13 := by omega
  simp only [aacFields, aacSfi_eq_field hd, if_neg hge, if_pos (And.intro h hlen),
    aacLongFields_eq_field hd]

/-- Any other index has no rate (R145). -/
theorem aacFields_unresolved {len : Nat} (hge : ¬s.field 5 4 < 13)
    (h : ¬(s.field 5 4 = 15 ∧ 4 < len)) :
    aacFields s.view len = { ch := s.field 9 4, sr := none, fl := s.field 13 1 } := by
  simp only [aacFields, aacSfi_eq_field hd, if_neg hge, if_neg h, aacShortFields_eq_field hd]

end

/-! ### The completion of AACCFG (R144, R146) -/

theorem exec_aaccfg_short (req : BitVec 3) {s : State} (h : s.len.toNat < 2) :
    exec (.aaccfg req) s =
      .next { s.ended with status := s.status.completed false false .input } := if_pos h

/-- With 2 bytes or more the completion writes the fields extracted, of the outputs REQ asks for; the
rate only where there is one. -/
theorem exec_aaccfg_of_fields (req : BitVec 3) {s : State} {f : AacFields} (hlen : 2 ≤ s.len.toNat)
    (hf : aacFields s.view s.len.toNat = f) :
    exec (.aaccfg req) s = .next { s.ended with
      outAacCh := if req.getLsbD 0 then BitVec.ofNat 4 f.ch else s.outAacCh
      outAacSr := if req.getLsbD 1 && f.sr.isSome then BitVec.ofNat 24 (f.sr.getD 0) else s.outAacSr
      outAacSpf := if req.getLsbD 2 then (if f.fl = 1 then 960 else 1024) else s.outAacSpf
      status := { s.status.completed true false .none with
        outwCh := req.getLsbD 0
        outwSr := req.getLsbD 1 && f.sr.isSome
        outwSpf := req.getLsbD 2 } } := by
  have hspf : BitVec.ofNat 11 (aacSpf f.fl) = if f.fl = 1 then 960 else 1024 :=
    apply_ite (BitVec.ofNat 11) ..
  subst hf
  rw [← hspf]
  exact if_neg (Nat.not_lt.mpr hlen)

/-- With a rate, each output REQ asks for is written. -/
theorem exec_aaccfg_of_rate (req : BitVec 3) {s : State} {ch rate fl : Nat}
    (hlen : 2 ≤ s.len.toNat)
    (hf : aacFields s.view s.len.toNat = { ch := ch, sr := some rate, fl := fl }) :
    exec (.aaccfg req) s = .next { s.ended with
      outAacCh := if req.getLsbD 0 then BitVec.ofNat 4 ch else s.outAacCh
      outAacSr := if req.getLsbD 1 then BitVec.ofNat 24 rate else s.outAacSr
      outAacSpf := if req.getLsbD 2 then (if fl = 1 then 960 else 1024) else s.outAacSpf
      status := { s.status.completed true false .none with
        outwCh := req.getLsbD 0, outwSr := req.getLsbD 1, outwSpf := req.getLsbD 2 } } := by
  rw [exec_aaccfg_of_fields req hlen hf]
  simp only [Option.isSome_some, Bool.and_true, Option.getD_some]

/-- Without a rate, OUT_AAC_SR stays and OUTW_SR is 0. -/
theorem exec_aaccfg_of_noRate (req : BitVec 3) {s : State} {ch fl : Nat}
    (hlen : 2 ≤ s.len.toNat)
    (hf : aacFields s.view s.len.toNat = { ch := ch, sr := none, fl := fl }) :
    exec (.aaccfg req) s = .next { s.ended with
      outAacCh := if req.getLsbD 0 then BitVec.ofNat 4 ch else s.outAacCh
      outAacSpf := if req.getLsbD 2 then (if fl = 1 then 960 else 1024) else s.outAacSpf
      status := { s.status.completed true false .none with
        outwCh := req.getLsbD 0, outwSr := false, outwSpf := req.getLsbD 2 } } := by
  rw [exec_aaccfg_of_fields req hlen hf]
  simp only [Option.isSome_none, Bool.and_false, Bool.false_eq_true, if_false]
  rfl

/-- Settles O46: the two cases of LEN. -/
theorem aaccfgFailsOnlyBelowTwoBytes : Obligations.AaccfgFailsOnlyBelowTwoBytes :=
  fun _ req => ⟨exec_aaccfg_short req, fun hlen => ⟨_, exec_aaccfg_of_fields req hlen rfl, rfl⟩⟩

/-- Settles O47: `freq` is the table, and its rate is the one extracted. -/
theorem aaccfgTableRate : Obligations.AaccfgTableRate :=
  fun _ req _ hd hlen hrate => exec_aaccfg_of_rate req hlen (aacFields_table hd _ hrate)

/-- Settles O48: the rate extracted is the explicit one. -/
theorem aaccfgExplicitRate : Obligations.AaccfgExplicitRate :=
  fun _ req hd hlen hsfi =>
    exec_aaccfg_of_rate req (by omega) (aacFields_explicit hd hsfi hlen)

/-- Settles O49: no rate is extracted, so OUT_AAC_SR is not written. -/
theorem aaccfgUnresolvedRate : Obligations.AaccfgUnresolvedRate :=
  fun _ req hd hlen hsfi =>
    exec_aaccfg_of_noRate req hlen (aacFields_unresolved hd (by omega) (by omega))

end Sys2Proof.Machine
end

section
/-! SUPPORT. H264SPS on an empty buffer and on a whole parameter set (42_h264_sps.md R160 to R168), and
the early stop of its loops of se() (R169). -/

namespace Sys2Proof.Machine

/-! ### An empty buffer (R160, 43_vp9.md R190) -/

/-- A session over no bytes completes with INPUT, and the cursor stays. -/
theorem completeSession_of_len_zero {α : Type} (write : α → State → State)
    (r : EStateM.Result ErrCode Cur α) {s : State} (h : s.len = 0) :
    completeSession write r s = { s.ended with status := s.status.completed false false .input } :=
  completeSession_empty write r (congrArg BitVec.toNat h)

/-- Settles O50: each of the three is a session (`completeSession`). -/
theorem emptyBufferFailsWithInput : Obligations.EmptyBufferFailsWithInput := by
  intro s i hi hlen
  rcases hi with rfl | rfl | rfl
  · exact (execH264sps_eq s).trans (congrArg _ (completeSession_of_len_zero _ _ hlen))
  · exact (execVp9key_eq s).trans (congrArg _ (completeSession_of_len_zero _ _ hlen))
  · exact (execVp9props_eq s).trans (congrArg _ (completeSession_of_len_zero _ _ hlen))

/-! ### The early stop of a loop of se() (R169) -/

theorem spent_eq_true_iff {m : Mode} {c : Cur} :
    spent m c = true ↔ m = .lenient ∧ c.lenbits ≤ c.pos ∧ c.sticky = true := by
  simp [spent, and_assoc]

/-- On a spent cursor se() reads 0 and changes nothing (40_cursor.md R107). -/
theorem rdSe_of_spent {m : Mode} {c : Cur} (h : spent m c = true) (v : View) :
    rdSe v m c = .ok 0 c := by
  obtain ⟨rfl, hend, hsticky⟩ := spent_eq_true_iff.mp h
  have hmark : c.markSticky = c := by rw [Cur.markSticky, ← hsticky]
  simp only [rdSe, elem, se, ue_exhausted hend, hmark]

/-- So does any number of them in a row. -/
theorem repeat_rdSe_of_spent {m : Mode} {c : Cur} (h : spent m c = true) (v : View) (n : Nat) :
    Nat.repeat (fun w => rdSe v m >>= fun _ => w) n (pure () : Walk Unit) c = .ok () c := by
  induction n with
  | zero => rfl
  | succ n ih => rw [Nat.repeat, walk_bind_ok (rdSe_of_spent h v), ih]

theorem repeatSe_succ (v : View) (m : Mode) (n : Nat) (c : Cur) : repeatSe v m (n + 1) c =
    if spent m c then .ok () c else (rdSe v m >>= fun _ => repeatSe v m n) c := rfl

/-- Settles O53, by induction on the count: where the loop stops, the reads left out change nothing
(`repeat_rdSe_of_spent`). -/
theorem earlyStopIsTheWholeLoop : Obligations.EarlyStopIsTheWholeLoop := by
  intro v m n
  induction n with
  | zero => exact fun _ => rfl
  | succ n ih =>
    intro c
    rw [repeatSe_succ]
    split
    next hs => exact (repeat_rdSe_of_spent hs v (n + 1)).symm
    next => rw [funext ih, Nat.repeat]

/-! ### The walk on a whole parameter set (R161 to R165) -/

/-- Stages 1 to 4, which read the stream; behind them H264SPS only checks the range. -/
def h264Fields (v : View) (m : Mode) (slLarge : Nat) : Walk Geometry := do
  let profile ← stageHeader v m
  stageHighProfile v m slLarge profile
  stagePoc v m
  stageGeometry v m

theorem h264Walk_eq_fields (v : View) (m : Mode) (slLarge : Nat) : h264Walk v m slLarge = (do
    let g ← h264Fields v m slLarge
    checkRange m g
    return g) := by
  simp only [h264Walk, h264Fields, bind_assoc]

/-- On the bits of a parameter set the stages answer its sizes, under either policy. -/
theorem h264Fields_reads {v : View} (hv : v.disturbed = false) {len : Nat} (h8 : len % 8 = 0)
    {slLarge : Nat} {x : Sps} (hlegal : x.legal slLarge = true) (m : Mode) :
    Walk.Reads v len (h264Fields v m slLarge) x.bits (spsGeometry x) := by
  simp only [Sps.legal, Bool.and_eq_true, decide_eq_true_eq] at hlegal
  obtain ⟨⟨⟨⟨⟨⟨⟨⟨⟨⟨hnal, hprofile⟩, hflags⟩, hid⟩, hhigh⟩, hlog⟩, hpoc⟩, hnum⟩, hw⟩, hh⟩, hc⟩ := hlegal
  have header := stageHeader_parsesOn (len := len) hv h8 hnal hprofile hflags hid
  have high := stageHighProfile_parsesOn (len := len) hv h8 hhigh
  have poc := stagePoc_parsesOn (len := len) hv h8 hlog hpoc
  have geometry := stageGeometry_parses (len := len) hv h8 hc hnum hw hh
  rw [Sps.bits, Sps.elements_eq]
  simp only [bitsOf_append]
  exact Reads.bind (header.reads m) <| Reads.bind (high.reads m) <| Reads.bind (poc.reads m) <|
    geometry.reads m

/-- From the start of a session the walk reads the parameter set, and the range check ends it. -/
theorem h264Walk_fresh {s : State} {x : Sps} (hd : s.disturbed = false)
    (hlegal : x.legal s.params.slLarge = true) (hbits : s.carries 0 x.bits)
    (hfit : x.bits.length ≤ 8 * s.len.toNat) :
    ∃ e, h264Walk s.view s.mode s.params.slLarge s.freshCursor =
      (checkRange s.mode (spsGeometry x) >>= fun _ => pure (spsGeometry x))
        { pos := x.bits.length, lenbits := 8 * s.len.toNat, sticky := false, serial := e } := by
  have hreads := h264Fields_reads (v := s.view) hd (Nat.mul_mod_right 8 s.len.toNat) hlegal s.mode
  obtain ⟨e, he⟩ := hreads s.freshCursor rfl hbits (by simpa only [State.freshCursor, Nat.zero_add])
  simp only [State.freshCursor, Nat.zero_add] at he
  exact ⟨e, (congrFun (h264Walk_eq_fields ..) s.freshCursor).trans (walk_bind_ok he)⟩

/-- A parameter set has at least its NAL header byte. -/
theorem sps_bits_length_pos (x : Sps) : 0 < x.bits.length := by
  simp [Sps.bits, Sps.elements_eq, Sps.headerElements]

/-! ### The derived sizes and their range (R166, R167) -/

theorem spsGeometry_height (x : Sps) : (spsGeometry x).height =
    (if x.fmo then 1 else 2) * ((x.hm1 : Int) + 1) * 16 -
      2 * (x.cropOr0.ct + x.cropOr0.cb) := by
  unfold Geometry.height spsGeometry
  cases x.fmo <;> rfl

/-- The lenient policy lets every size pass, the strict one sizes in [0, 2^63). -/
theorem checkRange_eq (m : Mode) (g : Geometry) : checkRange m g =
    if m = .lenient ∨ (0 ≤ g.width ∧ g.width < 2 ^ 63 ∧ 0 ≤ g.height ∧ g.height < 2 ^ 63)
    then pure () else fail .range := by
  cases m with
  | lenient => rfl
  | strict =>
    simp only [checkRange, sizeInRange, Bool.and_eq_true, decide_eq_true_eq, and_assoc, reduceCtorEq,
      false_or]

/-- Settles O51: the walk answers the sizes of the parameter set (`h264Walk_fresh`), unless the range
check fails. -/
theorem h264spsReadsTheSpsSyntax : Obligations.H264spsReadsTheSpsSyntax := by
  intro s x hd hlegal hbits hfit W H t
  have hlen : s.len.toNat ≠ 0 := by have := sps_bits_length_pos x; omega
  have hwidth : (spsGeometry x).width = W := rfl
  have hheight : (spsGeometry x).height = H := spsGeometry_height x
  obtain ⟨e, he⟩ := h264Walk_fresh hd hlegal hbits hfit
  rw [checkRange_eq, hwidth, hheight] at he
  refine ⟨fun hpass => ?_, fun hm hout => ?_⟩ <;> refine (execH264sps_eq s).trans (congrArg _ ?_)
  · rw [he, if_pos hpass, pure_bind, walk_pure, completeSession_ok _ _ _ hlen,
      complete_writeH264Size, hwidth, hheight]
  · have hfail : ¬(s.mode = .lenient ∨ (0 ≤ W ∧ W < 2 ^ 63 ∧ 0 ≤ H ∧ H < 2 ^ 63)) :=
      not_or.mpr ⟨by rw [hm]; decide, hout⟩
    rw [he, if_neg hfail, walk_bind_error (walk_fail _ _), completeSession_error _ _ _ hlen,
      complete_failed_commitCursor]

end Sys2Proof.Machine
end

section
/-! SUPPORT. VP9PROPS on a buffer that holds a whole key-frame header (43_vp9.md R190 to R200). -/

namespace Sys2Proof.Machine

section
variable {v : View} (hv : v.disturbed = false) {len : Nat} (h8 : len % 8 = 0) {x : Vp9Header}
  (hx : x.Fits)
include hv h8 hx

/-- From the padding on, the alignment skips to the size, and the size is read whole (R198, R199). -/
theorem vp9Tail_whole {c : Cur} (hc : c.lenbits = len) (hb : (c.pos + x.pad.length) % 8 = 0) (m : Mode)
    (p : Nat × (Nat × Nat × ColorConfig)) (hh : v.holds c.pos (bitsOf x.rest))
    (hfit : c.pos + (bitsOf x.rest).length ≤ len) :
    ∃ e, vp9Tail v m p.1 p.2 c = .ok (propsOf p (headerSize x))
      { c with pos := c.pos + (bitsOf x.rest).length, serial := e } := by
  simp only [Vp9Header.rest, bitsOf_append, List.length_append, x.bits_padding, ← Nat.add_assoc]
    at hh hfit ⊢
  obtain ⟨_, d, hd⟩ := rdAlign_reads (hc ▸ h8) hx.pad hb (by omega) v m
  obtain ⟨e, he⟩ := Reads.last (f := fun size => (pure (propsOf p size) : Walk Vp9Props))
    ((stageSize_parses (len := len) hv hx).reads m) (Reads.pure _)
    { c with pos := c.pos + x.pad.length, serial := d } hc (View.holds_append.mp hh).2 hfit
  exact ⟨e, (walk_bind_ok hd).trans he⟩

/-- From the start of the buffer the walk answers what the header holds, under either policy. -/
theorem vp9PropsWalk_whole {c : Cur} (hc : c.lenbits = len) (hpos : c.pos = 0) (m : Mode)
    (srgbFullSwing : Bool) (hh : v.holds 0 x.bits) (hfit : x.bits.length ≤ len) :
    ∃ e, vp9PropsWalk v m srgbFullSwing c =
      .ok (propsOf (headFields x srgbFullSwing) (headerSize x))
        { c with pos := x.bits.length, serial := e } := by
  have haligned := hx.aligned
  rw [x.front_length] at haligned
  rw [Vp9Header.bits, x.elements_eq, bitsOf_append] at hh hfit ⊢
  rw [List.length_append] at hfit ⊢
  obtain ⟨hhead, hrest⟩ := View.holds_append.mp hh
  obtain ⟨d, hd⟩ := (vp9Head_parses (len := len) hv hx srgbFullSwing).reads m c hc (hpos ▸ hhead)
    (by omega)
  rw [hpos, Nat.zero_add] at hd
  rw [Nat.zero_add] at hrest
  obtain ⟨e, he⟩ := vp9Tail_whole (c := { c with pos := (bitsOf x.head).length, serial := d }) hv h8 hx
    hc haligned m (headFields x srgbFullSwing) hrest hfit
  refine ⟨e, ?_⟩
  rw [vp9PropsWalk_eq_head]
  exact (walk_bind_ok hd).trans he

end

/-- Settles O55: the walk answers the fields of the header (`vp9PropsWalk_whole`), and the completion
writes them. -/
theorem vp9propsReadsTheHeaderSyntax : Obligations.Vp9propsReadsTheHeaderSyntax := by
  intro s x hd hlegal hbits hfit
  have hlen : s.len.toNat ≠ 0 := by
    have hhead := x.head_length_gt
    simp only [Vp9Header.bits, x.elements_eq, bitsOf_append, List.length_append] at hfit
    omega
  obtain ⟨e, he⟩ := vp9PropsWalk_whole (c := s.freshCursor) hd (Nat.mul_mod_right 8 s.len.toNat)
    (Vp9Header.fits_of_legal hlegal) rfl rfl s.mode s.params.srgbFullSwing hbits hfit
  refine (execVp9props_eq s).trans (congrArg _ ?_)
  rw [he, completeSession_ok _ _ _ hlen, complete_writeVp9Props]
  simp only [propsOf, headFields, headerSize, colorConfig_fields, Nat.testBit_zero, decide_eq_true_eq]
  rfl

end Sys2Proof.Machine
end

section
/-! SUPPORT. VP9KEY and VP9PROPS on the first bits of any buffer (43_vp9.md R190 to R197, 60_exceptions.md
R231): reads in front of the end answer fields of the stream, and the walks fail where a field is wrong. -/

namespace Sys2Proof.Machine

/-! ### Reads in front of the end -/

/-- The cursor of a session that has read `p` bits, all of them there. -/
def State.cursorAt (s : State) (p : Nat) : Cur :=
  { pos := p, lenbits := 8 * s.len.toNat, sticky := false, serial := p }

theorem freshCursor_eq (s : State) : s.freshCursor = s.cursorAt 0 := rfl

/-- A check that fails the walk with `code` where `p` holds (60_exceptions.md R231). -/
theorem walk_failIf {α : Type} {p : Prop} [Decidable p] (code : ErrCode) (f : Unit → Walk α) (c : Cur) :
    (if p then fail code >>= f else f ()) c = if p then .error code c else f () c := by
  split <;> rfl

theorem field_one_lt_two (s : State) (p : Nat) : s.field p 1 < 2 := by
  simpa [State.field] using streamBit_lt_two s.view 0 p

/-- How many reserved bits stand behind the profile: one, in profile 3 (43_vp9.md R190). -/
def State.reservedBits (s : State) : Nat := if s.field 2 2 = 3 then 1 else 0

theorem reservedBits_le_one (s : State) : s.reservedBits ≤ 1 := by
  unfold State.reservedBits
  split <;> omega

/-- The profile in the buffer, its low bit first (R190). -/
def State.vp9Profile (s : State) : Nat := 2 * s.field 3 1 + s.field 2 1

section
variable {s : State} (hd : s.disturbed = false)
include hd

theorem rd_at (m : Mode) {p n : Nat} (hn : 1 ≤ n) (hn' : n ≤ 64) (hfit : p + n ≤ 8 * s.len.toNat) :
    rd s.view m n (s.cursorAt p) = .ok (s.field p n) (s.cursorAt (p + n)) := by
  have hread := readBits_full (c := s.cursorAt p) hn hn' hfit s.view m
  rw [streamField_eq_field hd] at hread
  exact elem_some hread

theorem rd_bind_at {α : Type} (m : Mode) {p n : Nat} (f : Nat → Walk α) (hn : 1 ≤ n) (hn' : n ≤ 64)
    (hfit : p + n ≤ 8 * s.len.toNat) :
    (rd s.view m n >>= f) (s.cursorAt p) = f (s.field p n) (s.cursorAt (p + n)) :=
  walk_bind_ok (rd_at hd m hn hn' hfit)

theorem rd_flag_at {α : Type} (m : Mode) {p : Nat} (f : Nat → Walk α)
    (hfit : p + 1 ≤ 8 * s.len.toNat) :
    (rd s.view m 1 >>= f) (s.cursorAt p) = f (s.field p 1) (s.cursorAt (p + 1)) :=
  rd_bind_at hd m f (by omega) (by omega) hfit

/-- A bit that stands only where `q` holds, and whose value is not used. -/
theorem rd_skip_at {α : Type} (m : Mode) {p : Nat} {q : Prop} [Decidable q] (f : Unit → Walk α)
    (hfit : p + 1 ≤ 8 * s.len.toNat) :
    (if q then rd s.view m 1 >>= fun _ => f () else f ()) (s.cursorAt p) =
      f () (s.cursorAt (p + if q then 1 else 0)) := by
  split
  · exact rd_flag_at hd m _ hfit
  · rfl

/-- Profile 3 is the one whose two bits are set, whichever comes first. -/
theorem vp9Profile_eq_three_iff : s.vp9Profile = 3 ↔ s.field 2 2 = 3 := by
  have hlow := field_one_lt_two s 2
  have hhigh := field_one_lt_two s 3
  have hboth : s.field 2 2 = s.field 2 1 * 2 + s.field 3 1 := field_add hd 2 1 1
  rw [State.vp9Profile]
  omega

end

/-! ### The preamble (R190) -/

/-- The preamble behind the profile and its reserved bit. -/
def vp9FrameFlags (v : View) (m : Mode) (profile : Nat) : Walk (Nat × Nat) := do
  let showExisting ← rd v m 1
  if showExisting = 1 then fail .showExisting
  let ft ← rd v m 1
  return (profile, ft)

theorem vp9Preamble_eq (v : View) (m : Mode) : vp9Preamble v m = (do
    let marker ← rd v m 2
    if marker ≠ 2 then fail .marker
    let low ← rd v m 1
    let high ← rd v m 1
    if 2 * high + low = 3 then
      let _ ← rd v m 1
    vp9FrameFlags v m (2 * high + low)) := rfl

section
variable {s : State} (hd : s.disturbed = false)
include hd

theorem vp9FrameFlags_at (m : Mode) (profile : Nat) {p : Nat} (hfit : p + 2 ≤ 8 * s.len.toNat) :
    vp9FrameFlags s.view m profile (s.cursorAt p) =
      if s.field p 1 = 1 then .error .showExisting (s.cursorAt (p + 1))
      else .ok (profile, s.field (p + 1) 1) (s.cursorAt (p + 2)) :=
  (rd_flag_at hd m _ (by omega)).trans <| (walk_failIf _ _ _).trans <|
    if_congr Iff.rfl rfl (rd_flag_at hd m _ (by omega))

/-- The preamble on any buffer: its checks in stream order, then the profile and frame_type. -/
theorem vp9Preamble_fresh (hlen : s.len.toNat ≠ 0) (m : Mode) :
    vp9Preamble s.view m s.freshCursor =
      if s.field 0 2 ≠ 2 then .error .marker (s.cursorAt 2)
      else if s.field (4 + s.reservedBits) 1 = 1 then
        .error .showExisting (s.cursorAt (5 + s.reservedBits))
      else .ok (s.vp9Profile, s.field (5 + s.reservedBits) 1) (s.cursorAt (6 + s.reservedBits)) := by
  have hk := reservedBits_le_one s
  have hreserved : (if s.vp9Profile = 3 then 1 else 0) = s.reservedBits := by
    simp only [vp9Profile_eq_three_iff hd, State.reservedBits]
  have hbehind := rd_skip_at (p := 4) (q := s.vp9Profile = 3) hd m
    (fun _ => vp9FrameFlags s.view m s.vp9Profile) (by omega)
  beta_reduce at hbehind
  rw [hreserved, vp9FrameFlags_at hd m s.vp9Profile (by omega),
    show 4 + s.reservedBits + 1 = 5 + s.reservedBits by omega,
    show 4 + s.reservedBits + 2 = 6 + s.reservedBits by omega] at hbehind
  rw [freshCursor_eq, vp9Preamble_eq]
  exact (rd_bind_at hd m _ (by omega) (by omega) (by omega)).trans <| (walk_failIf _ _ _).trans <|
    if_congr Iff.rfl rfl <| (rd_flag_at hd m _ (by omega)).trans <|
    (rd_flag_at hd m _ (by omega)).trans hbehind

/-- The preamble of a frame that is coded in the buffer. -/
theorem vp9Preamble_codedFrame (hlen : s.len.toNat ≠ 0) (hmarker : s.field 0 2 = 2)
    (hshow : s.field (4 + s.reservedBits) 1 = 0) (m : Mode) : vp9Preamble s.view m s.freshCursor =
      .ok (s.vp9Profile, s.field (5 + s.reservedBits) 1) (s.cursorAt (6 + s.reservedBits)) := by
  have hhidden : ¬s.field (4 + s.reservedBits) 1 = 1 := by rw [hshow]; decide
  rw [vp9Preamble_fresh hd hlen, if_neg (not_not_intro hmarker), if_neg hhidden]

end

/-! ### The completions -/

/-- The state a session leaves that failed behind `p` bits, all of them there (60_exceptions.md R233). -/
def State.failedAt (s : State) (code : ErrCode) (p : Nat) : State :=
  { s.ended with
    pos := BitVec.ofNat 64 p
    lenbits := BitVec.ofNat 64 (8 * s.len.toNat)
    status := { s.status.completed false false code with sticky := false } }

theorem completeSession_error_at {α : Type} (write : α → State → State) (code : ErrCode) (p : Nat)
    {s : State} (hlen : s.len.toNat ≠ 0) :
    completeSession write (.error code (s.cursorAt p)) s = s.failedAt code p :=
  completeSession_error write code (s.cursorAt p) hlen

section
variable {s : State} (hlen : s.len.toNat ≠ 0)
include hlen

theorem exec_vp9key_of_error {code : ErrCode} {p : Nat}
    (h : vp9Preamble s.view s.mode s.freshCursor = .error code (s.cursorAt p)) :
    exec .vp9key s = .next (s.failedAt code p) := by
  refine (execVp9key_eq s).trans (congrArg _ ?_)
  rw [h, completeSession_error_at _ _ _ hlen]

theorem exec_vp9key_of_ok {profile ft p : Nat}
    (h : vp9Preamble s.view s.mode s.freshCursor = .ok (profile, ft) (s.cursorAt p)) :
    exec .vp9key s = .next { s.ended with
      pos := BitVec.ofNat 64 p
      lenbits := BitVec.ofNat 64 (8 * s.len.toNat)
      outVp9 := { s.outVp9 with key := decide (ft = 0) }
      status := { s.status.completed true false .none with sticky := false } } := by
  refine (execVp9key_eq s).trans (congrArg _ ?_)
  rw [h, completeSession_ok _ _ _ hlen]
  rfl

theorem exec_vp9props_of_error {code : ErrCode} {p : Nat}
    (h : vp9PropsWalk s.view s.mode s.params.srgbFullSwing s.freshCursor =
      .error code (s.cursorAt p)) :
    exec .vp9props s = .next (s.failedAt code p) := by
  refine (execVp9props_eq s).trans (congrArg _ ?_)
  rw [h, completeSession_error_at _ _ _ hlen]

end

/-- Settles O54: the preamble's outcomes (`vp9Preamble_fresh`), and the completion of each. -/
theorem vp9keyReadsThePreamble : Obligations.Vp9keyReadsThePreamble := by
  refine ⟨decode_eq_ok_iff_encode_eq.mpr ⟨rfl, rfl⟩, fun s hlen => ?_, ?_⟩
  · exact emptyBufferFailsWithInput s .vp9key (by simp) hlen
  intro s hd hlen k t st
  have hlen' : s.len.toNat ≠ 0 := fun h => hlen (BitVec.eq_of_toNat_eq h)
  have hrun := vp9Preamble_fresh hd hlen' s.mode
  refine ⟨fun hmarker => ?_, fun hmarker hshow => ?_, fun hmarker hshow => ?_⟩
  · exact exec_vp9key_of_error hlen' (hrun.trans (if_pos hmarker))
  · exact exec_vp9key_of_error hlen'
      (hrun.trans ((if_neg (not_not_intro hmarker)).trans (if_pos hshow)))
  · exact exec_vp9key_of_ok hlen' (vp9Preamble_codedFrame hd hlen' hmarker hshow s.mode)

/-! ### The sync code (R193) -/

theorem stageKeyframeSync_interFrame {ft : Nat} (hft : ft ≠ 0) (v : View) (m : Mode) (c : Cur) :
    stageKeyframeSync v m ft c = .error .notKeyframe c := by
  unfold stageKeyframeSync
  exact (walk_failIf _ _ c).trans (if_pos hft)

theorem vp9PropsWalk_of_start_error {v : View} {m : Mode} {srgbFullSwing : Bool} {c c' : Cur}
    {code : ErrCode} (h : vp9Start v m c = .error code c') :
    vp9PropsWalk v m srgbFullSwing c = .error code c' := by
  rw [vp9PropsWalk_eq]
  exact walk_bind_error h

section
variable {s : State} (hd : s.disturbed = false)
include hd

theorem stageKeyframeSync_at (m : Mode) {p : Nat} (hfit : p + 26 ≤ 8 * s.len.toNat) :
    stageKeyframeSync s.view m 0 (s.cursorAt p) =
      if s.field (p + 2) 24 ≠ 0x498342 then .error .sync (s.cursorAt (p + 26))
      else .ok () (s.cursorAt (p + 26)) := by
  refine (rd_flag_at hd m _ (by omega)).trans <| (rd_flag_at hd m _ (by omega)).trans <|
    (rd_bind_at hd m _ (by omega) (by omega) (by omega)).trans ?_
  rw [show p + 1 + 1 = p + 2 from rfl]
  split <;> rfl

end

section
variable {s : State} (hd : s.disturbed = false) (hlen : s.len.toNat ≠ 0)
  (hmarker : s.field 0 2 = 2) (hshow : s.field (4 + s.reservedBits) 1 = 0)
include hd hlen hmarker hshow

theorem vp9Start_interFrame (hft : s.field (5 + s.reservedBits) 1 = 1) (m : Mode) :
    vp9Start s.view m s.freshCursor = .error .notKeyframe (s.cursorAt (6 + s.reservedBits)) :=
  (walk_bind_ok (vp9Preamble_codedFrame hd hlen hmarker hshow m)).trans <|
    walk_bind_error (stageKeyframeSync_interFrame (by rw [hft]; decide) _ _ _)

theorem vp9Start_keyFrame (hft : s.field (5 + s.reservedBits) 1 = 0)
    (hfit : 32 + s.reservedBits ≤ 8 * s.len.toNat) (m : Mode) :
    vp9Start s.view m s.freshCursor =
      if s.field (8 + s.reservedBits) 24 ≠ 0x498342 then .error .sync (s.cursorAt (32 + s.reservedBits))
      else .ok s.vp9Profile (s.cursorAt (32 + s.reservedBits)) := by
  have hpre := vp9Preamble_codedFrame hd hlen hmarker hshow m
  have hsync := stageKeyframeSync_at hd m (p := 6 + s.reservedBits) (by omega)
  rw [show 6 + s.reservedBits + 2 = 8 + s.reservedBits by omega,
    show 6 + s.reservedBits + 26 = 32 + s.reservedBits by omega] at hsync
  rw [hft] at hpre
  refine (walk_bind_ok hpre).trans ?_
  split at hsync
  next hbad => rw [if_pos hbad]; exact walk_bind_error hsync
  next hgood => rw [if_neg hgood]; exact walk_bind_ok hsync

end

/-- Settles O56: the first two failures are the preamble's (`vp9Preamble_fresh`), the others those of the
stage behind it (`vp9Start_interFrame`, `vp9Start_keyFrame`). -/
theorem vp9propsRejectsBadHeaders : Obligations.Vp9propsRejectsBadHeaders := by
  intro s hd hlen k t st
  have hlen' : s.len.toNat ≠ 0 := fun h => hlen (BitVec.eq_of_toNat_eq h)
  have hrun := vp9Preamble_fresh hd hlen' s.mode
  have hfails {code : ErrCode} {p : Nat}
      (h : vp9Start s.view s.mode s.freshCursor = .error code (s.cursorAt p)) :
      exec .vp9props s = .next (s.failedAt code p) :=
    exec_vp9props_of_error hlen' (vp9PropsWalk_of_start_error h)
  refine ⟨fun hmarker => ?_, fun hmarker hshow => ?_, fun hmarker hshow hft => ?_,
    fun hmarker hshow hft hfit hsync => ?_⟩
  · exact hfails (walk_bind_error (hrun.trans (if_pos hmarker)))
  · exact hfails (walk_bind_error
      (hrun.trans ((if_neg (not_not_intro hmarker)).trans (if_pos hshow))))
  · exact hfails (vp9Start_interFrame hd hlen' hmarker hshow hft s.mode)
  · exact hfails ((vp9Start_keyFrame hd hlen' hmarker hshow hft hfit s.mode).trans (if_pos hsync))

/-! ### sRGB in the even profiles (R197) -/

section
variable {s : State} (hd : s.disturbed = false)
include hd

/-- The bit depth's flag stands where the high bit of the profile is set (R194). -/
theorem stageBitdepth_at (m : Mode) {p : Nat} (hfit : p + 1 ≤ 8 * s.len.toNat) :
    ∃ bd, stageBitdepth s.view m s.vp9Profile (s.cursorAt p) = .ok bd (s.cursorAt (p + s.field 3 1)) := by
  have hlow := field_one_lt_two s 2
  have hhigh := field_one_lt_two s 3
  unfold stageBitdepth State.vp9Profile
  split
  next =>
    rw [show s.field 3 1 = 1 by omega]
    exact ⟨_, rd_flag_at hd m _ hfit⟩
  next =>
    rw [show s.field 3 1 = 0 by omega]
    exact ⟨_, rfl⟩

theorem stageColor_srgb_even (m : Mode) (srgbFullSwing : Bool) {profile p : Nat}
    (heven : profile ≠ 1 ∧ profile ≠ 3) (hfit : p + 1 ≤ 8 * s.len.toNat) :
    stageColor s.view m srgbFullSwing profile 7 (s.cursorAt p) = .error .color (s.cursorAt (p + 1)) :=
  (rd_flag_at hd m _ hfit).trans <| (walk_failIf _ _ _).trans (if_pos heven)

theorem vp9Color_srgb_even (m : Mode) (srgbFullSwing : Bool) {p : Nat}
    (heven : s.field 2 1 = 0) (hcs : s.field (p + s.field 3 1) 3 = 7) (hfit : p + 5 ≤ 8 * s.len.toNat) :
    vp9Color s.view m srgbFullSwing s.vp9Profile (s.cursorAt p) =
      .error .color (s.cursorAt (p + s.field 3 1 + 3 + 1)) := by
  have hhigh := field_one_lt_two s 3
  obtain ⟨bd, hbd⟩ := stageBitdepth_at hd m (p := p) (by omega)
  refine (walk_bind_ok hbd).trans <|
    (rd_bind_at hd m _ (by omega) (by omega) (by omega)).trans <| walk_bind_error ?_
  rw [hcs]
  exact stageColor_srgb_even hd m srgbFullSwing (by rw [State.vp9Profile]; omega) (by omega)

end

/-- Settles O57: the header passes the sync code (`vp9Start_keyFrame`), and the colour configuration fails
(`vp9Color_srgb_even`). -/
theorem vp9propsRejectsSrgbInEvenProfiles : Obligations.Vp9propsRejectsSrgbInEvenProfiles := by
  intro s hd hlen hmarker heven hshow hft hsync hcs
  have hlen' : s.len.toNat ≠ 0 := by omega
  have hk : s.reservedBits = 0 := by
    have hprofile := vp9Profile_eq_three_iff hd
    rw [State.vp9Profile, heven] at hprofile
    exact if_neg (hprofile.not.mp (by omega))
  have hstart := vp9Start_keyFrame hd hlen' hmarker (by rw [hk]; exact hshow)
    (by rw [hk]; exact hft) (by omega) s.mode
  rw [hk, if_neg (not_not_intro hsync)] at hstart
  have hcolor := vp9Color_srgb_even hd s.mode s.params.srgbFullSwing (p := 32) heven hcs (by omega)
  rw [show 32 + s.field 3 1 + 3 + 1 = 36 + s.field 3 1 by omega] at hcolor
  refine exec_vp9props_of_error hlen' ?_
  rw [vp9PropsWalk_eq]
  exact (walk_bind_ok hstart).trans (walk_bind_error hcolor)

end Sys2Proof.Machine
end

section
/-! SUPPORT. The error codes a walk of an extraction command fails with (60_exceptions.md R231): each names
an error, so a failed walk never completes with ERR = NONE. -/

namespace Sys2Proof.Machine

/-- Where the walk fails, its code names an error. -/
def Walk.NamesErrors {α : Type} (w : Walk α) : Prop := ∀ c e c', w c = .error e c' → e ≠ .none

theorem NamesErrors.pure {α : Type} (x : α) : Walk.NamesErrors (Pure.pure x : Walk α) := by
  intro c e c' h
  cases h

theorem NamesErrors.fail {α : Type} {code : ErrCode} (hcode : code ≠ .none) :
    Walk.NamesErrors (fail code : Walk α) := by
  intro c e c' h
  cases h
  exact hcode

theorem NamesErrors.bind {α β : Type} {w : Walk α} {f : α → Walk β} (hw : Walk.NamesErrors w)
    (hf : ∀ x, Walk.NamesErrors (f x)) : Walk.NamesErrors (w >>= f) := by
  intro c e c' h
  cases hc : w c with
  | ok x c1 =>
    rw [walk_bind_ok hc] at h
    exact hf x c1 e c' h
  | error e1 c1 =>
    rw [walk_bind_error hc] at h
    cases h
    exact hw c _ _ hc

theorem NamesErrors.ite {α : Type} {p : Prop} [Decidable p] {a b : Walk α}
    (ha : Walk.NamesErrors a) (hb : Walk.NamesErrors b) : Walk.NamesErrors (if p then a else b) := by
  split <;> assumption

/-- An element read fails with ABSENT only (40_cursor.md R106). -/
theorem NamesErrors.elem {α : Type} {zero : α} {m : Mode} {read : Cur → Option α × Cur} :
    Walk.NamesErrors (elem zero m read) := by
  intro c e c' h
  rcases elem_cases zero m read c with ⟨x, -, he⟩ | ⟨-, -, he⟩ | ⟨-, -, he⟩ <;> rw [he] at h <;> cases h
  nofun

/-- An element read followed by the rest of the walk. -/
theorem NamesErrors.read {α β : Type} {zero : α} {m : Mode} {read : Cur → Option α × Cur}
    {rest : α → Walk β} (hrest : ∀ x, Walk.NamesErrors (rest x)) :
    Walk.NamesErrors (Machine.elem zero m read >>= rest) :=
  NamesErrors.bind NamesErrors.elem hrest

/-- An element read under a condition, followed by the rest of the walk. -/
theorem NamesErrors.whenRead {α β : Type} {p : Prop} [Decidable p] {zero : α} {m : Mode}
    {read : Cur → Option α × Cur} {rest : Walk β} (hrest : Walk.NamesErrors rest) :
    Walk.NamesErrors (if p then Machine.elem zero m read >>= fun _ => rest else rest) :=
  NamesErrors.ite (NamesErrors.read fun _ => hrest) hrest

/-- A check, followed by the rest of the walk. -/
theorem NamesErrors.failIf {β : Type} {p : Prop} [Decidable p] {code : ErrCode}
    {rest : Unit → Walk β} (hcode : code ≠ .none) (hrest : ∀ u, Walk.NamesErrors (rest u)) :
    Walk.NamesErrors (if p then Machine.fail code >>= rest else rest ()) :=
  NamesErrors.ite (NamesErrors.bind (NamesErrors.fail hcode) hrest) (hrest ())

theorem repeatSe_namesErrors (v : View) (m : Mode) (n : Nat) : Walk.NamesErrors (repeatSe v m n) := by
  induction n with
  | zero => exact NamesErrors.pure ()
  | succ n ih =>
    intro c e c' h
    simp only [repeatSe] at h
    split at h
    · cases h
    · exact NamesErrors.bind (w := rdSe v m) NamesErrors.elem (fun _ => ih) c e c' h

/-! ### H264SPS -/

section
variable (v : View) (m : Mode)

theorem stageHeader_namesErrors : Walk.NamesErrors (stageHeader v m) :=
  NamesErrors.read fun _ => NamesErrors.read fun p => NamesErrors.read fun _ => NamesErrors.read fun _ =>
  NamesErrors.pure p

theorem scalingListsFrom_namesErrors (slLarge i left : Nat) :
    Walk.NamesErrors (scalingListsFrom v m slLarge i left) := by
  induction left generalizing i with
  | zero => exact NamesErrors.pure ()
  | succ left ih =>
    exact NamesErrors.read fun _ => NamesErrors.ite
      (NamesErrors.bind (repeatSe_namesErrors v m _) fun _ => ih (i + 1)) (ih (i + 1))

theorem stageHighProfile_namesErrors (slLarge profile : Nat) :
    Walk.NamesErrors (stageHighProfile v m slLarge profile) :=
  NamesErrors.ite
    (NamesErrors.read fun _ => NamesErrors.whenRead <|
      NamesErrors.read fun _ => NamesErrors.read fun _ => NamesErrors.read fun _ =>
      NamesErrors.read fun _ =>
      NamesErrors.ite (scalingListsFrom_namesErrors v m _ _ _) (NamesErrors.pure ()))
    (NamesErrors.pure ())

theorem stagePoc_namesErrors : Walk.NamesErrors (stagePoc v m) :=
  NamesErrors.read fun _ => NamesErrors.read fun _ => NamesErrors.ite
    (NamesErrors.read fun _ => NamesErrors.pure ())
    (NamesErrors.ite
      (NamesErrors.read fun _ => NamesErrors.read fun _ => NamesErrors.read fun _ =>
        NamesErrors.read fun n => repeatSe_namesErrors v m n)
      (NamesErrors.pure ()))

theorem stageGeometry_namesErrors : Walk.NamesErrors (stageGeometry v m) :=
  NamesErrors.read fun _ => NamesErrors.read fun _ => NamesErrors.read fun _ => NamesErrors.read fun _ =>
  NamesErrors.read fun _ => NamesErrors.whenRead <|
  NamesErrors.read fun _ => NamesErrors.read fun _ => NamesErrors.ite
    (NamesErrors.read fun _ => NamesErrors.read fun _ => NamesErrors.read fun _ =>
      NamesErrors.read fun _ => NamesErrors.pure _)
    (NamesErrors.pure _)

/-- The range check fails with RANGE, under the strict policy (42_h264_sps.md R167). -/
theorem checkRange_namesErrors (g : Geometry) : Walk.NamesErrors (checkRange m g) := by
  cases m with
  | strict => exact NamesErrors.ite (NamesErrors.pure ()) (NamesErrors.fail nofun)
  | lenient => exact NamesErrors.pure ()

theorem h264Walk_namesErrors (slLarge : Nat) : Walk.NamesErrors (h264Walk v m slLarge) :=
  NamesErrors.bind (stageHeader_namesErrors v m) fun _ =>
  NamesErrors.bind (stageHighProfile_namesErrors v m _ _) fun _ =>
  NamesErrors.bind (stagePoc_namesErrors v m) fun _ =>
  NamesErrors.bind (stageGeometry_namesErrors v m) fun g =>
  NamesErrors.bind (checkRange_namesErrors m g) fun _ => NamesErrors.pure g

/-! ### VP9KEY and VP9PROPS -/

/-- The preamble's own codes are MARKER and SHOW_EXISTING (43_vp9.md R190). -/
theorem vp9Preamble_namesErrors : Walk.NamesErrors (vp9Preamble v m) :=
  NamesErrors.read fun _ => NamesErrors.failIf nofun fun _ =>
  NamesErrors.read fun _ => NamesErrors.read fun _ => NamesErrors.whenRead <|
  NamesErrors.read fun _ => NamesErrors.failIf nofun fun _ =>
  NamesErrors.read fun _ => NamesErrors.pure _

/-- The codes are NOT_KEYFRAME and SYNC (43_vp9.md R193). -/
theorem stageKeyframeSync_namesErrors (ft : Nat) : Walk.NamesErrors (stageKeyframeSync v m ft) := by
  unfold stageKeyframeSync
  exact NamesErrors.failIf nofun fun _ => NamesErrors.read fun _ => NamesErrors.read fun _ =>
    NamesErrors.read fun _ => NamesErrors.ite (NamesErrors.fail nofun) (NamesErrors.pure ())

theorem stageBitdepth_namesErrors (profile : Nat) : Walk.NamesErrors (stageBitdepth v m profile) :=
  NamesErrors.ite (NamesErrors.read fun _ => NamesErrors.pure _) (NamesErrors.pure _)

/-- The code is COLOR (43_vp9.md R197). -/
theorem stageColor_namesErrors (srgbFullSwing : Bool) (profile cs : Nat) :
    Walk.NamesErrors (stageColor v m srgbFullSwing profile cs) :=
  NamesErrors.ite
    (NamesErrors.read fun _ => NamesErrors.ite
      (NamesErrors.read fun _ => NamesErrors.read fun _ => NamesErrors.read fun _ => NamesErrors.pure _)
      (NamesErrors.pure _))
    (NamesErrors.read fun _ => NamesErrors.failIf nofun fun _ => NamesErrors.pure _)

theorem stageSize_namesErrors : Walk.NamesErrors (stageSize v m) :=
  NamesErrors.read fun _ => NamesErrors.read fun _ => NamesErrors.read fun _ => NamesErrors.ite
    (NamesErrors.read fun _ => NamesErrors.read fun _ => NamesErrors.pure _) (NamesErrors.pure _)

theorem vp9PropsWalk_namesErrors (srgbFullSwing : Bool) :
    Walk.NamesErrors (vp9PropsWalk v m srgbFullSwing) :=
  NamesErrors.bind (vp9Preamble_namesErrors v m) fun (_, ft) =>
  NamesErrors.bind (stageKeyframeSync_namesErrors v m ft) fun _ =>
  NamesErrors.bind (stageBitdepth_namesErrors v m _) fun _ => NamesErrors.read fun _ =>
  NamesErrors.bind (stageColor_namesErrors v m _ _ _) fun _ => NamesErrors.read fun _ =>
  NamesErrors.bind (stageSize_namesErrors v m) fun _ => NamesErrors.pure _

end

end Sys2Proof.Machine
end

section
/-! SUPPORT. STATUS after a completion (60_exceptions.md R233), for every command and for an illegal word,
and what a failure leaves. -/

namespace Sys2Proof.Machine

/-- The fields a completion writes to STATUS fit together: OK goes with NONE, and a failure leaves VALID
and OUTW 0 (R233). -/
structure Status.Settled (st : Status) : Prop where
  done : st.done = true
  ok_iff : st.ok = true ↔ st.err = .none
  failed : st.ok = false →
    st.valid = false ∧ st.outwCh = false ∧ st.outwSr = false ∧ st.outwSpf = false

theorem complete_success_settled (valid : Bool) (w : Outw) (s : State) :
    (complete { succeeded valid with outw := w } s).status.Settled :=
  ⟨rfl, ⟨fun _ => rfl, fun _ => rfl⟩, nofun⟩

theorem complete_failed_settled {code : ErrCode} (hcode : code ≠ .none) (s : State) :
    (complete (failed code) s).status.Settled :=
  ⟨rfl, ⟨nofun, fun h => absurd h hcode⟩, fun _ => ⟨rfl, rfl, rfl, rfl⟩⟩

theorem completeRead_settled {e : ErrCode} (he : e ≠ .none) (r : Option DWord) (c : Cur) (s : State) :
    (completeRead e r c s).status.Settled := by
  rcases completeRead_cases e r c s with ⟨-, h⟩ | ⟨x, -, h⟩ <;> rw [h]
  · exact complete_failed_settled he _
  · exact complete_success_settled true Outw.none _

theorem completeSession_settled {α : Type} {walk : Walk α} (hwalk : walk.NamesErrors)
    (write : α → State → State) (c : Cur) (s : State) :
    (completeSession write (walk c) s).status.Settled := by
  by_cases hlen : s.len.toNat = 0
  · rw [completeSession_empty write _ hlen]
    exact complete_failed_settled (by decide) s
  · cases h : walk c with
    | error code c' =>
      rw [completeSession_error write code c' hlen]
      exact complete_failed_settled (hwalk c code c' h) _
    | ok x c' =>
      rw [completeSession_ok write x c' hlen]
      exact complete_success_settled false Outw.none _

theorem execRdbits_settled (n : Nat) (s : State) :
    ∃ t, execRdbits n s = .next t ∧ t.status.Settled := by
  unfold execRdbits
  split
  · exact ⟨_, rfl, completeRead_settled (by decide) _ _ s⟩
  · exact ⟨_, rfl, completeRead_settled (by decide) _ _ s⟩

theorem execAaccfg_settled (req : BitVec 3) (s : State) :
    ∃ t, execAaccfg req s = .next t ∧ t.status.Settled := by
  unfold execAaccfg
  split
  · exact ⟨_, rfl, complete_failed_settled (by decide) s⟩
  · exact ⟨_, rfl, complete_success_settled false _ _⟩

/-- Every command completes, from every state, with STATUS as R233 says. -/
theorem exec_settled (i : Instr) (s : State) : ∃ t, exec i s = .next t ∧ t.status.Settled := by
  cases i with
  | nop | cinit => exact ⟨_, rfl, complete_success_settled false Outw.none _⟩
  | clz | balign | selftest => exact ⟨_, rfl, complete_success_settled true Outw.none _⟩
  | ue | se | align => exact ⟨_, rfl, completeRead_settled (by decide) _ _ s⟩
  | rdbits n => exact execRdbits_settled n s
  | aaccfg req => exact execAaccfg_settled req s
  | h264sps =>
    exact ⟨_, execH264sps_eq s, completeSession_settled (h264Walk_namesErrors _ _ _) _ _ s⟩
  | vp9key => exact ⟨_, execVp9key_eq s, completeSession_settled (vp9Preamble_namesErrors _ _) _ _ s⟩
  | vp9props =>
    exact ⟨_, execVp9props_eq s, completeSession_settled (vp9PropsWalk_namesErrors _ _ _) _ _ s⟩

section
variable {s t : State} {i : Instr}

theorem settled_of_exec (h : exec i s = .next t) : t.status.Settled := by
  obtain ⟨u, hu, hsettled⟩ := exec_settled i s
  rw [hu] at h
  cases h
  exact hsettled

/-- A completion ends the command, and leaves DROP, the turns and the last word read. -/
theorem Completed.ends (h : Completed s i t) : t.running = none ∧ t.status.drop = s.status.drop ∧
    t.turns = s.turns ∧ t.readData = s.readData := by
  cases h <;> exact ⟨rfl, rfl, rfl, rfl⟩

/-- "on failure no output register is written" (R233). -/
theorem Completed.keeps_outputs_of_failure (h : Completed s i t) (hok : t.status.ok = false) :
    s.sameOutputs t := by
  cases h with
  | primitive | extractFailed => exact ⟨rfl, rfl, rfl, rfl, rfl, rfl, rfl, rfl⟩
  | aaccfg | h264sps | vp9key | vp9props => cases hok

end

end Sys2Proof.Machine
end

section
/-! SUPPORT. STATUS under every turn (60_exceptions.md R232, R233, R235 to R237): its invariant, a host
write that meets a busy unit, and the interrupt output. -/

namespace Sys2Proof.Machine

/-! ### Register writes -/

theorem unlessBusy_busy {s : State} (h : s.busy = true) (t : State) : unlessBusy s t = setDrop s :=
  if_pos h

/-- The registers BUSY protects (R237). -/
theorem regWrite_dropped {off : Nat} (hoff : off ∈ [0x00, 0x04, 0x0C, 0x10, 0x14]) (v : Word)
    {s : State} (h : s.busy = true) : regWrite off v s = setDrop s := by
  simp only [List.mem_cons, List.not_mem_nil, or_false] at hoff
  rcases hoff with rfl | rfl | rfl | rfl | rfl <;> exact unlessBusy_busy h _

/-- A register write that leaves the unit busy leaves DONE 0: the command was running, or is accepted by
this write (R232). -/
theorem regWrite_done_of_busy (off : Nat) (v : Word) {s : State}
    (hs : s.busy = true → s.status.done = false) (ht : (regWrite off v s).busy = true) :
    (regWrite off v s).status.done = false := by
  cases hbusy : s.busy with
  | true => exact (regWrite_busy off v hbusy).2 (hs hbusy)
  | false =>
    have hkeeps (t : State) (hrun : t.running = s.running) : (unlessBusy s t).busy = false := by
      rw [unlessBusy_idle hbusy, State.busy, hrun]
      exact hbusy
    unfold regWrite at ht ⊢
    split at ht
    case h_2 => rw [unlessBusy_idle hbusy, accept_status]
    case h_3 | h_7 => exact absurd ht (Bool.eq_false_iff.mp hbusy)
    all_goals exact absurd ht (Bool.eq_false_iff.mp (hkeeps _ rfl))

/-! ### The invariant -/

/-- A completion meets the invariant: it fits together, and the unit is idle. -/
theorem Status.Settled.statusInv {t : State} (h : t.status.Settled) (hidle : t.running = none) :
    t.StatusInv := by
  obtain ⟨-, hok, hfailed⟩ := h
  refine ⟨hok.mp, fun hvalid => ?_, fun houtw => ?_, fun hbusy => ?_⟩
  · by_contra hne
    simp [hfailed (Bool.eq_false_iff.mpr hne)] at hvalid
  · by_contra hne
    simp [hfailed (Bool.eq_false_iff.mpr hne)] at houtw
  · simp [State.busy, hidle] at hbusy

theorem statusInv_of_unitTurn {s t : State} (hs : s.StatusInv) (h : unitTurn s = .next t) :
    t.StatusInv := by
  unfold unitTurn execWord at h
  split at h
  · cases h; exact hs
  · split at h
    · exact (settled_of_exec h).statusInv (completed_of_exec h).ends.1
    · cases h; exact (complete_failed_settled (by decide) s).statusInv rfl

theorem statusInv_of_regWrite {s : State} (hs : s.StatusInv) (off : Nat) (v : Word) :
    (regWrite off v s).StatusInv := by
  obtain ⟨herr, hvalid, houtw, hdone⟩ := hs
  have hframe := congrArg State.status (regWrite_frame off v s)
  dsimp only at hframe
  refine ⟨?_, ?_, ?_, regWrite_done_of_busy off v hdone⟩ <;> rw [hframe] <;> assumption

theorem statusInv_of_hostAct {a : HostAction} {s t : State} (hs : s.StatusInv)
    (h : hostAct a s = .next t) : t.StatusInv := by
  rcases hostAct_cases a s with ⟨_, _, -, -, he⟩ | ⟨off, _, v, -, -, he⟩ | ⟨_, _, -, -, he⟩ | ⟨_, he⟩ <;>
    rw [he] at h <;> cases h
  · exact hs
  · exact statusInv_of_regWrite hs off.toNat v
  · exact hs

theorem statusInv_of_agentAct {s : State} (hs : s.StatusInv) (x : DWord) (b : Byte) :
    (agentAct x b s).StatusInv := by
  rcases agentAct_cases x b s with ⟨-, he⟩ | ⟨-, he⟩ <;> rw [he]
  · obtain ⟨herr, hvalid, houtw, hdone⟩ := hs
    exact ⟨herr, hvalid, houtw, fun hbusy => hdone (by simpa [State.busy] using hbusy)⟩
  · exact hs

theorem statusInv_of_memErrorAct {s t : State} (hs : s.StatusInv) (h : memErrorAct s = .next t) :
    t.StatusInv := by
  rcases memErrorAct_cases s with ⟨-, he⟩ | ⟨-, he⟩ <;> rw [he] at h <;> cases h
  exact hs

/-- Settles O32: a completion writes STATUS as R233 says (`exec_settled`), an acceptance clears DONE
(`regWrite_done_of_busy`), and reset clears all. -/
theorem stepKeepsStatusInv : Obligations.StepKeepsStatusInv := by
  intro s t hs h
  have hpop : (popTurn s).StatusInv := hs
  unfold step takeTurn at h
  split at h
  · exact statusInv_of_unitTurn hpop h
  · exact statusInv_of_hostAct hpop h
  · cases h; exact statusInv_of_agentAct hpop _ _
  · exact statusInv_of_memErrorAct hpop h
  · cases h; exact (by decide : State.reset.StatusInv)

/-! ### The interrupt output (R235) -/

/-- Bit 1 of a word is its second flag. -/
theorem getLsbD_one_of_toNat_eq {w : Word} {a b : Bool} {x : Nat}
    (h : w.toNat = a.toNat + 2 * b.toNat + 4 * x) : w.getLsbD 1 = b := by
  have ha := a.toNat_lt
  have hb := b.toNat_lt
  rw [← BitVec.testBit_toNat, Nat.testBit_eq_decide_div_mod_eq, h,
    show (a.toNat + 2 * b.toNat + 4 * x) / 2 ^ 1 % 2 = b.toNat by omega]
  cases b <;> rfl

theorem ctrlWord_ie (c : Ctrl) : (ctrlWord c).getLsbD 1 = c.ie :=
  getLsbD_one_of_toNat_eq (x := 0) (ctrlWord_packs c).1

theorem statusWord_done (s : State) : (statusWord s).getLsbD 1 = s.status.done := by
  have hword := (statusWord_packs s).1
  exact getLsbD_one_of_toNat_eq (a := s.busy) (x := s.status.ok.toNat + 2 * s.status.valid.toNat +
    2 ^ 2 * s.status.err.code + 2 ^ 6 * s.exh.toNat + 2 ^ 7 * s.over.toNat +
    2 ^ 8 * s.status.sticky.toNat + 2 ^ 9 * s.status.drop.toNat + 2 ^ 10 * s.status.outwCh.toNat +
    2 ^ 11 * s.status.outwSr.toNat + 2 ^ 12 * s.status.outwSpf.toNat) (by omega)

theorem irq_eq_false_of_done {s : State} (h : s.status.done = false) : s.irq = false := by
  rw [State.irq, h, Bool.false_and]

/-- Settles O18: a completion sets DONE and keeps CTRL; each other clause clears one of the two bits. -/
theorem irqIsDoneAndEnable : Obligations.IrqIsDoneAndEnable := by
  refine ⟨fun s => ?_, fun i s t h => ?_, fun w s => irq_eq_false_of_done rfl, fun v s hv => ?_,
    fun v s hidle hv => ?_, fun s hs hbusy => ?_⟩
  · exact (congrArg₂ and (statusWord_done s) (ctrlWord_ie s.ctrl)).symm
  · rw [State.irq, (settled_of_exec h).done, (completed_of_exec h).ctrl_len_drawEpoch.1,
      Bool.true_and]
  · have hdone : (statusW1c v s).status.done = false := by simp [hv]
    exact irq_eq_false_of_done hdone
  · have hw : regWrite 0x00 v s = { s with ctrl := { strict := v.getLsbD 0, ie := v.getLsbD 1 } } :=
      unlessBusy_idle hidle _
    rw [hw, State.irq, hv, Bool.and_false]
  · obtain ⟨-, -, -, hdone⟩ := hs
    exact irq_eq_false_of_done (hdone hbusy)

/-! ### Completion, acceptance and dropped writes -/

/-- Settles O21: STATUS by `exec_settled`, and the frame by the forms a completion can take. -/
theorem everyCommandCompletes : Obligations.EveryCommandCompletes := by
  intro i s
  obtain ⟨t, ht, hsettled⟩ := exec_settled i s
  have hc := completed_of_exec ht
  obtain ⟨hrun, hdrop, hturns, hread⟩ := hc.ends
  obtain ⟨hparams, hbase, hmem⟩ := hc.frame
  obtain ⟨hctrl, hlen, -⟩ := hc.ctrl_len_drawEpoch
  exact ⟨t, ht, hrun, hsettled.done, hsettled.ok_iff, hsettled.failed, hdrop, hparams, hctrl, hlen,
    hbase, hmem, hturns, hread⟩

/-- Settles O23: the forms of a failed completion write no output register. -/
theorem failureWritesNoOutput : Obligations.FailureWritesNoOutput :=
  fun _ _ _ h hok => (completed_of_exec h).keeps_outputs_of_failure hok

/-- Settles O7: the write of CMD is an acceptance while idle, and dropped while busy. -/
theorem commandAcceptance : Obligations.CommandAcceptance := by
  intro s w ts h
  rw [step_hostWrite (by decide) h]
  exact ⟨fun hidle => congrArg _ (unlessBusy_idle (s := { s with turns := ts }) hidle _),
    fun hbusy => congrArg _ (unlessBusy_busy (s := { s with turns := ts }) hbusy _)⟩

/-- Settles O8: the five registers BUSY protects (`regWrite_dropped`), and STATUS, which it does not. -/
theorem busyWritesAreDropped : Obligations.BusyWritesAreDropped := by
  intro s off v ts hbusy h
  refine ⟨fun hoff => ?_, fun hoff => ?_⟩
  · have ha : off.toNat % 4 = 0 := by
      simp only [List.mem_cons, List.not_mem_nil, or_false] at hoff
      omega
    rw [step_hostWrite ha h]
    exact congrArg _ (regWrite_dropped (s := { s with turns := ts }) hoff v hbusy)
  · rw [step_hostWrite (by omega) h, hoff]
    rfl

end Sys2Proof.Machine
end

section
/-! SUPPORT. Reset (70_reset_and_hazards.md R260, R261) and the host's writes of memory (R271). -/

namespace Sys2Proof.Machine

/-! ### Reset -/

/-- The words a host reads after reset depend on nothing from before it. -/
theorem resetUnit_words (s : State) :
    regRead (resetUnit s) 0x00 = 1 ∧ regRead (resetUnit s) 0x08 = 0x100 ∧
    vp9Word (resetUnit s).outVp9 = 0 ∧ (resetUnit s).irq = false := by
  have hctrl : regRead (resetUnit s) 0x00 = regRead State.reset 0x00 := rfl
  have hstatus : regRead (resetUnit s) 0x08 = regRead State.reset 0x08 := rfl
  rw [hctrl, hstatus, resetUnit_outVp9]
  exact ⟨by decide, by decide, by decide, rfl⟩

/-- Settles O17: the step is `resetUnit`, whose fields are those of `State.reset`. -/
theorem resetFromAnyState : Obligations.ResetFromAnyState := by
  intro s ts h
  obtain ⟨hctrl, hstatus, hvp9, hirq⟩ := resetUnit_words { s with turns := ts }
  exact ⟨resetUnit { s with turns := ts }, step_of_turns_cons h, rfl, rfl, rfl, rfl, rfl, rfl, rfl,
    rfl, rfl, rfl, ⟨rfl, rfl, rfl, rfl, rfl, rfl, rfl, rfl⟩, rfl, rfl, rfl, rfl, hvp9, rfl, rfl, rfl,
    hctrl, hstatus, hirq⟩

/-- Settles O29: every field of the reset state is a literal, so each invariant evaluates. -/
theorem resetMeetsTheInvariants : Obligations.ResetMeetsTheInvariants :=
  ⟨⟨by decide, by decide, Memory.wf_reset⟩, by decide, by decide, by decide, by decide⟩

/-! ### The host's writes of memory -/

/-- An address that the running command may not read is not guarded (20_memory.md R70, 30_encoding.md
R83). -/
theorem guards_eq_false_of_permitted {s : State} {a : Nat}
    (h : s.running = none ∨ (∃ r e, s.running = some r ∧ decode r.cmd = .error e) ∨
      ∃ r i, s.running = some r ∧ decode r.cmd = .ok i ∧
        ∀ k < mayReadBytes i s, a ≠ (s.base.toNat + k) % 2 ^ s.params.addrW) :
    s.guards a = false := by
  rcases h with hidle | ⟨r, e, hr, hillegal⟩ | ⟨r, i, hr, hlegal, houtside⟩
  · exact guards_eq_false (protectedBytes_none hidle) a
  · exact guards_eq_false (protectedBytes_illegal hr hillegal) a
  · rw [Bool.eq_false_iff, ne_eq, guards_running_iff hr hlegal]
    rintro ⟨k, hk, ha⟩
    exact houtside k hk ha

/-- The host's write of a byte that is not guarded. -/
theorem hostAct_memWrite {s : State} {a : DWord} (h : s.guards a.toNat = false) (b : Byte) :
    hostAct (.memWrite a b) s = .next (pokeMemory a b s) := by
  simp only [hostAct, h, Bool.false_eq_true, if_false]

/-- Settles O15: the address is not guarded, so the byte is written, by the laws of memory. -/
theorem hostMemoryWritesChangeTheByte : Obligations.HostMemoryWritesChangeTheByte := by
  intro s a b ts h hwf hpermitted
  have hguard : State.guards { s with turns := ts } a.toNat = false :=
    guards_eq_false_of_permitted (s := s) hpermitted
  refine ⟨memWrite s.mem a.toNat b, ?_, Memory.wf_memWrite hwf a.toNat b,
    memRead_memWrite_same a.toNat b hwf, fun x hx => memRead_memWrite_other s.mem b hx.symm⟩
  rw [step_of_turns_cons h]
  exact hostAct_memWrite hguard b

end Sys2Proof.Machine
end

section
/-! SUPPORT. How many stream bits a walk consumes at most (70_reset_and_hazards.md R268), and the bounds
of VP9KEY and VP9PROPS. -/

namespace Sys2Proof.Machine

/-- Wherever the walk ends, POS is at most `n` bits further on. -/
def Walk.Consumes {α : Type} (n : Nat) (w : Walk α) : Prop :=
  Walk.Moves (fun c c' => c'.pos ≤ c.pos + n) w

section
variable {α β : Type} {a b n : Nat}

theorem Consumes.pure (x : α) : Walk.Consumes n (Pure.pure x : Walk α) :=
  Moves.pure (fun _ => Nat.le_add_right _ _) x

theorem Consumes.fail (e : ErrCode) : Walk.Consumes n (fail e : Walk α) :=
  Moves.fail (fun _ => Nat.le_add_right _ _) e

theorem Consumes.mono {w : Walk α} (h : Walk.Consumes a w) (hab : a ≤ b) : Walk.Consumes b w :=
  fun c => ⟨fun x c' hw => ((h c).1 x c' hw).trans (Nat.add_le_add_left hab _),
    fun e c' hw => ((h c).2 e c' hw).trans (Nat.add_le_add_left hab _)⟩

/-- The bits of the two parts add up; the second part's stand first, so that a proof counts down the bits
that are left. -/
theorem Consumes.bind {w : Walk α} {f : α → Walk β} (hw : Walk.Consumes a w)
    (hf : ∀ x, Walk.Consumes b (f x)) : Walk.Consumes (b + a) (w >>= f) := by
  intro c
  cases h : w c with
  | ok x c₁ =>
    have hfirst : c₁.pos ≤ c.pos + a := (hw c).1 x c₁ h
    have hsecond := hf x c₁
    rw [walk_bind_ok h]
    refine ⟨fun y c' h' => ?_, fun e c' h' => ?_⟩
    · have : c'.pos ≤ c₁.pos + b := hsecond.1 y c' h'
      omega
    · have : c'.pos ≤ c₁.pos + b := hsecond.2 e c' h'
      omega
  | error e c₁ =>
    have hfirst : c₁.pos ≤ c.pos + a := (hw c).2 e c₁ h
    rw [walk_bind_error h]
    refine ⟨nofun, fun e' c' h' => ?_⟩
    cases h'
    omega

theorem Consumes.ite {p : Prop} [Decidable p] {w w' : Walk α} (h : Walk.Consumes n w)
    (h' : Walk.Consumes n w') : Walk.Consumes n (if p then w else w') :=
  Moves.ite h h'

/-- A part that fails under a condition, in the shape `do` gives it. -/
theorem Consumes.failIf {p : Prop} [Decidable p] {e : ErrCode} {rest : Unit → Walk β}
    (h : ∀ u, Walk.Consumes n (rest u)) :
    Walk.Consumes n (if p then Machine.fail e >>= rest else rest ()) :=
  Consumes.ite (Consumes.bind (Consumes.fail (n := 0) e) h) (h ())

/-- A part that is walked under a condition. -/
theorem Consumes.when {p : Prop} [Decidable p] {w : Walk α} {rest : Walk β}
    (hw : Walk.Consumes a w) (h : Walk.Consumes b rest) :
    Walk.Consumes (b + a) (if p then w >>= fun _ => rest else rest) :=
  Consumes.ite (Consumes.bind hw fun _ => h) (Consumes.mono h (Nat.le_add_right _ _))

end

section
variable (v : View) (m : Mode)

/-- ReadBits moves POS by its width or not at all (40_cursor.md R101). -/
theorem readBits_consumes (n : Nat) (c : Cur) : (readBits v m n c).2.pos ≤ c.pos + n := by
  obtain ⟨-, -, -, hpos⟩ := readBits_bounds v m n c
  omega

theorem rd_consumes (n : Nat) : Walk.Consumes n (rd v m n) :=
  Moves.elem (readBits_consumes v m n) fun _ _ h => h

/-- Align skips at most 7 bits (40_cursor.md R105). -/
theorem alignTo_consumes (c : Cur) : (alignTo v m c).2.pos ≤ c.pos + 7 := by
  by_cases hon : c.pos % 8 = 0
  · rw [alignTo_of_aligned hon]
    exact Nat.le_add_right _ _
  · have hread := readBits_consumes v m (8 - c.pos % 8) c
    rcases hr : readBits v m (8 - c.pos % 8) c with ⟨_ | x, c'⟩ <;>
      simp only [alignTo, hon, hr, if_false] at hread ⊢ <;> omega

theorem rdAlign_consumes : Walk.Consumes 7 (rdAlign v m) :=
  Moves.elem (alignTo_consumes v m) fun _ _ h => h

/-! ### The stages of VP9KEY and VP9PROPS (43_vp9.md R190 to R199) -/

theorem vp9Preamble_consumes : Walk.Consumes 7 (vp9Preamble v m) :=
  Consumes.bind (rd_consumes v m 2) fun _ => Consumes.failIf fun _ =>
  Consumes.bind (rd_consumes v m 1) fun _ => Consumes.bind (rd_consumes v m 1) fun _ =>
  Consumes.when (rd_consumes v m 1) <|
  Consumes.bind (rd_consumes v m 1) fun _ => Consumes.failIf fun _ =>
  Consumes.bind (b := 0) (rd_consumes v m 1) fun _ => Consumes.pure _

theorem stageKeyframeSync_consumes (ft : Nat) : Walk.Consumes 26 (stageKeyframeSync v m ft) := by
  unfold stageKeyframeSync
  exact Consumes.failIf fun _ =>
    Consumes.bind (rd_consumes v m 1) fun _ => Consumes.bind (rd_consumes v m 1) fun _ =>
    Consumes.bind (b := 0) (rd_consumes v m 24) fun _ => Consumes.ite (Consumes.fail _) (Consumes.pure _)

theorem stageBitdepth_consumes (profile : Nat) : Walk.Consumes 1 (stageBitdepth v m profile) :=
  Consumes.ite (Consumes.bind (b := 0) (rd_consumes v m 1) fun _ => Consumes.pure _) (Consumes.pure _)

theorem stageColorYuv_consumes (profile : Nat) : Walk.Consumes 4 (stageColorYuv v m profile) :=
  Consumes.bind (rd_consumes v m 1) fun _ => Consumes.ite
    (Consumes.bind (rd_consumes v m 1) fun _ => Consumes.bind (rd_consumes v m 1) fun _ =>
      Consumes.bind (b := 0) (rd_consumes v m 1) fun _ => Consumes.pure _)
    (Consumes.pure _)

theorem stageColorSrgb_consumes (srgbFullSwing : Bool) (profile : Nat) :
    Walk.Consumes 1 (stageColorSrgb v m srgbFullSwing profile) :=
  Consumes.bind (b := 0) (rd_consumes v m 1) fun _ => Consumes.failIf fun _ => Consumes.pure _

theorem stageColor_consumes (srgbFullSwing : Bool) (profile cs : Nat) :
    Walk.Consumes 4 (stageColor v m srgbFullSwing profile cs) :=
  Consumes.ite (stageColorYuv_consumes v m profile)
    (Consumes.mono (stageColorSrgb_consumes v m srgbFullSwing profile) (by decide))

theorem stageSize_consumes : Walk.Consumes 65 (stageSize v m) :=
  Consumes.bind (rd_consumes v m 16) fun _ => Consumes.bind (rd_consumes v m 16) fun _ =>
  Consumes.bind (rd_consumes v m 1) fun _ => Consumes.ite
    (Consumes.bind (rd_consumes v m 16) fun _ => Consumes.bind (b := 0) (rd_consumes v m 16) fun _ =>
      Consumes.pure _)
    (Consumes.pure _)

/-- 7 + 26 + 1 + 3 + 4 + 7 + 65 bits (R268). -/
theorem vp9PropsWalk_consumes (srgbFullSwing : Bool) :
    Walk.Consumes 113 (vp9PropsWalk v m srgbFullSwing) :=
  Consumes.bind (vp9Preamble_consumes v m) fun (_, ft) =>
  Consumes.bind (stageKeyframeSync_consumes v m ft) fun _ =>
  Consumes.bind (stageBitdepth_consumes v m _) fun _ => Consumes.bind (rd_consumes v m 3) fun _ =>
  Consumes.bind (stageColor_consumes v m _ _ _) fun _ => Consumes.bind (rdAlign_consumes v m) fun _ =>
  Consumes.bind (b := 0) (stageSize_consumes v m) fun _ => Consumes.pure _

end

/-- A session starts at position 0, so POS ends at most where the walk's bound says. -/
theorem completeSession_pos_le {α : Type} {n : Nat} {walk : Walk α} (hwalk : walk.Consumes n)
    {write : α → State → State} (hwrite : ∀ x t, (write x t).pos = t.pos) {s : State}
    (hlen : s.len ≠ 0) : (completeSession write (walk s.freshCursor) s).pos.toNat ≤ n := by
  have hlen' : s.len.toNat ≠ 0 := fun h => hlen (BitVec.eq_of_toNat_eq h)
  have hcommit {c : Cur} (hc : c.pos ≤ 0 + n) : (BitVec.ofNat 64 c.pos).toNat ≤ n := by
    rw [BitVec.toNat_ofNat]
    exact (Nat.mod_le _ _).trans (Nat.zero_add n ▸ hc)
  cases h : walk s.freshCursor with
  | ok x c =>
    rw [completeSession_ok write x c hlen', complete_pos, hwrite, commitCursor_pos]
    exact hcommit ((hwalk _).1 x c h)
  | error e c =>
    rw [completeSession_error write e c hlen', complete_pos, commitCursor_pos]
    exact hcommit ((hwalk _).2 e c h)

/-- Settles O58: both commands are sessions, and their walks consume at most 7 and 113 bits. -/
theorem vp9ConsumesBoundedBits : Obligations.Vp9ConsumesBoundedBits := by
  refine fun s t hlen => ⟨fun h => ?_, fun h => ?_⟩
  · cases (execVp9key_eq s).symm.trans h
    exact completeSession_pos_le (write := writeVp9Key) (vp9Preamble_consumes _ _) (fun _ _ => rfl) hlen
  · cases (execVp9props_eq s).symm.trans h
    exact completeSession_pos_le (write := writeVp9Props) (vp9PropsWalk_consumes _ _ _) (fun _ _ => rfl) hlen

end Sys2Proof.Machine
end

section
/-! SUPPORT. How a busy unit completes (70_reset_and_hazards.md R267): what one step makes of the turns, of
BUSY and of DONE, and what some steps in a row make of them. -/

namespace Sys2Proof.Machine

/-! ### One step -/

/-- The unit has no fault (60_exceptions.md R230): a step goes on or is refused. -/
theorem step_next_or_refused (s : State) : (∃ t, step s = .next t) ∨ ∃ r, step s = .refused r := by
  cases h : step s with
  | next t => exact .inl ⟨t, rfl⟩
  | fault r => cases r
  | refused r => exact .inr ⟨r, rfl⟩

theorem Taken.turns {s t : State} (h : Taken s t) : t.turns = s.turns := by
  cases h with
  | hostWrite off v => rw [regWrite_frame off v s]
  | command h =>
    obtain ⟨-, -, hturns, -⟩ := h.ends
    exact hturns
  | nothing | illegal | hostRead | memory | disturbed | reset => rfl

/-- A step uses up one turn. -/
theorem step_turns {s t : State} (h : step s = .next t) : t.turns = s.turns.tail :=
  (step_taken h).turns

theorem nextTurn_of_nil {s : State} (h : s.turns = []) : nextTurn s = .unit := by
  simp only [nextTurn, h, List.head?_nil, Option.getD_none]

theorem nextTurn_of_cons {s : State} {x : Turn} {ts : List Turn} (h : s.turns = x :: ts) :
    nextTurn s = x := by
  simp only [nextTurn, h, List.head?_cons, Option.getD_some]

/-- The latched word completes, legal or not (60_exceptions.md R233). -/
theorem execWord_completes (w : Word) (s : State) :
    ∃ t, execWord w s = .next t ∧ t.running = none ∧ t.status.done = true := by
  cases hd : decode w with
  | ok i =>
    obtain ⟨t, ht, hsettled⟩ := exec_settled i s
    exact ⟨t, by rw [execWord_of_decode_ok hd, ht], (completed_of_exec ht).ends.1, hsettled.done⟩
  | error e => exact ⟨completeIllegal s, by simp only [execWord, hd], rfl, rfl⟩

theorem completesTo_iff {s t : State} : completesTo s t = true ↔
    s.busy = true ∧ t.busy = false ∧ t.status.done = true := by
  simp only [completesTo, Bool.and_eq_true, Bool.not_eq_true', and_assoc]

/-- In its own turn a busy unit completes (R267). -/
theorem step_of_unit_completes {s : State} (hbusy : s.busy = true) (h : nextTurn s = .unit) :
    ∃ t, step s = .next t ∧ completesTo s t = true := by
  obtain ⟨r, hr⟩ := Option.isSome_iff_exists.mp hbusy
  obtain ⟨t, ht, hrun, hdone⟩ := execWord_completes r.cmd (popTurn s)
  exact ⟨t, by rw [step_of_unit_of_running h hr, ht],
    completesTo_iff.mpr ⟨hbusy, by rw [State.busy, hrun]; rfl, hdone⟩⟩

theorem busy_agentAct (x : DWord) (b : Byte) (s : State) : (agentAct x b s).busy = s.busy := by
  rcases agentAct_cases x b s with ⟨-, h⟩ | ⟨-, h⟩ <;> rw [h]
  · exact Option.isSome_map
  · rfl

/-- A plain turn has a next state; a busy unit completes in it, or is still busy after it. -/
theorem step_of_plain {s : State} (hbusy : s.busy = true) (hplain : (nextTurn s).plain = true) :
    ∃ t, step s = .next t ∧ (completesTo s t = true ∨ t.busy = true) := by
  have hstep : step s = takeTurn (nextTurn s) (popTurn s) := rfl
  cases hx : nextTurn s with rw [hx] at hstep hplain
  | unit =>
    obtain ⟨t, ht, hc⟩ := step_of_unit_completes hbusy hx
    exact ⟨t, ht, .inl hc⟩
  | host a =>
    cases a with
    | read off bytes => exact ⟨_, hstep.trans (if_pos hplain), .inr hbusy⟩
    | write off bytes v =>
      have hrun := (regWrite_busy off.toNat v (s := popTurn s) hbusy).1
      refine ⟨_, hstep.trans (if_pos hplain), .inr ?_⟩
      rw [State.busy, hrun]
      exact hbusy
    | memWrite => cases hplain
  | agentWrite a b => exact ⟨_, hstep, .inr ((busy_agentAct a b _).trans hbusy)⟩
  | memError | rst => cases hplain

theorem running_of_idle {s : State} (h : s.busy = false) : s.running = none :=
  Option.not_isSome_iff_eq_none.mp (Bool.eq_false_iff.mp h)

/-- With no turn placed the unit is idle after the step (Log 2). -/
theorem step_of_nil_idle {s t : State} (hts : s.turns = []) (h : step s = .next t) :
    t.busy = false := by
  have hunit := nextTurn_of_nil hts
  cases hbusy : s.busy with
  | true =>
    obtain ⟨u, hu, hc⟩ := step_of_unit_completes hbusy hunit
    rw [hu] at h
    cases h
    exact (completesTo_iff.mp hc).2.1
  | false =>
    have hrun : (popTurn s).running = none := running_of_idle hbusy
    simp only [step, hunit, takeTurn, unitTurn, hrun] at h
    cases h
    exact hbusy

/-- A turn that is not the host's leaves an idle unit idle, and sets no DONE. -/
theorem step_of_not_host_idle {s t : State} (hidle : s.busy = false)
    (hturn : (nextTurn s).isHost = false) (h : step s = .next t) :
    t.busy = false ∧ (t.status.done = true → s.status.done = true) := by
  have hrun : (popTurn s).running = none := running_of_idle hidle
  unfold step at h
  cases hx : nextTurn s with rw [hx] at h hturn
  | unit =>
    simp only [takeTurn, unitTurn, hrun] at h
    cases h
    exact ⟨hidle, id⟩
  | host a => cases hturn
  | agentWrite a b =>
    cases h
    refine ⟨(busy_agentAct a b _).trans hidle, fun hdone => ?_⟩
    rw [agentAct_frame] at hdone
    exact hdone
  | memError =>
    simp only [takeTurn, memErrorAct, protectedBytes_none hrun, if_true] at h
    cases h
    exact ⟨hidle, id⟩
  | rst =>
    cases h
    exact ⟨rfl, nofun⟩

/-! ### Some steps -/

theorem runSteps_succ_of_next {s s' : State} (h : step s = .next s') (n : Nat) :
    runSteps (n + 1) s = runSteps n s' := by
  simp only [runSteps, h]

theorem runSteps_succ_of_refused {s : State} {r : Refusal} (h : step s = .refused r) (n : Nat) :
    runSteps (n + 1) s = .refused r := by
  simp only [runSteps, h]

/-- Steps that go on end with a step that goes on. -/
theorem runSteps_succ_eq_next {n : Nat} {s t : State} :
    runSteps (n + 1) s = .next t ↔ ∃ u, runSteps n s = .next u ∧ step u = .next t := by
  induction n generalizing s with
  | zero =>
    rcases step_next_or_refused s with ⟨s', h⟩ | ⟨r, h⟩
    · simp [runSteps, h]
    · simp [runSteps, h]
  | succ n ih =>
    rcases step_next_or_refused s with ⟨s', h⟩ | ⟨r, h⟩
    · simp only [runSteps_succ_of_next h, ih]
    · simp [runSteps_succ_of_refused h]

theorem runSteps_turns {n : Nat} {s t : State} (h : runSteps n s = .next t) :
    t.turns = s.turns.drop n := by
  induction n generalizing t with
  | zero => cases h; rfl
  | succ n ih =>
    obtain ⟨u, hu, hstep⟩ := runSteps_succ_eq_next.mp h
    rw [step_turns hstep, ih hu, List.tail_drop]

/-- The unit is busy no longer than there are turns. -/
theorem le_length_of_runSteps_busy {n : Nat} {s t : State} (h : runSteps n s = .next t)
    (hbusy : t.busy = true) : n ≤ s.turns.length := by
  cases n with
  | zero => exact Nat.zero_le _
  | succ n =>
    obtain ⟨u, hu, hstep⟩ := runSteps_succ_eq_next.mp h
    by_contra hlt
    have hnil : u.turns = [] := by
      rw [runSteps_turns hu]
      exact List.drop_of_length_le (by omega)
    rw [step_of_nil_idle hnil hstep] at hbusy
    cases hbusy

/-! ### A busy unit completes (R267) -/

/-- A busy unit completes, is reset, or meets a refusal. -/
theorem runSteps_idle_or_refused {s : State} (hbusy : s.busy = true) :
    ∃ n, n ≤ s.turns.length + 1 ∧
      ((∃ t, runSteps n s = .next t ∧ t.busy = false) ∨ ∃ r, runSteps n s = .refused r) := by
  induction hts : s.turns generalizing s with
  | nil =>
    obtain ⟨t, ht, hc⟩ := step_of_unit_completes hbusy (nextTurn_of_nil hts)
    exact ⟨1, by simp, .inl ⟨t, runSteps_succ_of_next ht 0, (completesTo_iff.mp hc).2.1⟩⟩
  | cons x ts ih =>
    rcases step_next_or_refused s with ⟨s', h⟩ | ⟨r, h⟩
    · cases hs' : s'.busy with
      | false => exact ⟨1, by simp, .inl ⟨s', runSteps_succ_of_next h 0, hs'⟩⟩
      | true =>
        obtain ⟨n, hn, hend⟩ := ih hs' (by rw [step_turns h, hts, List.tail_cons])
        exact ⟨n + 1, by simpa using hn, by rwa [runSteps_succ_of_next h]⟩
    · exact ⟨1, by simp, .inr ⟨r, runSteps_succ_of_refused h 0⟩⟩

/-- Where every turn is a plain one, some step within the turns and one more completes the command. -/
theorem runSteps_completes_of_plain {s : State} (hbusy : s.busy = true)
    (hplain : s.turns.all Turn.plain = true) :
    ∃ n u t, n ≤ s.turns.length ∧ runSteps n s = .next u ∧ step u = .next t ∧
      completesTo u t = true := by
  induction hts : s.turns generalizing s with
  | nil =>
    obtain ⟨t, ht, hc⟩ := step_of_unit_completes hbusy (nextTurn_of_nil hts)
    exact ⟨0, s, t, Nat.zero_le _, rfl, ht, hc⟩
  | cons x ts ih =>
    rw [hts, List.all_cons, Bool.and_eq_true] at hplain
    obtain ⟨hx, hrest⟩ := hplain
    obtain ⟨s', h, hc | hs'⟩ := step_of_plain hbusy (by rwa [nextTurn_of_cons hts])
    · exact ⟨0, s, s', Nat.zero_le _, rfl, h, hc⟩
    · have hturns : s'.turns = ts := by rw [step_turns h, hts, List.tail_cons]
      obtain ⟨n, u, t, hn, hu, ht, hc⟩ := ih hs' (by rwa [hturns]) hturns
      exact ⟨n + 1, u, t, by simpa using hn, by rwa [runSteps_succ_of_next h], ht, hc⟩

/-- Settles O19: by induction on the turns, each of which is refused, ends BUSY, or leaves one turn less. -/
theorem busyUnitCompletes : Obligations.BusyUnitCompletes := by
  refine ⟨fun s hbusy => runSteps_idle_or_refused hbusy, fun s hbusy hplain => ?_⟩
  obtain ⟨n, u, t, hn, hu, ht, hc⟩ := runSteps_completes_of_plain hbusy hplain
  obtain ⟨-, hidle, hdone⟩ := completesTo_iff.mp hc
  exact ⟨n + 1, t, by omega, runSteps_succ_eq_next.mpr ⟨u, hu, ht⟩, hidle, hdone⟩

end Sys2Proof.Machine
end

section
/-! SUPPORT. Where a run ends (70_reset_and_hazards.md R272): the first of its steps that ends it, and that
this is the point `runEnd` finds. -/

namespace Sys2Proof.Machine

/-! ### The end of a run by its steps -/

/-- The step after `k` steps completes a command that no CMD write follows, and leads to `t`. -/
def EndsAt (s : State) (k : Nat) (t : State) : Prop :=
  ∃ u, runSteps k s = .next u ∧ step u = .next t ∧ u.busy = true ∧ t.busy = false ∧
    t.status.done = true ∧ ∀ x ∈ t.turns, x.writesCmd = false

/-- It is the first such step. -/
def FirstEndsAt (s : State) (k : Nat) (t : State) : Prop :=
  EndsAt s k t ∧ ∀ j < k, ∀ u, ¬EndsAt s j u

theorem lastCmdIssued_iff {s : State} :
    s.lastCmdIssued = true ↔ ∀ x ∈ s.turns, x.writesCmd = false := by
  simp [State.lastCmdIssued]

theorem endsAt_iff {s t : State} {k : Nat} : EndsAt s k t ↔ ∃ u, runSteps k s = .next u ∧
    step u = .next t ∧ completesTo u t = true ∧ t.lastCmdIssued = true := by
  simp only [EndsAt, completesTo_iff, lastCmdIssued_iff, and_assoc]

theorem endsAt_zero_of_next {s s' t : State} (h : step s = .next s') :
    EndsAt s 0 t ↔ t = s' ∧ completesTo s s' = true ∧ s'.lastCmdIssued = true := by
  rw [endsAt_iff]
  constructor
  · rintro ⟨u, hu, hstep, hc, hlast⟩
    cases hu
    rw [h] at hstep
    cases hstep
    exact ⟨rfl, hc, hlast⟩
  · rintro ⟨rfl, hc, hlast⟩
    exact ⟨s, rfl, h, hc, hlast⟩

theorem endsAt_succ_of_next {s s' t : State} (h : step s = .next s') (k : Nat) :
    EndsAt s (k + 1) t ↔ EndsAt s' k t := by
  simp only [EndsAt, runSteps_succ_of_next h]

theorem not_endsAt_of_refused {s : State} {r : Refusal} (h : step s = .refused r) (k : Nat)
    (t : State) : ¬EndsAt s k t := by
  rintro ⟨u, hu, hstep, -⟩
  cases k with
  | zero =>
    cases hu
    rw [h] at hstep
    cases hstep
  | succ k =>
    rw [runSteps_succ_of_refused h] at hu
    cases hu

/-- Where the first step ends the run, it is the first that does. -/
theorem exists_firstEndsAt_of_zero {s s' t : State} {n : Nat} (h : EndsAt s 0 s') :
    (∃ k < n + 1, FirstEndsAt s k t) ↔ t = s' := by
  constructor
  · rintro ⟨k, -, hend, hfirst⟩
    cases k with
    | zero =>
      obtain ⟨u, hu, hstep, -⟩ := hend
      obtain ⟨u', hu', hstep', -⟩ := h
      cases hu
      cases hu'
      rw [hstep] at hstep'
      cases hstep'
      rfl
    | succ k => exact absurd h (hfirst 0 (Nat.succ_pos k) s')
  · rintro rfl
    exact ⟨0, Nat.succ_pos n, h, fun j hj => absurd hj (Nat.not_lt_zero j)⟩

/-- Where the first step does not end the run, its end is that of the run from the next state. -/
theorem exists_firstEndsAt_of_next {s s' t : State} {n : Nat} (h : step s = .next s')
    (hzero : ∀ u, ¬EndsAt s 0 u) :
    (∃ k < n + 1, FirstEndsAt s k t) ↔ ∃ k < n, FirstEndsAt s' k t := by
  constructor
  · rintro ⟨k, hk, hend, hfirst⟩
    cases k with
    | zero => exact absurd hend (hzero t)
    | succ k =>
      exact ⟨k, by omega, (endsAt_succ_of_next h k).mp hend, fun j hj u hu =>
        hfirst (j + 1) (by omega) u ((endsAt_succ_of_next h j).mpr hu)⟩
  · rintro ⟨k, hk, hend, hfirst⟩
    refine ⟨k + 1, by omega, (endsAt_succ_of_next h k).mpr hend, fun j hj u hu => ?_⟩
    cases j with
    | zero => exact hzero u hu
    | succ j => exact hfirst j (by omega) u ((endsAt_succ_of_next h j).mp hu)

/-- A step that ends the run from `s`, if there is one, has a first. -/
theorem exists_firstEndsAt {s t : State} {k : Nat} (h : EndsAt s k t) :
    ∃ j ≤ k, ∃ u, FirstEndsAt s j u := by
  classical
  have hex : ∃ k t, EndsAt s k t := ⟨k, t, h⟩
  obtain ⟨u, hu⟩ := Nat.find_spec hex
  exact ⟨Nat.find hex, Nat.find_min' hex ⟨t, h⟩, u, hu,
    fun j hj u' hu' => Nat.find_min hex hj ⟨u', hu'⟩⟩

/-! ### The points of a run -/

/-- The point that follows `p` where the step leads to `t`. -/
def RunPoint.after (p : RunPoint) (t : State) : RunPoint :=
  { state := t
    untouched := completesTo p.state t || (p.untouched && !(nextTurn p.state).isHost) }

theorem RunPoint.next_of_next {p : RunPoint} {t : State} (h : step p.state = .next t) :
    p.next = some (p.after t) := by
  simp only [RunPoint.next, h, RunPoint.after]

theorem RunPoint.next_of_refused {p : RunPoint} {r : Refusal} (h : step p.state = .refused r) :
    p.next = none := by
  simp only [RunPoint.next, h]

theorem RunPoint.over_iff {p : RunPoint} : p.over = true ↔ p.state.lastCmdIssued = true ∧
    p.state.busy = false ∧ p.state.status.done = true ∧ p.untouched = true := by
  simp only [RunPoint.over, Bool.and_eq_true, Bool.not_eq_true', and_assoc]

theorem RunPoint.after_untouched {p : RunPoint} {t : State} : (p.after t).untouched = true ↔
    completesTo p.state t = true ∨ p.untouched = true ∧ (nextTurn p.state).isHost = false := by
  simp only [RunPoint.after, Bool.or_eq_true, Bool.and_eq_true, Bool.not_eq_true']

/-- Where the host has made no access since a completion, the unit is idle. -/
def RunPoint.Sound (p : RunPoint) : Prop := p.untouched = true → p.state.busy = false

theorem RunPoint.Sound.after {p : RunPoint} (hp : p.Sound) {t : State} (h : step p.state = .next t) :
    (p.after t).Sound := by
  intro huntouched
  rcases RunPoint.after_untouched.mp huntouched with hc | ⟨hu, hturn⟩
  · exact (completesTo_iff.mp hc).2.1
  · exact (step_of_not_host_idle (hp hu) hturn h).1

theorem writesCmd_of_not_host {x : Turn} (h : x.isHost = false) : x.writesCmd = false := by
  cases x with
  | host a => cases h
  | unit | agentWrite | memError | rst => rfl

/-- A turn that is not the host's issues no CMD write. -/
theorem lastCmdIssued_of_step {s t : State} (hturn : (nextTurn s).isHost = false)
    (h : step s = .next t) (ht : t.lastCmdIssued = true) : s.lastCmdIssued = true := by
  rw [lastCmdIssued_iff, step_turns h] at ht
  rw [lastCmdIssued_iff]
  cases hts : s.turns with
  | nil => exact fun x hx => absurd hx List.not_mem_nil
  | cons x ts =>
    rw [hts, List.tail_cons] at ht
    rw [nextTurn_of_cons hts] at hturn
    exact List.forall_mem_cons.mpr ⟨writesCmd_of_not_host hturn, ht⟩

/-- A run that was not over is over exactly after a completion that no CMD write follows: a turn that is
not the host's sets no DONE of an idle unit and issues no CMD write. -/
theorem RunPoint.over_after_iff {p : RunPoint} (hp : p.Sound) (hover : p.over = false) {t : State}
    (h : step p.state = .next t) :
    (p.after t).over = true ↔ completesTo p.state t = true ∧ t.lastCmdIssued = true := by
  rw [RunPoint.over_iff, RunPoint.after_untouched]
  constructor
  · rintro ⟨hlast, -, hdone, hc | ⟨hu, hturn⟩⟩
    · exact ⟨hc, hlast⟩
    · have hpover : p.over = true := RunPoint.over_iff.mpr ⟨lastCmdIssued_of_step hturn h hlast, hp hu,
        (step_of_not_host_idle (hp hu) hturn h).2 hdone, hu⟩
      rw [hover] at hpover
      cases hpover
  · rintro ⟨hc, hlast⟩
    obtain ⟨-, hidle, hdone⟩ := completesTo_iff.mp hc
    exact ⟨hlast, hidle, hdone, .inl hc⟩

theorem runEnd_of_over {p : RunPoint} (h : p.over = true) (n : Nat) : runEnd n p = some p.state := by
  cases n <;> simp only [runEnd, h, if_true]

theorem runEnd_zero_of_not_over {p : RunPoint} (h : p.over = false) : runEnd 0 p = none := by
  simp only [runEnd, h, Bool.false_eq_true, if_false]

theorem runEnd_succ_of_next {p : RunPoint} (h : p.over = false) {t : State}
    (hstep : step p.state = .next t) (n : Nat) : runEnd (n + 1) p = runEnd n (p.after t) := by
  simp only [runEnd, h, Bool.false_eq_true, if_false, RunPoint.next_of_next hstep, Option.bind_some]

theorem runEnd_succ_of_refused {p : RunPoint} (h : p.over = false) {r : Refusal}
    (hstep : step p.state = .refused r) (n : Nat) : runEnd (n + 1) p = none := by
  simp only [runEnd, h, Bool.false_eq_true, if_false, RunPoint.next_of_refused hstep,
    Option.bind_none]

/-- The end that `runEnd` finds is the first step that ends the run. -/
theorem runEnd_eq_some_iff {n : Nat} {p : RunPoint} (hp : p.Sound) (hover : p.over = false)
    {t : State} : runEnd n p = some t ↔ ∃ k < n, FirstEndsAt p.state k t := by
  induction n generalizing p with
  | zero => simp [runEnd_zero_of_not_over hover]
  | succ n ih =>
    rcases step_next_or_refused p.state with ⟨s', h⟩ | ⟨r, h⟩
    · have hiff := RunPoint.over_after_iff hp hover h
      rw [runEnd_succ_of_next hover h]
      cases hafter : (p.after s').over with
      | true =>
        have hzero : EndsAt p.state 0 s' := (endsAt_zero_of_next h).mpr ⟨rfl, hiff.mp hafter⟩
        rw [runEnd_of_over hafter, exists_firstEndsAt_of_zero hzero, Option.some_inj, eq_comm]
        rfl
      | false =>
        have hzero (u : State) : ¬EndsAt p.state 0 u := fun hu => by
          rw [hiff.mpr ((endsAt_zero_of_next h).mp hu).2] at hafter
          cases hafter
        rw [ih (hp.after h) hafter, exists_firstEndsAt_of_next h hzero]
        rfl
    · rw [runEnd_succ_of_refused hover h]
      refine iff_of_false nofun ?_
      rintro ⟨k, -, hend, -⟩
      exact not_endsAt_of_refused h k t hend

theorem runEnd_start_iff {s t : State} {n : Nat} :
    runEnd n (RunPoint.start s) = some t ↔ ∃ k < n, FirstEndsAt s k t :=
  runEnd_eq_some_iff (p := RunPoint.start s) nofun
    (by simp only [RunPoint.over, RunPoint.start, Bool.and_false])

/-- One step more than the turns finds the end that any number of steps finds. -/
theorem runEnd_start_length {s t : State} {n : Nat} (h : runEnd n (RunPoint.start s) = some t) :
    runEnd (s.turns.length + 1) (RunPoint.start s) = some t := by
  obtain ⟨k, -, hfirst⟩ := runEnd_start_iff.mp h
  obtain ⟨u, hu, -, hbusy, -⟩ := hfirst.1
  exact runEnd_start_iff.mpr ⟨k, Nat.lt_succ_of_le (le_length_of_runSteps_busy hu hbusy), hfirst⟩

/-- Plain turns with no CMD write among them lead to an end of the run. -/
theorem exists_endsAt_of_plain {s : State} (hbusy : s.busy = true)
    (hplain : s.turns.all Turn.plain = true) (hcmd : ∀ x ∈ s.turns, x.writesCmd = false) :
    ∃ k ≤ s.turns.length, ∃ t, EndsAt s k t := by
  obtain ⟨k, u, t, hk, hu, ht, hc⟩ := runSteps_completes_of_plain hbusy hplain
  have hturns : t.turns = s.turns.drop (k + 1) := runSteps_turns (runSteps_succ_eq_next.mpr ⟨u, hu, ht⟩)
  refine ⟨k, hk, t, endsAt_iff.mpr ⟨u, hu, ht, hc, lastCmdIssued_iff.mpr fun x hx => ?_⟩⟩
  rw [hturns] at hx
  exact hcmd x (List.mem_of_mem_drop hx)

/-- Settles O20: `runEnd` finds the first step that ends the run, and such a step comes within the turns. -/
theorem runEndsWithTheLastCommand : Obligations.RunEndsWithTheLastCommand := by
  refine ⟨fun s t n => runEnd_start_iff, fun s t n h => ?_, fun s hbusy hplain hcmd => ?_⟩
  · rw [runObservation, runEnd_start_length h]
    rfl
  · obtain ⟨k, hk, t, hend⟩ := exists_endsAt_of_plain hbusy hplain hcmd
    obtain ⟨j, hj, u, hfirst⟩ := exists_firstEndsAt hend
    exact ⟨u, runEnd_start_iff.mpr ⟨j, by omega, hfirst⟩⟩

end Sys2Proof.Machine
end
